-- ==== Sys2Proof/Word.lean ====
section
/-! DEFINITION. The two word types of LCD-CORE: the byte of the parallel bus, of a command, of a pattern and of a
character (R8: DB_W = SEG_W = 8), and the 32-bit display word (R8: WORD_W = 32). Bit 0 is the least significant (R11). -/

namespace Sys2Proof

/-- One byte: a bus byte, a command byte, a segment pattern or a character code. -/
abbrev Byte := BitVec 8

/-- A display word: four patterns, the first character's in bits 7:0 (R84). -/
abbrev Word := BitVec 32

end Sys2Proof
end

