-- ==== Sys2Proof/Syntax.lean ====
section
/-! DEFINITION. The operations of LCD-CORE as syntax: one constructor per row of spec/opcode_table.json (R85), the engine
each belongs to and its OPSEL number. Meaning is in Machine/, encodings in Decode.lean. -/

namespace Sys2Proof

/-- The two engines, each an agent of its own (R2, R19). The ROM is read inside SRL and is no agent. -/
inductive Engine where
  /-- the parallel bus engine -/
  | pbe
  /-- the shift-register segment loader -/
  | srl
deriving DecidableEq, Repr

/-- The 22 operations of R85. A text is the list of the character codes the host presents; R86 makes a character an 8-bit
code, and a wider one is refused when the operation is executed (R200). -/
inductive Instr where
  /-- RDBF, `readBusyFlagAndAddress()` (R130) -/
  | rdbf
  /-- WAITRDY, `waitUntilReady()` (R131) -/
  | waitrdy
  /-- RDDATA, `readData()` (R132) -/
  | rddata
  /-- WRDATA(b), `writeData(byte)` (R133) -/
  | wrdata (b : Byte)
  /-- CMD(b), `issueCommand(byte)`, any byte (R134) -/
  | cmd (b : Byte)
  /-- CLEAR, `clear()` (R135) -/
  | clear
  /-- HOME, `returnHome()` (R136) -/
  | home
  /-- ENTRY(increment, shift), `setEntryMode` (R137) -/
  | entry (increment shift : Bool)
  /-- DISPMODE(displayOn, cursorOn, blinkOn), `setDisplayMode` (R138) -/
  | dispmode (displayOn cursorOn blinkOn : Bool)
  /-- SHIFT(isShift, moveRight), `setShiftOrCursorMove` (R139) -/
  | shift (isShift moveRight : Bool)
  /-- FUNC(eightBit, twoLine, largeFont), `setFunction` (R140) -/
  | func (eightBit twoLine largeFont : Bool)
  /-- SETCG(a), `setCGRAMAddress(a)` (R141) -/
  | setcg (a : Byte)
  /-- SETDD(a), `setDDRAMAddress(a)` (R142) -/
  | setdd (a : Byte)
  /-- PUTS(text), `displayString(text)` (R143) -/
  | puts (text : List Nat)
  /-- CLRALL, `clearAll()` (R163) -/
  | clrall
  /-- ENCODE(text), `encode(text)` (R161) -/
  | encode (text : List Nat)
  /-- DISPLAY(text), `display(text)` (R162) -/
  | display (text : List Nat)
  /-- RAWDISP(bits), `rawDisplay(bits)` (R160) -/
  | rawdisp (bits : Word)
  /-- DEMO(cancel), `cycleDigitsDemo(cancelSignal)`: `cancel` says whether the signal is already raised at entry (R164) -/
  | demo (cancel : Bool)
  /-- RAWWR(b), the raw write cycle, internal (R120) -/
  | rawwr (b : Byte)
  /-- RAWRD, the raw read cycle, internal (R121) -/
  | rawrd
  /-- LOOKUP(c), the ROM lookup, internal (R110) -/
  | lookup (c : Byte)
deriving DecidableEq, Repr

/-- The engine that executes an operation (R85, column "engine"). LOOKUP is a step of SRL's ENCODE. -/
def Instr.engine : Instr → Engine
  | .rdbf => .pbe
  | .waitrdy => .pbe
  | .rddata => .pbe
  | .wrdata _ => .pbe
  | .cmd _ => .pbe
  | .clear => .pbe
  | .home => .pbe
  | .entry _ _ => .pbe
  | .dispmode _ _ _ => .pbe
  | .shift _ _ => .pbe
  | .func _ _ _ => .pbe
  | .setcg _ => .pbe
  | .setdd _ => .pbe
  | .puts _ => .pbe
  | .clrall => .srl
  | .encode _ => .srl
  | .display _ => .srl
  | .rawdisp _ => .srl
  | .demo _ => .srl
  | .rawwr _ => .pbe
  | .rawrd => .pbe
  | .lookup _ => .srl

/-- OPSEL, the number by which a request selects the operation (R85). The three internal operations have none: the host
cannot request them. -/
def Instr.opsel : Instr → Option Nat
  | .rdbf => some 0x00
  | .waitrdy => some 0x01
  | .rddata => some 0x02
  | .wrdata _ => some 0x03
  | .cmd _ => some 0x04
  | .clear => some 0x05
  | .home => some 0x06
  | .entry _ _ => some 0x07
  | .dispmode _ _ _ => some 0x08
  | .shift _ _ => some 0x09
  | .func _ _ _ => some 0x0A
  | .setcg _ => some 0x0B
  | .setdd _ => some 0x0C
  | .puts _ => some 0x0D
  | .clrall => some 0x10
  | .encode _ => some 0x11
  | .display _ => some 0x12
  | .rawdisp _ => some 0x13
  | .demo _ => some 0x14
  | .rawwr _ => none
  | .rawrd => none
  | .lookup _ => none

/-- The text operand of an operation, empty where it has none. -/
def Instr.text : Instr → List Nat
  | .puts t => t
  | .encode t => t
  | .display t => t
  | .rdbf => []
  | .waitrdy => []
  | .rddata => []
  | .wrdata _ => []
  | .cmd _ => []
  | .clear => []
  | .home => []
  | .entry _ _ => []
  | .dispmode _ _ _ => []
  | .shift _ _ => []
  | .func _ _ _ => []
  | .setcg _ => []
  | .setdd _ => []
  | .clrall => []
  | .rawdisp _ => []
  | .demo _ => []
  | .rawwr _ => []
  | .rawrd => []
  | .lookup _ => []

end Sys2Proof
end

