-- ==== Sys2Proof/Config.lean ====
section
/-! DEFINITION. What an implementation fixes and what the spec leaves open. The parameters of R8 and R9 are plain
constants; the parameters of construction (R10) and the answers of the environment are opaque constants with no body, so
that nothing can be proved of their values. -/

namespace Sys2Proof

/-- A logic level on a pin: high is 1, low is 0 (R12). -/
inductive Level where
  | low
  | high
deriving DecidableEq, Repr, Inhabited

/-- The level that stands for a bit (R12). -/
def Level.ofBool (b : Bool) : Level := if b then .high else .low

/-- The bit a level stands for (R12). -/
def Level.toBool : Level → Bool
  | .low => false
  | .high => true

/-- What the environment answers to one pin call (R105): it succeeds, and if the call reads the pin the level is `v`; or it
fails. -/
inductive Draw where
  | ok (v : Level)
  | fail
deriving DecidableEq, Repr, Inhabited

/-- Whose turn it is, and how far the turn goes (log 3, log 4). -/
inductive Agent where
  /-- the host issues its next request and waits while the operation runs: the whole call, or up to the head of a loop that may
  not end -/
  | host
  /-- the host issues its next request; the engine accepts it and stands at the first step of the pseudocode -/
  | issue
  /-- PBE goes on: one whole turn of the poll loop when it stands at its head, else one line of the pseudocode -/
  | pbe
  /-- SRL goes on: one whole turn of the tick loop when it stands at its head, else one line of the pseudocode -/
  | srl
  /-- PBE executes the one line of the pseudocode that its PH names -/
  | pbeLine
  /-- SRL executes the one line of the pseudocode that its PH names -/
  | srlLine
deriving DecidableEq, Repr, Inhabited

/-- The six delays an engine requests (R9), by name. -/
inductive Delay where
  /-- after ReadWrite is driven -/
  | tAS
  /-- after Enable is driven high -/
  | tDS
  /-- after Enable is driven low -/
  | tEND
  /-- before each additional poll -/
  | tPOLL
  /-- after each Clock edge and each Latch edge -/
  | tSR
  /-- after each window of DEMO -/
  | tTICK
deriving DecidableEq, Repr

namespace Config

/-- The requested time of a delay in nanoseconds, the figure R9 says the implementation uses. -/
def delayNs : Delay → Nat
  | .tAS => 250
  | .tDS => 250
  | .tEND => 500
  | .tPOLL => 40000
  | .tSR => 1000
  | .tTICK => 500000000

/-- N_SHIFT: clock pulses per RAWDISP (R8). -/
def nShift : Nat := 32

/-- DEMO_WIN: characters per demo window (R8). -/
def demoWin : Nat := 4

/-- DEMO_SEQ: the 19 characters "0123456789ABCDEF012" (R8). -/
def demoSeq : List Byte :=
  [0x30, 0x31, 0x32, 0x33, 0x34, 0x35, 0x36, 0x37, 0x38, 0x39, 0x41, 0x42, 0x43, 0x44, 0x45, 0x46, 0x30, 0x31, 0x32]

/-- HAS_DEMO as constructed: the spec's default (R10, D20). -/
def hasDemo : Bool := true

/-- DESIGN CHOICE (log 1), safe: the n-th answer to an engine's pin calls once the scripted ones are used up; free (D25). -/
opaque freeDraw : Engine → Nat → Draw

/-- DESIGN CHOICE (log 2), safe: the n-th code of an order of the eight data pins, once the scripted ones are used up; free (D7). -/
opaque freeOrder : Nat → Nat

/-- DESIGN CHOICE (log 16), safe: whether the n-th check finds CANCEL raised, once the scripted ones are used up; free (R186). -/
opaque freeCancel : Nat → Bool

/-- DESIGN CHOICE (log 4), safe: whose turn the n-th step is, once the scripted turns are used up; free (R62). -/
opaque freeTurn : Nat → Agent

/-- DESIGN CHOICE (log 11), safe: the bytes the host issues at its n-th look beyond the requests in the state, none if empty;
free, so that a run may have finitely or infinitely many requests (R231). -/
opaque freeRequest : Nat → List Byte

/-- DESIGN CHOICE (log 13), safe: what STATUS.RESULT of PBE holds after a protocol timeout, indexed by the pin calls made; free,
since "the last status byte is not kept" (R182). -/
opaque freeResult : Nat → Byte

/-- HAS_DEG as constructed (R10): free (log 8). -/
opaque hasDeg : Bool

/-- HAS_COL as constructed (R10): free (log 8). -/
opaque hasCol : Bool

/-- HAS_CUR as constructed (R10): free (log 8). -/
opaque hasCur : Bool

/-- How many additional polls beyond the first are allowed, or none (R10, D9): free (log 8). -/
opaque extraPolls : Option Nat

/-- POLL_LIMIT as constructed: none, or a natural number of at least 1 (R10). -/
def pollLimit : Option Nat := extraPolls.map (· + 1)

/-- The pairs of a caller-supplied table, or none (R10, R112): free (log 8). -/
opaque customPairs : Option (List (Byte × Byte))

/-- Which printable ASCII digit or letter the k-th of the 19 entries of the default table is for (R111): free (log 9). -/
opaque defaultKey : Fin 19 → Fin 62

/-- The pattern of the k-th of the 19 entries of the default table (R111): free (log 9). -/
opaque defaultPattern : Fin 19 → Byte

/-- The printable ASCII digits and letters, numbered `0`-`9`, `A`-`Z`, `a`-`z`. -/
def alphanumeric (k : Fin 62) : Byte :=
  if k.val < 10 then BitVec.ofNat 8 (0x30 + k.val)
  else if k.val < 36 then BitVec.ofNat 8 (0x41 + (k.val - 10))
  else BitVec.ofNat 8 (0x61 + (k.val - 36))

/-- The 19 entries of DEFAULT_TABLE: keys are printable ASCII digits or letters, contents open (R111, D16). -/
def defaultPairs : List (Byte × Byte) :=
  (List.finRange 19).map (fun k => (alphanumeric (defaultKey k), defaultPattern k))

end Config

end Sys2Proof
end

