-- ==== Sys2Proof/WellFormed.lean ====
section
/-! DEFINITION. Which operations a host may present: it must be one of the nineteen with an OPSEL (R85, R193), and every
character of a text must be an 8-bit code (R86, R200). Bytes, words and flags are well formed by their types. -/

namespace Sys2Proof

/-- The host can request the operation at all: it has an OPSEL (R85). -/
def Instr.requestable (i : Instr) : Bool := i.opsel.isSome

/-- Every character of the operand is an 8-bit code (R86). -/
def Instr.narrow (i : Instr) : Bool := i.text.all (fun c => decide (c < 256))

/-- A well-formed request. -/
abbrev WellFormed (i : Instr) : Prop := i.requestable = true ∧ i.narrow = true

end Sys2Proof
end

