-- ==== Sys2Proof/Decode.lean ====
section
/-! DEFINITION. From a host's request bytes to an operation, and back. A request is OPSEL (R85) in one byte followed by its
operand bytes; the spec gives OPSEL and the operands and no byte form, so the byte form is the model's (DESIGN CHOICE, log 5):
a byte operand is one byte, a word four bytes least significant first, the flags of a command one byte with each flag at the
bit the command byte gives it (R74 to R77), the cancel signal bit 0 of a byte, a text its characters, each led by a tag byte
(1: an 8-bit character; 2: a code of four bytes, least significant first) and closed by the tag 0. A first byte of 0x20 or
more is no OPSEL; it is read as one of the command bytes of R77 to R79 (DESIGN CHOICE, log 6). -/

namespace Sys2Proof

/-- Why bytes are no request. -/
inductive DecodeError where
  /-- the bytes end before the operation or its operands are complete -/
  | truncated
  /-- an OPSEL that R85 does not list -/
  | reservedOpsel
  /-- a first byte of 0x20 or more that no named command emits (R82) -/
  | notACommand
  /-- a flag byte with a bit set that is no flag -/
  | badFlags
  /-- a text tag other than 0, 1 and 2 -/
  | badText
deriving DecidableEq, Repr

/-- The answer of the decoder: an operation and the bytes after it, or a rejection by name. -/
inductive Decoded where
  | ok (i : Instr) (rest : List Byte)
  | reject (e : DecodeError)
deriving DecidableEq, Repr

/-- A flag as the low bit of a byte (R80). -/
def flagByte (b : Bool) : Byte := if b then 1 else 0

/-- Bit k of a byte. -/
def bitAt (b : Byte) (k : Nat) : Bool := b.getLsbD k

/-- Decoding a command byte by the position of its highest 1 bit, with the narrower masks: exactly the bytes the named
commands emit (R81, R90). -/
def decodeCommand (b : Byte) : Option Instr :=
  if b &&& 0x80 = 0x80 then some (.setdd (b &&& 0x7F))
  else if b &&& 0xC0 = 0x40 then some (.setcg (b &&& 0x3F))
  else if b &&& 0xE3 = 0x20 then some (.func (bitAt b 4) (bitAt b 3) (bitAt b 2))
  else if b &&& 0xF3 = 0x10 then some (.shift (bitAt b 3) (bitAt b 2))
  else if b &&& 0xF8 = 0x08 then some (.dispmode (bitAt b 2) (bitAt b 1) (bitAt b 0))
  else if b &&& 0xFC = 0x04 then some (.entry (bitAt b 1) (bitAt b 0))
  else if b = 0x02 then some .home
  else if b = 0x01 then some .clear
  else none

/-- The command whose layout a byte has: the eight layouts are told apart by the byte's highest 1 bit, with the masks of R81's
table; only 0x00 has no layout. It reads a byte that no named command emits as well (R82), for which `decodeCommand` has no
answer. -/
def layoutOf (b : Byte) : Option Instr :=
  if b &&& 0x80 = 0x80 then some (.setdd (b &&& 0x7F))
  else if b &&& 0xC0 = 0x40 then some (.setcg (b &&& 0x3F))
  else if b &&& 0xE0 = 0x20 then some (.func (bitAt b 4) (bitAt b 3) (bitAt b 2))
  else if b &&& 0xF0 = 0x10 then some (.shift (bitAt b 3) (bitAt b 2))
  else if b &&& 0xF8 = 0x08 then some (.dispmode (bitAt b 2) (bitAt b 1) (bitAt b 0))
  else if b &&& 0xFC = 0x04 then some (.entry (bitAt b 1) (bitAt b 0))
  else if b &&& 0xFE = 0x02 then some .home
  else if b &&& 0xFF = 0x01 then some .clear
  else none

/-- The text operand of a request: tagged characters up to the closing tag 0, with what follows. -/
def decodeText : List Byte → Except DecodeError (List Nat × List Byte)
  | [] => .error .truncated
  | t :: rest =>
    if t = 0 then .ok ([], rest)
    else if t = 1 then
      match rest with
      | c :: more =>
        match decodeText more with
        | .ok (cs, r) => .ok (c.toNat :: cs, r)
        | .error e => .error e
      | [] => .error .truncated
    else if t = 2 then
      match rest with
      | c0 :: c1 :: c2 :: c3 :: more =>
        match decodeText more with
        | .ok (cs, r) => .ok ((c3 ++ c2 ++ c1 ++ c0).toNat :: cs, r)
        | .error e => .error e
      | _ => .error .truncated
    else .error .badText

/-- A request with one operand byte. -/
def withByte (f : Byte → Except DecodeError Instr) : List Byte → Decoded
  | b :: rest => match f b with
    | .ok i => .ok i rest
    | .error e => .reject e
  | [] => .reject .truncated

/-- A request whose operand byte holds flags at the bits of `mask` and is 0 elsewhere. -/
def withFlags (mask : Byte) (f : Byte → Instr) (bytes : List Byte) : Decoded :=
  withByte (fun b => if b &&& ~~~mask = 0 then .ok (f b) else .error .badFlags) bytes

/-- A request with a text operand. -/
def withText (f : List Nat → Instr) (bytes : List Byte) : Decoded :=
  match decodeText bytes with
  | .ok (t, rest) => .ok (f t) rest
  | .error e => .reject e

/-- A request with a 32-bit operand. -/
def withWord (f : Word → Instr) : List Byte → Decoded
  | b0 :: b1 :: b2 :: b3 :: rest => .ok (f (b3 ++ b2 ++ b1 ++ b0)) rest
  | _ => .reject .truncated

/-- The operands of the operation that OPSEL `n` selects (R85); every other OPSEL is reserved. -/
def decodeOpsel (n : Nat) (bytes : List Byte) : Decoded :=
  match n with
  | 0x00 => .ok .rdbf bytes
  | 0x01 => .ok .waitrdy bytes
  | 0x02 => .ok .rddata bytes
  | 0x03 => withByte (fun b => .ok (.wrdata b)) bytes
  | 0x04 => withByte (fun b => .ok (.cmd b)) bytes
  | 0x05 => .ok .clear bytes
  | 0x06 => .ok .home bytes
  | 0x07 => withFlags 0x03 (fun b => .entry (bitAt b 1) (bitAt b 0)) bytes
  | 0x08 => withFlags 0x07 (fun b => .dispmode (bitAt b 2) (bitAt b 1) (bitAt b 0)) bytes
  | 0x09 => withFlags 0x0C (fun b => .shift (bitAt b 3) (bitAt b 2)) bytes
  | 0x0A => withFlags 0x1C (fun b => .func (bitAt b 4) (bitAt b 3) (bitAt b 2)) bytes
  | 0x0B => withByte (fun b => .ok (.setcg b)) bytes
  | 0x0C => withByte (fun b => .ok (.setdd b)) bytes
  | 0x0D => withText .puts bytes
  | 0x10 => .ok .clrall bytes
  | 0x11 => withText .encode bytes
  | 0x12 => withText .display bytes
  | 0x13 => withWord .rawdisp bytes
  | 0x14 => withFlags 0x01 (fun b => .demo (bitAt b 0)) bytes
  | _ => .reject .reservedOpsel

/-- The decoder of requests: total on every list of bytes. -/
def decode : List Byte → Decoded
  | [] => .reject .truncated
  | b :: rest =>
    if b.toNat < 0x20 then decodeOpsel b.toNat rest
    else match decodeCommand b with
      | some i => .ok i rest
      | none => .reject .notACommand

/-- One character of a text: tag 1 and the character, or tag 2 and the four bytes of a wider code. -/
def encodeChar (c : Nat) : List Byte :=
  if c < 256 then [1, BitVec.ofNat 8 c]
  else [2, BitVec.ofNat 8 c, BitVec.ofNat 8 (c / 256), BitVec.ofNat 8 (c / 65536), BitVec.ofNat 8 (c / 16777216)]

/-- A text operand: its characters and the closing tag. -/
def encodeText (t : List Nat) : List Byte := t.flatMap encodeChar ++ [0]

/-- A word operand, least significant byte first. -/
def encodeWord (w : Word) : List Byte :=
  [w.extractLsb' 0 8, w.extractLsb' 8 8, w.extractLsb' 16 8, w.extractLsb' 24 8]

/-- The request bytes of an operation. The three internal operations cannot be requested and have none. -/
def encode : Instr → List Byte
  | .rdbf => [0x00]
  | .waitrdy => [0x01]
  | .rddata => [0x02]
  | .wrdata b => [0x03, b]
  | .cmd b => [0x04, b]
  | .clear => [0x05]
  | .home => [0x06]
  | .entry i s => [0x07, (flagByte i <<< 1) ||| flagByte s]
  | .dispmode d c b => [0x08, (flagByte d <<< 2) ||| (flagByte c <<< 1) ||| flagByte b]
  | .shift s r => [0x09, (flagByte s <<< 3) ||| (flagByte r <<< 2)]
  | .func e t l => [0x0A, (flagByte e <<< 4) ||| (flagByte t <<< 3) ||| (flagByte l <<< 2)]
  | .setcg a => [0x0B, a]
  | .setdd a => [0x0C, a]
  | .puts t => 0x0D :: encodeText t
  | .clrall => [0x10]
  | .encode t => 0x11 :: encodeText t
  | .display t => 0x12 :: encodeText t
  | .rawdisp w => 0x13 :: encodeWord w
  | .demo c => [0x14, flagByte c]
  | .rawwr _ => []
  | .rawrd => []
  | .lookup _ => []

/-- The low `n` bytes of `w`, first byte least significant: the opcode table's numbering of bits. -/
def littleEndian : Nat → Nat → List Byte
  | 0, _ => []
  | n + 1, w => BitVec.ofNat 8 w :: littleEndian n (w / 256)

/-- An opcode-table word of `nbits` bits as request bytes, followed by zero bytes for the longest operands. -/
def tableBytes (nbits w : Nat) : List Byte :=
  littleEndian ((nbits + 7) / 8) (w % 2 ^ nbits) ++ [0, 0, 0, 0]

/-- What the decoder reads from an opcode-table word (zero operands). -/
def decodeTableWord (nbits w : Nat) : Option Instr :=
  match decode (tableBytes nbits w) with
  | .ok i _ => some i
  | .reject _ => none

end Sys2Proof
end

