-- ==== Sys2Proof/Machine/Memory.lean ====
section
/-! DEFINITION. The only memory of the block, the ROM (R50, R61): a table from the 256 character codes to patterns, kept as a
list of cells in one canonical form. A character no cell lists reads as 0x00, the spec's "encoding miss" (R110, R183); a key
mapped to 0x00 reads the same and is not listed, since nothing in the block tells the two apart (R110). -/

namespace Sys2Proof.Machine

/-- The cells of the ROM, by character code. -/
abbrev Memory := List Host.Cell

/-- What a character that no cell lists reads as (R110). -/
def Memory.unlisted : Byte := 0

/-- The pattern a character reads as. -/
def Memory.read : Memory → Nat → Byte
  | [], _ => Memory.unlisted
  | (a, v) :: m, c => if a = c then v else Memory.read m c

/-- The table without a character's cell. -/
def Memory.erase : Memory → Nat → Memory
  | [], _ => []
  | (a, v) :: m, c => if a = c then Memory.erase m c else (a, v) :: Memory.erase m c

/-- A cell put at its place by rising address. -/
def Memory.insert : Memory → Nat → Byte → Memory
  | [], c, v => [(c, v)]
  | (a, w) :: m, c, v => if c < a then (c, v) :: (a, w) :: m else (a, w) :: Memory.insert m c v

/-- The table with character `c` mapped to `v`; used only to build a table at construction, the ROM has no write port (R115).
A value that an unlisted character reads as removes the cell. -/
def Memory.write (m : Memory) (c : Nat) (v : Byte) : Memory :=
  if v = Memory.unlisted then m.erase c else (m.erase c).insert c v

/-- Every address of the list is above `lo`, below 256, rising, and no cell holds the unlisted value. -/
def Memory.wfAbove : Memory → Option Nat → Bool
  | [], _ => true
  | (a, v) :: m, lo =>
    (match lo with
      | none => true
      | some l => decide (l < a)) && decide (a < 256) && decide (v ≠ Memory.unlisted) && Memory.wfAbove m (some a)

/-- The canonical form. -/
def Memory.wf (m : Memory) : Bool := m.wfAbove none

/-- A table from pairs of character and pattern; of two pairs for one character the later one counts. -/
def Memory.ofPairs (pairs : List (Byte × Byte)) : Memory :=
  pairs.foldl (fun m p => m.write p.1.toNat p.2) []

end Sys2Proof.Machine
end

