-- ==== Sys2Proof/Machine/State.lean ====
section
/-! DEFINITION. The state of LCD-CORE as plain data: everything 10_state.md gives the two engines (INVENTORY.md, "State"),
and the inputs the environment and the host have still to give, as lists the steps read. -/

namespace Sys2Proof.Machine

/-- The pin roles (R14): eleven of PBE (R20), six of SRL (R23). -/
inductive Pin where
  /-- RegisterSelect -/
  | rs
  /-- ReadWrite -/
  | rw
  /-- Enable -/
  | e
  /-- DataBus[i] -/
  | db (i : Fin 8)
  /-- Latch -/
  | latch
  /-- Clock -/
  | clk
  /-- DataIn -/
  | din
  /-- Degree, optional -/
  | deg
  /-- Colon, optional -/
  | col
  /-- Cursor, optional -/
  | cur
deriving DecidableEq, Repr

/-- The engine that owns a pin (R18, R20, R23). -/
def Pin.engine : Pin → Engine
  | .rs => .pbe
  | .rw => .pbe
  | .e => .pbe
  | .db _ => .pbe
  | .latch => .srl
  | .clk => .srl
  | .din => .srl
  | .deg => .srl
  | .col => .srl
  | .cur => .srl

/-- The mode of a pin record (R21). -/
inductive PinMode where
  | input
  | output
  | unknown
deriving DecidableEq, Repr

/-- The level of a pin record (R21). `unknown` is a value of the record: the level after reset, of an input, and of a data
pin between steps 1 and 6 of a write cycle. In an event it is the level `?` of R100. -/
inductive PinLevel where
  | known (l : Level)
  | unknown
deriving DecidableEq, Repr

/-- The pin record `pin[p]` (R21). -/
structure PinRec where
  mode  : PinMode
  level : PinLevel
deriving DecidableEq, Repr

/-- The record of every pin after reset (R34). -/
def PinRec.fresh : PinRec := ⟨.unknown, .unknown⟩

/-- STATUS.ERR (R31, R184); the code 3 is never written. -/
inductive Err where
  | ok
  | pinFault
  | protocolTimeout
deriving DecidableEq, Repr

/-- The number the host reads in STATUS.ERR (R31). -/
def Err.code : Err → BitVec 2
  | .ok => 0
  | .pinFault => 1
  | .protocolTimeout => 2

/-- The result an operation returns, as its `End` marker shows it (R35, R85). -/
inductive OpResult where
  | none
  | byte (b : Byte)
  | word (w : Word)
deriving DecidableEq, Repr

/-- The events of the trace (R35). `out p .unknown` is the event `Out(p, ?)` of R100; `fail p` is `Fail(p)` of R105. -/
inductive Event where
  | out (p : Pin) (v : PinLevel)
  | inp (p : Pin)
  | read (p : Pin) (v : Level)
  | delay (d : Delay)
  | fail (p : Pin)
  | beginOp (op : Instr)
  | endOp (op : Instr) (status : Err) (result : OpResult)
deriving DecidableEq, Repr

/-- The lines of a transaction: the setting of RS (R122), then the raw cycle's lines with the source's numbers (R120, R121). -/
inductive CyStep where
  /-- `PinOut(RS, ·)` -/
  | rs
  /-- `WDR <- b`, in a write cycle only -/
  | wdr
  | one
  | two
  | three
  | four
  | five
  | six
  | seven
  | eight
deriving DecidableEq, Repr

/-- The step part of PH (R28): the line of its operation's pseudocode that the engine executes next, expansions written out
(R87, R167). -/
inductive PhStep where
  /-- the transaction of RDBF, RDDATA, WRDATA, CMD and the eight commands (R130, R132 to R142) -/
  | cycle (c : CyStep)
  /-- `STATUS.RESULT <- ...; return` of RDBF, RDDATA (R130, R132) and ENCODE (R161) -/
  | result
  /-- the head of the character loop of PUTS (R143) and of ENCODE (R161) -/
  | nextChar
  /-- WAITRDY: the first `RDBF-steps` (R131) -/
  | firstPoll (c : CyStep)
  /-- WAITRDY: the first poll's `STATUS.RESULT <- RDR` -/
  | firstResult
  /-- WAITRDY: `if s[7] = 0: return` after the first poll -/
  | firstTest
  /-- WAITRDY: `POLLCNT <- 0` -/
  | clearCount
  /-- WAITRDY: the head of the poll loop, `Delay(T_POLL)` -/
  | pollLoop
  /-- WAITRDY: an additional poll's `RDBF-steps` -/
  | poll (c : CyStep)
  /-- WAITRDY: an additional poll's `STATUS.RESULT <- RDR` -/
  | pollResult
  /-- WAITRDY: `POLLCNT <- POLLCNT + 1` -/
  | count
  /-- WAITRDY: `if s[7] = 0: return` in the loop -/
  | test
  /-- WAITRDY: the test of POLL_LIMIT -/
  | bound
  /-- PUTS: `WRDATA-steps(text[k])` (R143) -/
  | char (c : CyStep)
  /-- ENCODE: `ACC <- 0; DPF <- 0` (R161) -/
  | clearAcc
  /-- ENCODE: `if c = '.'` -/
  | isDot
  /-- ENCODE: `DPF <- 1` -/
  | setDpf
  /-- ENCODE: `ACC <- (ACC << 8) + zext_32(P(c))` -/
  | addPattern
  /-- ENCODE: `if DPF = 1` -/
  | isDpf
  /-- ENCODE: `ACC <- ACC + 1` -/
  | addOne
  /-- ENCODE: `DPF <- 0` -/
  | clearDpf
  /-- RAWDISP: `SR <- bits` (R160) -/
  | load
  /-- RAWDISP: the head of the bit loop, `for BITCNT in 0..31` -/
  | bitLoop
  /-- RAWDISP: `PinOut(DIN, ·)` -/
  | din
  /-- RAWDISP: `PinOut(CLK, high)` -/
  | clkHigh
  /-- RAWDISP: the delay after it -/
  | clkHighDelay
  /-- RAWDISP: `PinOut(CLK, low)` -/
  | clkLow
  /-- RAWDISP: the delay after it, the last line of the bit loop -/
  | clkLowDelay
  /-- RAWDISP: `PinOut(LATCH, high)` -/
  | latchHigh
  /-- RAWDISP: the delay after it -/
  | latchHighDelay
  /-- RAWDISP: `PinOut(LATCH, low)` -/
  | latchLow
  /-- RAWDISP: the delay after it, its last line -/
  | latchLowDelay
  /-- CLRALL: `PinOutOpt(CUR, low)` (R163) -/
  | cur
  /-- CLRALL: `PinOutOpt(COL, low)` -/
  | col
  /-- CLRALL: `PinOutOpt(DEG, low)` -/
  | deg
  /-- DEMO: `WIN <- 0` (R164) -/
  | firstWindow
  /-- DEMO: the head of the tick loop, the entry of `DISPLAY-steps` with the window at WIN -/
  | tickLoop
  /-- DEMO: `Delay(T_TICK)` -/
  | tick
  /-- DEMO: `if CANCEL is raised: return` -/
  | checkCancel
  /-- DEMO: `WIN <- (WIN + 1) mod 16` -/
  | nextWindow
deriving DecidableEq, Repr

/-- PH, the phase register: IDLE or (operation, step) (R28). -/
inductive Phase where
  | idle
  | busy (op : Instr) (at_ : PhStep)
deriving DecidableEq, Repr

/-- TXT: a sequence of characters with a position (R25, R26). The spec says no more of the position. DESIGN CHOICE (log 26): in
PUTS it is how many characters have been written, in ENCODE how many are still to be processed, since PUTS goes from the first
to the last and ENCODE from the last to the first. -/
structure Txt where
  chars : List Byte
  pos   : Nat
deriving DecidableEq, Repr

/-- What both engines have: phase, status, pins, trace, and the answers still to come from the environment. -/
structure Port where
  /-- the engine this port belongs to; it only indexes the free draws (log 1) -/
  owner   : Engine
  /-- PH (R28) -/
  ph      : Phase
  /-- STATUS.ERR (R31) -/
  err     : Err
  /-- STATUS.ERRPIN, meaningful only when ERR is PIN_FAULT (R31) -/
  errPin  : Pin
  /-- the pin records, one for every pin that is present (R21, R24) -/
  pins    : List (Pin × PinRec)
  /-- the levels gathered by the current DBSample, bit i from DB[i] (R106; log 19) -/
  sample  : Byte
  /-- what the environment will answer to the next pin calls, first the next one (R105; log 1) -/
  draws   : List Draw
  /-- how many pin calls it has answered (log 1) -/
  drawn   : Nat
  /-- codes of the order of the eight data pins in the next vector steps (R106; log 2) -/
  orders  : List Nat
  /-- how many vector steps have had their order (log 2) -/
  ordered : Nat
  /-- the event trace, oldest event first (R35) -/
  trace   : List Event
deriving DecidableEq, Repr

/-- CFG of PBE (R31), read-only after construction. -/
structure PbeCfg where
  /-- POLL_LIMIT: none, or at least 1 -/
  pollLimit : Option Nat
deriving DecidableEq, Repr

/-- CFG of SRL (R31), read-only after construction, with the constant default table (R33). -/
structure SrlCfg where
  hasDeg       : Bool
  hasCol       : Bool
  hasCur       : Bool
  hasDemo      : Bool
  /-- DEFAULT_TABLE -/
  defaultTable : Memory
  /-- CUSTOM_TABLE, absent when the default table is active -/
  customTable  : Option Memory
deriving DecidableEq, Repr

/-- The parallel bus engine (R20, R25, R31). -/
structure Pbe where
  port    : Port
  cfg     : PbeCfg
  /-- WDR -/
  wdr     : Byte
  /-- RDR -/
  rdr     : Byte
  /-- POLLCNT -/
  pollcnt : Nat
  /-- TXT -/
  txt     : Txt
  /-- STATUS.RESULT, meaningful only after RDBF or RDDATA ended OK (R31) -/
  result  : Byte
deriving DecidableEq, Repr

/-- The shift-register loader (R23, R26, R31). -/
structure Srl where
  port      : Port
  cfg       : SrlCfg
  /-- ACC -/
  acc       : Word
  /-- DPF -/
  dpf       : Bool
  /-- SR -/
  sr        : Word
  /-- BITCNT, 0 to 32 -/
  bitcnt    : Nat
  /-- WIN -/
  win       : Fin 16
  /-- TXT -/
  txt       : Txt
  /-- STATUS.RESULT, meaningful only after ENCODE ended OK (R31) -/
  result    : Word
  /-- the pattern LOOKUP last returned (R110; log 12) -/
  romOut    : Byte
  /-- CANCEL as last seen; sticky while DEMO runs (R29, R186; log 16) -/
  cancel    : Bool
  /-- what the next checks of CANCEL will find (log 16) -/
  cancels   : List Bool
  /-- how many checks have been made (log 16) -/
  cancelled : Nat
deriving DecidableEq, Repr

/-- The machine: two engines, the host's coming requests and the coming turns. -/
structure State where
  pbe      : Pbe
  srl      : Srl
  /-- the bytes of the requests the host issues next, in order (R231; log 5, log 11) -/
  requests : List Byte
  /-- how often the host has looked for requests beyond these (R231; log 11) -/
  requested : Nat
  /-- whose turns come next (log 4) -/
  turns    : List Agent
  /-- how many turns have been taken (log 4) -/
  turned   : Nat
deriving DecidableEq, Repr

/-- The reasons for which a step of the machine stops in a fault: there is none. PIN_FAULT and PROTOCOL_TIMEOUT end an
operation with a status and the engine accepts the next request (R188, R189), so they are next states. Nobody raises a
fault; safe. -/
inductive Fault where
deriving DecidableEq, Repr

/-- The reasons for which a request is refused. R200: refusal is a modelling outcome, the engine does nothing. -/
inductive Refusal where
  /-- raised by exec for an operation that has no meaning in this model yet (none); safe -/
  | notModelled (mnemonic : String)
  /-- raised by the host's turn for an OPSEL that R85 does not list (R200); safe -/
  | reservedOpsel
  /-- raised by the host's turn for bytes that are no request in the model's byte form (log 5, log 6); safe -/
  | malformedRequest
  /-- raised by DEMO when HAS_DEMO = 0 (R200); safe -/
  | demoAbsent
  /-- raised by every host operation when its engine's PH is not IDLE (R65, R200); safe -/
  | engineBusy
  /-- raised by PUTS, ENCODE and DISPLAY for a character code above 0xFF (R200, D13); safe -/
  | wideCharacter
  /-- raised by construction for a PBE without exactly eight present data pins (R20, R200); safe -/
  | badPinSet
deriving DecidableEq, Repr

/-- A port as construction leaves it (R34, R210): IDLE, OK, every pin record unknown, no event; the registers the spec leaves
unspecified as log 7 says. -/
def Port.fresh (owner : Engine) (errPin : Pin) (pins : List Pin) : Port :=
  { owner := owner, ph := .idle, err := .ok, errPin := errPin, pins := pins.map (fun p => (p, PinRec.fresh)), sample := 0,
    draws := [], drawn := 0, orders := [], ordered := 0, trace := [] }

/-- The eleven pins of PBE (R20). -/
def pbePins : List Pin :=
  [.rs, .rw, .e, .db 0, .db 1, .db 2, .db 3, .db 4, .db 5, .db 6, .db 7]

/-- The pins of SRL that are present (R23, R24). -/
def srlPins (cfg : SrlCfg) : List Pin :=
  [.latch, .clk, .din] ++ (if cfg.hasDeg then [.deg] else []) ++ (if cfg.hasCol then [.col] else []) ++
    (if cfg.hasCur then [.cur] else [])

/-- PBE as construction leaves it. DESIGN CHOICE (log 7): the unspecified registers are 0. -/
def Pbe.fresh (cfg : PbeCfg) : Pbe :=
  { port := Port.fresh .pbe .rs pbePins, cfg := cfg, wdr := 0, rdr := 0, pollcnt := 0, txt := ⟨[], 0⟩, result := 0 }

/-- SRL as construction leaves it. DESIGN CHOICE (log 7): the unspecified registers are 0. -/
def Srl.fresh (cfg : SrlCfg) : Srl :=
  { port := Port.fresh .srl .latch (srlPins cfg), cfg := cfg, acc := 0, dpf := false, sr := 0, bitcnt := 0, win := 0,
    txt := ⟨[], 0⟩, result := 0, romOut := 0, cancel := false, cancels := [], cancelled := 0 }

/-- The machine as construction leaves it with a given configuration (R210). -/
def State.fresh (pcfg : PbeCfg) (scfg : SrlCfg) : State :=
  { pbe := Pbe.fresh pcfg, srl := Srl.fresh scfg, requests := [], requested := 0, turns := [], turned := 0 }

/-- CFG of PBE as constructed (log 8). -/
def PbeCfg.reset : PbeCfg := { pollLimit := Config.pollLimit }

/-- CFG of SRL as constructed (log 8, log 9). -/
def SrlCfg.reset : SrlCfg :=
  { hasDeg := Config.hasDeg, hasCol := Config.hasCol, hasCur := Config.hasCur, hasDemo := Config.hasDemo,
    defaultTable := Memory.ofPairs Config.defaultPairs, customTable := Config.customPairs.map Memory.ofPairs }

/-- The machine right after reset, which is construction (R34, R210, R211). -/
def State.reset : State := State.fresh PbeCfg.reset SrlCfg.reset

end Sys2Proof.Machine
end

