-- ==== Sys2Proof/Machine/Ops.lean ====
section
/-! DEFINITION. The named operations every meaning is written with: the collaborator calls of 40_pin_primitives.md on a port,
runs of calls that stop at the first failing one (R105, R125, R188), the order of the eight data pins (R106), the start and
end of an operation (R28, R35, R184) and taking an exception (R188, R189). -/

namespace Sys2Proof.Machine

/-- A run of steps: done, or stopped at the failing call on pin `p`, with what was reached. -/
inductive Ran (α : Type) where
  | done (a : α)
  | failed (a : α) (p : Pin)
deriving DecidableEq, Repr

/-- One run after another; a failure ends both. -/
def Ran.andThen {α : Type} : Ran α → (α → Ran α) → Ran α
  | .done a, f => f a
  | .failed a p, _ => .failed a p

/-- A run of a port seen inside its engine. -/
def Ran.map {α β : Type} (f : α → β) : Ran α → Ran β
  | .done a => .done (f a)
  | .failed a p => .failed (f a) p

/-- The calls of R100 to R104: PinOut (with level `?` written `unknown`), PinIn, PinRead, Delay. -/
inductive Call where
  | out (p : Pin) (v : PinLevel)
  | inp (p : Pin)
  | read (p : Pin)
  | delay (d : Delay)
deriving DecidableEq, Repr

/-- The pin a call is made on; a delay cannot fail (R104). -/
def Call.pin? : Call → Option Pin
  | .out p _ => some p
  | .inp p => some p
  | .read p => some p
  | .delay _ => none

/-- Drive a pin to a known level. -/
def drive (p : Pin) (l : Level) : Call := .out p (.known l)

/-- `emit e` (R13). -/
def Port.emit (P : Port) (e : Event) : Port := { P with trace := P.trace ++ [e] }

/-- The k-th answer still to come from the environment, counted from 0: scripted while the script lasts, free after it. -/
def Port.peek (P : Port) (k : Nat) : Draw := P.draws.getD k (Config.freeDraw P.owner (P.drawn + k))

/-- The port once the environment has answered one call. -/
def Port.answered (P : Port) : Port := { P with draws := P.draws.tail, drawn := P.drawn + 1 }

/-- The record of a pin in a list of records. -/
def recOf : List (Pin × PinRec) → Pin → Option PinRec
  | [], _ => none
  | (q, r) :: rest, p => if q = p then some r else recOf rest p

/-- The records with a pin's record replaced. -/
def setRec : List (Pin × PinRec) → Pin → PinRec → List (Pin × PinRec)
  | [], p, r => [(p, r)]
  | (q, x) :: rest, p, r => if q = p then (p, r) :: rest else (q, x) :: setRec rest p r

/-- `pin[p]`; `none` for a pin that has no record (R21, R24). -/
def Port.pin (P : Port) (p : Pin) : Option PinRec := recOf P.pins p

/-- `pin[p] <- r`. -/
def Port.setPin (P : Port) (p : Pin) (r : PinRec) : Port := { P with pins := setRec P.pins p r }

/-- A byte with bit i replaced. -/
def setBit (b : Byte) (i : Fin 8) (v : Bool) : Byte :=
  if v then b ||| ((1 : Byte) <<< i.val) else b &&& ~~~((1 : Byte) <<< i.val)

/-- The level a successful read returns. -/
def drawLevel : Draw → Level
  | .ok v => v
  | .fail => .low

/-- A read level put at its data pin's bit of the sample (R52, R106). -/
def Port.sampled (P : Port) (p : Pin) (l : Level) : Port :=
  match p with
  | .db i => { P with sample := setBit P.sample i l.toBool }
  | _ => P

/-- The effect and the event of a call that succeeds (R100 to R104). -/
def Port.applied (P : Port) : Call → Port
  | .out p v => (P.answered.setPin p ⟨.output, v⟩).emit (.out p v)
  | .inp p => (P.answered.setPin p ⟨.input, .unknown⟩).emit (.inp p)
  | .read p => (P.answered.sampled p (drawLevel (P.peek 0))).emit (.read p (drawLevel (P.peek 0)))
  | .delay d => P.emit (.delay d)

/-- A call that fails changes no record and emits `Fail(p)` in its event's place (R105). -/
def Port.refusedBy (P : Port) (p : Pin) : Port := P.answered.emit (.fail p)

/-- One call: it succeeds or fails as the environment answers (R105). -/
def Port.call (P : Port) (c : Call) : Ran Port :=
  match c.pin? with
  | none => .done (P.applied c)
  | some p =>
    match P.peek 0 with
    | .ok _ => .done (P.applied c)
    | .fail => .failed (P.refusedBy p) p

/-- Calls in order, up to the first that fails (R62, R125, R188). -/
def Port.run (P : Port) : List Call → Ran Port
  | [] => .done P
  | c :: cs => (P.call c).andThen (fun Q => Q.run cs)

/-- A code read as an order: it picks one of the pins left, again and again. Every order of `left` has a code. -/
def pickOrder : Nat → Nat → List (Fin 8) → List (Fin 8)
  | 0, _, left => left
  | fuel + 1, code, left =>
    match left[code % left.length]? with
    | none => left
    | some i => i :: pickOrder fuel (code / left.length) (left.eraseIdx (code % left.length))

/-- The order of the eight data pins a code stands for (R106, D7). -/
def pinOrder (code : Nat) : List (Fin 8) := pickOrder 8 code [0, 1, 2, 3, 4, 5, 6, 7]

/-- The order of the data pins in the k-th vector step still to come. -/
def Port.peekOrder (P : Port) (k : Nat) : List (Fin 8) :=
  pinOrder (P.orders.getD k (Config.freeOrder (P.ordered + k)))

/-- The port once a vector step has its order. -/
def Port.orderTaken (P : Port) : Port := { P with orders := P.orders.tail, ordered := P.ordered + 1 }

/-- The level of bit i of a byte (R12, R52). -/
def levelOfBit (b : Byte) (i : Fin 8) : Level := .ofBool (b.getLsbD i.val)

/-- `DBOutMode()`: every data pin an output, level unspecified (R106). -/
def dbOutMode (order : List (Fin 8)) : List Call := order.map (fun i => .out (.db i) .unknown)

/-- `DBDrive(b)`: DB[i] high iff bit i of b is 1 (R52, R106). -/
def dbDrive (order : List (Fin 8)) (b : Byte) : List Call := order.map (fun i => drive (.db i) (levelOfBit b i))

/-- `DBInMode()` (R106). -/
def dbInMode (order : List (Fin 8)) : List Call := order.map (fun i => .inp (.db i))

/-- `DBSample()` (R106). -/
def dbSample (order : List (Fin 8)) : List Call := order.map (fun i => .read (.db i))

/-- `PinOutOpt(p, v)`: a call only if the pin is present (R107). -/
def pinOutOpt (present : Bool) (p : Pin) (l : Level) : List Call := if present then [drive p l] else []

/-- The first step of an operation's pseudocode (R28). The internal operations are never accepted; theirs is their first line
inside the operations that use them. -/
def firstStep : Instr → PhStep
  | .rdbf => .cycle .rs
  | .waitrdy => .firstPoll .rs
  | .rddata => .cycle .rs
  | .wrdata _ => .cycle .rs
  | .cmd _ => .cycle .rs
  | .clear => .cycle .rs
  | .home => .cycle .rs
  | .entry _ _ => .cycle .rs
  | .dispmode _ _ _ => .cycle .rs
  | .shift _ _ => .cycle .rs
  | .func _ _ _ => .cycle .rs
  | .setcg _ => .cycle .rs
  | .setdd _ => .cycle .rs
  | .puts _ => .nextChar
  | .clrall => .load
  | .encode _ => .clearAcc
  | .display _ => .clearAcc
  | .rawdisp _ => .load
  | .demo _ => .firstWindow
  | .rawwr _ => .cycle .wdr
  | .rawrd => .cycle .one
  | .lookup _ => .addPattern

/-- The acceptance of a request: PH goes from IDLE to the first step and `Begin` is emitted (R28, R35). -/
def Port.beginOp (P : Port) (i : Instr) : Port := ({ P with ph := .busy i (firstStep i) }).emit (.beginOp i)

/-- PH names another step of the operation it is in (R28). -/
def Port.stayAt (P : Port) (at_ : PhStep) : Port :=
  match P.ph with
  | .busy i _ => { P with ph := .busy i at_ }
  | .idle => P

/-- Normal completion: STATUS.ERR <- OK, `End`, PH <- IDLE (R28, R35, R184). An internal operation executed by itself (PH IDLE)
ends without a marker (R35, log 12). -/
def Port.finish (P : Port) (r : OpResult) : Port :=
  match P.ph with
  | .busy i _ => ({ P with err := .ok, ph := .idle }).emit (.endOp i .ok r)
  | .idle => P

/-- The two synchronous exceptions (R180). -/
inductive Cause where
  | pinFault (p : Pin)
  | protocolTimeout
deriving DecidableEq, Repr

/-- What a cause records in STATUS.ERR (R184). -/
def Cause.err : Cause → Err
  | .pinFault _ => .pinFault
  | .protocolTimeout => .protocolTimeout

/-- What STATUS.ERRPIN holds after a cause: the failing pin, or what it held (R181, R182). -/
def Cause.errPin : Cause → Pin → Pin
  | .pinFault p, _ => p
  | .protocolTimeout, old => old

/-- Taking an exception (R188, R189): no further call is made and no pin is touched, STATUS is written, `End` with the error
is emitted for the operation PH names, PH <- IDLE. -/
def Port.raise (P : Port) (c : Cause) : Port :=
  match P.ph with
  | .busy i _ => ({ P with err := c.err, errPin := c.errPin P.errPin, ph := .idle }).emit (.endOp i c.err .none)
  | .idle => { P with err := c.err, errPin := c.errPin P.errPin }

/-- Calls on PBE's pins. -/
def Pbe.run (e : Pbe) (cs : List Call) : Ran Pbe := (e.port.run cs).map (fun P => { e with port := P })

/-- Calls on SRL's pins. -/
def Srl.run (e : Srl) (cs : List Call) : Ran Srl := (e.port.run cs).map (fun P => { e with port := P })

/-- The end of an operation of PBE: complete with a result, or PIN_FAULT. -/
def Pbe.conclude (result : Pbe → OpResult) : Ran Pbe → Pbe
  | .done e => { e with port := e.port.finish (result e) }
  | .failed e p => { e with port := e.port.raise (.pinFault p) }

/-- The end of an operation of SRL: complete with a result, or PIN_FAULT. -/
def Srl.conclude (result : Srl → OpResult) : Ran Srl → Srl
  | .done e => { e with port := e.port.finish (result e) }
  | .failed e p => { e with port := e.port.raise (.pinFault p) }

/-- PBE with an operation accepted (R28, R35). -/
def Pbe.begun (i : Instr) (e : Pbe) : Pbe := { e with port := e.port.beginOp i }

/-- SRL with an operation accepted (R28, R35). -/
def Srl.begun (i : Instr) (e : Srl) : Srl := { e with port := e.port.beginOp i }

/-- A host operation of PBE: refused while the engine is busy (R65, R200), else begun and carried out by `body`. -/
def pbeRequest (i : Instr) (body : Pbe → Pbe) (s : State) : Host.Outcome State Fault Refusal :=
  if s.pbe.port.ph = .idle then .next { s with pbe := body (s.pbe.begun i) }
  else .refused .engineBusy

/-- A host operation of SRL, likewise. -/
def srlRequest (i : Instr) (body : Srl → Srl) (s : State) : Host.Outcome State Fault Refusal :=
  if s.srl.port.ph = .idle then .next { s with srl := body (s.srl.begun i) }
  else .refused .engineBusy

end Sys2Proof.Machine
end

