-- ==== Sys2Proof/Machine/Operands.lean ====
section
/-! DEFINITION. Operand assembly: the eight command bytes (R72 to R80), the fields of the status byte (R71), the segments of a
pattern (R83), the patterns of a display word (R84) and text operands (R86). -/

namespace Sys2Proof.Machine

/-- The command byte of CLEAR (R72). -/
def clearByte : Byte := 0x01

/-- The command byte of HOME (R73). -/
def homeByte : Byte := 0x02

/-- The command byte of ENTRY (R74). -/
def entryByte (increment shift : Bool) : Byte := 0x04 ||| (flagByte increment <<< 1) ||| flagByte shift

/-- The command byte of DISPMODE (R75). -/
def dispmodeByte (displayOn cursorOn blinkOn : Bool) : Byte :=
  0x08 ||| (flagByte displayOn <<< 2) ||| (flagByte cursorOn <<< 1) ||| flagByte blinkOn

/-- The command byte of SHIFT (R76). -/
def shiftByte (isShift moveRight : Bool) : Byte := 0x10 ||| (flagByte isShift <<< 3) ||| (flagByte moveRight <<< 2)

/-- The command byte of FUNC (R77). -/
def funcByte (eightBit twoLine largeFont : Bool) : Byte :=
  0x20 ||| (flagByte eightBit <<< 4) ||| (flagByte twoLine <<< 3) ||| (flagByte largeFont <<< 2)

/-- The command byte of SETCG: bits 7:6 of the address are dropped (R78). -/
def setcgByte (a : Byte) : Byte := 0x40 ||| (a &&& 0x3F)

/-- The command byte of SETDD: bit 7 of the address is dropped (R79). -/
def setddByte (a : Byte) : Byte := 0x80 ||| (a &&& 0x7F)

/-- BF, bit 7 of a status byte (R71). -/
def statusBF (b : Byte) : Bool := b.getLsbD 7

/-- AC, bits 6:0 of a status byte (R71). -/
def statusAC (b : Byte) : BitVec 7 := b.extractLsb' 0 7

/-- The character `.`, code 0x2E (R113). -/
def dot : Byte := 0x2E

/-- The text operand as 8-bit characters; `none` if a code is above 0xFF (R86, R200). -/
def textBytes (t : List Nat) : Option (List Byte) :=
  if t.all (fun c => decide (c < 256)) then some (t.map (BitVec.ofNat 8)) else none

/-- The eight segments of a digit, from bit 7 of a pattern down to bit 0: the string "GFABCDE." (R83). -/
inductive Segment where
  | g
  | f
  | a
  | b
  | c
  | d
  | e
  /-- the decimal point -/
  | dp
deriving DecidableEq, Repr

/-- The segments in the order of the string (R83). -/
def Segment.all : List Segment := [.g, .f, .a, .b, .c, .d, .e, .dp]

/-- The bit of a pattern that is a segment's (R83). -/
def Segment.bit : Segment → Nat
  | .g => 7
  | .f => 6
  | .a => 5
  | .b => 4
  | .c => 3
  | .d => 2
  | .e => 1
  | .dp => 0

/-- A segment's weight in a pattern (R83). -/
def Segment.weight (s : Segment) : Byte := (1 : Byte) <<< s.bit

/-- A 1 lights the segment (R83). -/
def Segment.lit (s : Segment) (pattern : Byte) : Bool := pattern.getLsbD s.bit

/-- The k-th pattern of a display word, from 0, the first character's (R84). -/
def patternOf (w : Word) (k : Nat) : Byte := w.extractLsb' (8 * k) 8

end Sys2Proof.Machine
end

