-- ==== Sys2Proof/Machine/Flags.lean ====
section
/-! DEFINITION. The flags of R29 and what they decide: BF as the poll loop tests it (R131), the bound of the loop (R131, R182),
DPF inside ENCODE (R161), and CANCEL as DEMO samples it (R186). -/

namespace Sys2Proof.Machine

/-- The last poll read BF = 0 (R131: `RDR[7]`, R89(f)). -/
def Pbe.ready (e : Pbe) : Bool := !statusBF e.rdr

/-- POLLCNT has reached POLL_LIMIT; never when the limit is none (R131, R182). -/
def Pbe.limitReached (e : Pbe) : Bool :=
  match e.cfg.pollLimit with
  | none => false
  | some n => decide (n ≤ e.pollcnt)

/-- ACC <- ACC + 1, the weight of the DP bit (R83, R161); modulo 2^32 (R89(b)). -/
def Srl.addDot (e : Srl) : Srl := { e with acc := e.acc + Segment.dp.weight.zeroExtend 32 }

/-- DPF <- 0 (R161). -/
def Srl.clearDpf (e : Srl) : Srl := { e with dpf := false }

/-- The 1 that a pending DPF adds to the accumulator, and its clearing (R161). -/
def Srl.takeDot (e : Srl) : Srl := if e.dpf then e.addDot.clearDpf else e

/-- One sample of CANCEL: raised now, or seen raised before in this DEMO (R186). -/
def Srl.sampleCancel (e : Srl) : Srl :=
  { e with cancel := e.cancel || e.cancels.headD (Config.freeCancel e.cancelled),
           cancels := e.cancels.tail, cancelled := e.cancelled + 1 }

end Sys2Proof.Machine
end

