-- ==== Sys2Proof/Machine/BusCycles.lean ====
section
/-! DEFINITION. The raw write cycle and the raw read cycle of PBE (42_bus_cycles.md), and the transactions: a RegisterSelect
setting followed by one raw cycle (R122). -/

namespace Sys2Proof.Machine

/-- A transaction: the level RS is set to (R122), and the cycle that follows, a write cycle with its byte or a read cycle. -/
inductive Transfer where
  | write (rs : Level) (b : Byte)
  | read (rs : Level)
deriving DecidableEq, Repr

/-- The level RS is set to. -/
def Transfer.rs : Transfer → Level
  | .write l _ => l
  | .read l => l

/-- A vector step: its order is taken, then its eight calls are made in it (R106; log 2). -/
def Pbe.vector (calls : List (Fin 8) → List Call) (e : Pbe) : Ran Pbe :=
  ({ e with port := e.port.orderTaken }).run (calls (e.port.peekOrder 0))

/-- RDR <- DBSample() (R121, step 6): the byte is in RDR before Enable falls. -/
def Pbe.sampleStep (e : Pbe) : Ran Pbe := (e.vector dbSample).andThen (fun e' => .done { e' with rdr := e'.port.sample })

/-- One line of a transaction (R120, R121, R122); the two cycles share their step numbers. -/
def Pbe.cycleLine (t : Transfer) (c : CyStep) (e : Pbe) : Ran Pbe :=
  match c with
  | .rs => e.run [drive .rs t.rs]
  | .wdr =>
    match t with
    | .write _ b => .done { e with wdr := b }
    | .read _ => .done e
  | .one =>
    match t with
    | .write _ _ => e.vector dbOutMode
    | .read _ => e.vector dbInMode
  | .two =>
    match t with
    | .write _ _ => e.run [drive .rw .low]
    | .read _ => e.run [drive .rw .high]
  | .three => e.run [.delay .tAS]
  | .four => e.run [drive .e .high]
  | .five => e.run [.delay .tDS]
  | .six =>
    match t with
    | .write _ _ => e.vector (fun o => dbDrive o e.wdr)
    | .read _ => e.sampleStep
  | .seven => e.run [drive .e .low]
  | .eight => e.run [.delay .tEND]

/-- Lines in order, up to the first that fails (R125). -/
def Pbe.cycleLines (t : Transfer) : List CyStep → Pbe → Ran Pbe
  | [], e => .done e
  | c :: cs, e => (e.cycleLine t c).andThen (Pbe.cycleLines t cs)

/-- The eight numbered steps, in the source's order (R120, R121). -/
def rawSteps : List CyStep := [.one, .two, .three, .four, .five, .six, .seven, .eight]

/-- All lines of a transaction. -/
def Transfer.lines : Transfer → List CyStep
  | .write _ _ => .rs :: .wdr :: rawSteps
  | .read _ => .rs :: rawSteps

/-- RAWWR(b) (R120): WDR <- b, then the eight steps. RS is the caller's (R122): these lines do not drive it. -/
def Pbe.rawWrite (b : Byte) (e : Pbe) : Ran Pbe := Pbe.cycleLines (.write .low b) (.wdr :: rawSteps) e

/-- RAWRD (R121): the eight steps; RDR is written in step 6. A read cycle that faults returns no byte (R125). -/
def Pbe.rawRead (e : Pbe) : Ran Pbe := Pbe.cycleLines (.read .low) rawSteps e

/-- RS set to `rs`, then RAWWR(b): MemWrite(INSTR) with RS low (R134), MemWrite(DATA) with RS high (R133). -/
def Pbe.writeSteps (rs : Level) (b : Byte) (e : Pbe) : Ran Pbe :=
  Pbe.cycleLines (.write rs b) (Transfer.lines (.write rs b)) e

/-- STATUS.RESULT <- RDR (R130, R132). -/
def Pbe.keepResult (e : Pbe) : Pbe := { e with result := e.rdr }

/-- RS set to `rs`, then RAWRD, then STATUS.RESULT <- RDR: MemRead(STATUS) with RS low (R130), MemRead(DATA) with RS high (R132). -/
def Pbe.readSteps (rs : Level) (e : Pbe) : Ran Pbe :=
  (Pbe.cycleLines (.read rs) (Transfer.lines (.read rs)) e).andThen (fun e' => .done e'.keepResult)

/-- What an internal cycle executed by itself leaves: no marker; a pin fault is taken as inside any operation (log 12). -/
def Pbe.internal : Ran Pbe → Pbe
  | .done e => e
  | .failed e p => { e with port := e.port.raise (.pinFault p) }

/-- RAWWR (R120), the internal operation by itself (log 12). -/
def execRawwr (b : Byte) (s : State) : Host.Outcome State Fault Refusal :=
  .next { s with pbe := Pbe.internal (s.pbe.rawWrite b) }

/-- RAWRD (R121), the internal operation by itself (log 12). -/
def execRawrd (s : State) : Host.Outcome State Fault Refusal :=
  .next { s with pbe := Pbe.internal s.pbe.rawRead }

end Sys2Proof.Machine
end

