-- ==== Sys2Proof/Machine/Parallel.lean ====
section
/-! DEFINITION. The operations of PBE (43_parallel_ops.md): status and data transactions, the commands, the poll loop of
WAITRDY and the character loop of PUTS. -/

namespace Sys2Proof.Machine

/-- RDBF (R130): RS low, read cycle; the byte is returned, busy flag in bit 7. -/
def execRdbf (s : State) : Host.Outcome State Fault Refusal :=
  pbeRequest .rdbf (fun e => Pbe.conclude (fun e' => .byte e'.result) (e.readSteps .low)) s

/-- RDDATA (R132): RS high, read cycle; the byte is returned. -/
def execRddata (s : State) : Host.Outcome State Fault Refusal :=
  pbeRequest .rddata (fun e => Pbe.conclude (fun e' => .byte e'.result) (e.readSteps .high)) s

/-- WRDATA(b) (R133): RS high, write cycle. -/
def execWrdata (b : Byte) (s : State) : Host.Outcome State Fault Refusal :=
  pbeRequest (.wrdata b) (fun e => Pbe.conclude (fun _ => .none) (e.writeSteps .high b)) s

/-- CMD(b) as the operation `i` (R134, R87): RS low, write cycle with any byte b, one `Begin`/`End` pair, that of `i`. -/
def commandRequest (i : Instr) (b : Byte) (s : State) : Host.Outcome State Fault Refusal :=
  pbeRequest i (fun e => Pbe.conclude (fun _ => .none) (e.writeSteps .low b)) s

/-- CMD(b) (R134). -/
def execCmd (b : Byte) (s : State) : Host.Outcome State Fault Refusal := commandRequest (.cmd b) b s

/-- CLEAR (R135). -/
def execClear (s : State) : Host.Outcome State Fault Refusal := commandRequest .clear clearByte s

/-- HOME (R136). -/
def execHome (s : State) : Host.Outcome State Fault Refusal := commandRequest .home homeByte s

/-- ENTRY(increment, shift) (R137). -/
def execEntry (increment shift : Bool) (s : State) : Host.Outcome State Fault Refusal :=
  commandRequest (.entry increment shift) (entryByte increment shift) s

/-- DISPMODE(displayOn, cursorOn, blinkOn) (R138). -/
def execDispmode (displayOn cursorOn blinkOn : Bool) (s : State) : Host.Outcome State Fault Refusal :=
  commandRequest (.dispmode displayOn cursorOn blinkOn) (dispmodeByte displayOn cursorOn blinkOn) s

/-- SHIFT(isShift, moveRight) (R139). -/
def execShift (isShift moveRight : Bool) (s : State) : Host.Outcome State Fault Refusal :=
  commandRequest (.shift isShift moveRight) (shiftByte isShift moveRight) s

/-- FUNC(eightBit, twoLine, largeFont) (R140); eightBit = 0 is sent if asked (R218). -/
def execFunc (eightBit twoLine largeFont : Bool) (s : State) : Host.Outcome State Fault Refusal :=
  commandRequest (.func eightBit twoLine largeFont) (funcByte eightBit twoLine largeFont) s

/-- SETCG(a) (R141). -/
def execSetcg (a : Byte) (s : State) : Host.Outcome State Fault Refusal := commandRequest (.setcg a) (setcgByte a) s

/-- SETDD(a) (R142). -/
def execSetdd (a : Byte) (s : State) : Host.Outcome State Fault Refusal := commandRequest (.setdd a) (setddByte a) s

/-- Where a part of WAITRDY or PUTS has come to. -/
inductive Waited where
  /-- it has ended normally -/
  | ready (e : Pbe)
  /-- the last poll read busy; the engine stands at the head of the poll loop (R131) -/
  | polling (e : Pbe)
  /-- the bound of the loop is reached (R131, R182) -/
  | timeout (e : Pbe)
  /-- a pin call failed -/
  | failed (e : Pbe) (p : Pin)
deriving DecidableEq, Repr

/-- The first poll of WAITRDY: RDBF's steps; if BF is set, POLLCNT <- 0 and the loop is entered (R131). -/
def Pbe.firstPoll (e : Pbe) : Waited :=
  match e.readSteps .low with
  | .failed e' p => .failed e' p
  | .done e' => if e'.ready then .ready e' else .polling { e' with pollcnt := 0 }

/-- The delay before an additional poll, and the poll (R131). -/
def Pbe.pollSteps (e : Pbe) : Ran Pbe := (e.run [.delay .tPOLL]).andThen (Pbe.readSteps .low)

/-- One turn of the poll loop: the delay, RDBF's steps, POLLCNT <- POLLCNT + 1, readiness tested before the bound (R131). -/
def Pbe.nextPoll (e : Pbe) : Waited :=
  match e.pollSteps with
  | .failed e' p => .failed e' p
  | .done e' =>
    let e1 := { e' with pollcnt := e'.pollcnt + 1 }
    if e1.ready then .ready e1 else if e1.limitReached then .timeout e1 else .polling e1

/-- Taking PROTOCOL_TIMEOUT (R182, R189): STATUS.ERR says so and nothing else is recorded; what STATUS.RESULT holds is free, since
"the last status byte is not kept" (log 13). -/
def Pbe.takeTimeout (e : Pbe) : Pbe :=
  { e with result := Config.freeResult e.port.drawn, port := e.port.raise .protocolTimeout }

/-- Where the wait leaves the operation: ended, waiting at the loop's head with PH saying so, or ended by an exception
(R131, R188, R189). -/
def Pbe.settle : Waited → Pbe
  | .ready e => { e with port := e.port.finish .none }
  | .polling e => { e with port := e.port.stayAt .pollLoop }
  | .timeout e => e.takeTimeout
  | .failed e p => { e with port := e.port.raise (.pinFault p) }

/-- WAITRDY (R131), up to its end or to the head of its poll loop (log 3). -/
def execWaitrdy (s : State) : Host.Outcome State Fault Refusal :=
  pbeRequest .waitrdy (fun e => Pbe.settle e.firstPoll) s

/-- The character of PUTS at TXT's position is written: the position moves past it (R143). That the position counts the
characters written is the model's choice (log 26). -/
def Pbe.passChar (e : Pbe) : Pbe := { e with txt := { e.txt with pos := e.txt.pos + 1 } }

/-- WRDATA's steps for one character of PUTS, and the position moved past it (R143). -/
def Pbe.putChar (c : Byte) (e : Pbe) : Ran Pbe := (e.writeSteps .high c).andThen (fun e' => .done e'.passChar)

/-- What follows a wait, if the wait ends normally. -/
def Waited.andThen : Waited → (Pbe → Waited) → Waited
  | .ready e, f => f e
  | .polling e, _ => .polling e
  | .timeout e, _ => .timeout e
  | .failed e p, _ => .failed e p

/-- One character of PUTS written, then the rest (R143). -/
def Pbe.putThen (c : Byte) (rest : Pbe → Waited) (e : Pbe) : Waited :=
  match e.putChar c with
  | .failed e' p => .failed e' p
  | .done e' => rest e'

/-- PUTS from a character on: for each, WAITRDY's steps, then WRDATA's (R143). It leaves at the first character for which the
module is busy, with TXT's position at that character. -/
def Pbe.putsFrom : List Byte → Pbe → Waited
  | [], e => .ready e
  | c :: cs, e => e.firstPoll.andThen (Pbe.putThen c (Pbe.putsFrom cs))

/-- What PUTS has still to do once the module is ready for the character at TXT's position (R143). -/
def Pbe.putsReady (e : Pbe) : Waited :=
  match e.txt.chars.drop e.txt.pos with
  | [] => .ready e
  | c :: cs => Pbe.putThen c (Pbe.putsFrom cs) e

/-- PUTS taken up again at the poll loop of the character at TXT's position (R131, R143). -/
def Pbe.putsResume (e : Pbe) : Waited := e.nextPoll.andThen Pbe.putsReady

/-- PUTS(text) (R143), up to its end or to the head of a poll loop (log 3); a code above 0xFF is refused (R200). -/
def execPuts (text : List Nat) (s : State) : Host.Outcome State Fault Refusal :=
  match textBytes text with
  | none => .refused .wideCharacter
  | some cs => pbeRequest (.puts text) (fun e => Pbe.settle (Pbe.putsFrom cs { e with txt := ⟨cs, 0⟩ })) s

/-- One whole turn of the poll loop at whose head PBE stands; none if it stands elsewhere. -/
def Pbe.loopTurn (e : Pbe) : Option Pbe :=
  match e.port.ph with
  | .busy .waitrdy .pollLoop => some (Pbe.settle e.nextPoll)
  | .busy (.puts _) .pollLoop => some (Pbe.settle e.putsResume)
  | _ => none

end Sys2Proof.Machine
end

