-- ==== Sys2Proof/Machine/Rom.lean ====
section
/-! DEFINITION. The character-to-segment ROM (41_char_rom.md): the active table and LOOKUP. -/

namespace Sys2Proof.Machine

/-- CFG.TABLE: the custom table when there is one, whole, else the default table (R112). -/
def SrlCfg.table (cfg : SrlCfg) : Memory := cfg.customTable.getD cfg.defaultTable

/-- LOOKUP(c): the pattern of a key, 0x00 for a character that is no key (R110). -/
def SrlCfg.pattern (cfg : SrlCfg) (c : Byte) : Byte := cfg.table.read c.toNat

/-- LOOKUP(c) as a step of SRL: the pattern stands on the ROM's output (log 12); no pin, no event (R110). -/
def Srl.lookup (e : Srl) (c : Byte) : Srl := { e with romOut := e.cfg.pattern c }

/-- LOOKUP (R110), the internal operation by itself (log 12). -/
def execLookup (c : Byte) (s : State) : Host.Outcome State Fault Refusal :=
  .next { s with srl := s.srl.lookup c }

end Sys2Proof.Machine
end

