-- ==== Sys2Proof/Machine/Segments.lean ====
section
/-! DEFINITION. The operations of SRL (44_shift_loader.md): the serial load RAWDISP, ENCODE, DISPLAY, CLRALL and DEMO. -/

namespace Sys2Proof.Machine

/-- The five steps that send one bit: DIN, then a pulse of CLK with T_SR after each edge (R160). -/
def bitCalls (b : Bool) : List Call :=
  [drive .din (.ofBool b), drive .clk .high, .delay .tSR, drive .clk .low, .delay .tSR]

/-- The latch pulse (R160). -/
def latchCalls : List Call := [drive .latch .high, .delay .tSR, drive .latch .low, .delay .tSR]

/-- The bit loop of RAWDISP with `n` bits still to send: BITCNT counts from N_SHIFT - n to N_SHIFT (R160, R26). -/
def Srl.shiftBits : Nat → Srl → Ran Srl
  | 0, e => .done { e with bitcnt := Config.nShift }
  | n + 1, e =>
    (({ e with bitcnt := Config.nShift - (n + 1) }).run (bitCalls (e.sr.getLsbD (Config.nShift - (n + 1))))).andThen
      (Srl.shiftBits n)

/-- RAWDISP's steps: SR <- bits, 32 bits least significant first, the latch pulse (R160). -/
def Srl.rawdispSteps (w : Word) (e : Srl) : Ran Srl :=
  (Srl.shiftBits Config.nShift { e with sr := w }).andThen (fun e' => e'.run latchCalls)

/-- RAWDISP(bits) (R160). -/
def execRawdisp (w : Word) (s : State) : Host.Outcome State Fault Refusal :=
  srlRequest (.rawdisp w) (fun e => Srl.conclude (fun _ => .none) (e.rawdispSteps w)) s

/-- ACC <- (ACC << 8) + the pattern on the ROM's output, modulo 2^32 (R161, R89(b)). -/
def Srl.addPattern (e : Srl) : Srl := { e with acc := (e.acc <<< 8) + e.romOut.zeroExtend 32 }

/-- The character loop of ENCODE takes its next character: TXT's position goes one down. DESIGN CHOICE (log 26): the spec names a
position and does not say what it counts; here it counts the characters still to be processed, from the text's length to 0. -/
def Srl.takeChar (e : Srl) : Srl := { e with txt := { e.txt with pos := e.txt.pos - 1 } }

/-- DPF <- 1 (R161). -/
def Srl.setDpf (e : Srl) : Srl := { e with dpf := true }

/-- One character of ENCODE: `.` sets DPF; any other is looked up, added, and takes a pending DPF (R161, R113). TXT's position is
counted down with it, which is the model's choice (log 26). -/
def Srl.encodeChar (e : Srl) (c : Byte) : Srl :=
  if c = dot then e.takeChar.setDpf else (e.takeChar.lookup c).addPattern.takeDot

/-- TXT <- the text, none of it processed (R26; log 26). -/
def Srl.holdText (cs : List Byte) (e : Srl) : Srl := { e with txt := ⟨cs, cs.length⟩ }

/-- ACC <- 0; DPF <- 0 (R161). -/
def Srl.clearAcc (e : Srl) : Srl := { e with acc := 0, dpf := false }

/-- STATUS.RESULT <- ACC (R161). -/
def Srl.keepResult (e : Srl) : Srl := { e with result := e.acc }

/-- ENCODE's steps: ACC and DPF cleared, the characters from the last to the first, STATUS.RESULT <- ACC (R161). -/
def Srl.encodeSteps (cs : List Byte) (e : Srl) : Srl :=
  (cs.reverse.foldl Srl.encodeChar (e.holdText cs).clearAcc).keepResult

/-- ENCODE(text) (R161); it makes no pin call and cannot fail. A code above 0xFF is refused (R200). -/
def execEncode (text : List Nat) (s : State) : Host.Outcome State Fault Refusal :=
  match textBytes text with
  | none => .refused .wideCharacter
  | some cs =>
    srlRequest (.encode text) (fun e => Srl.conclude (fun e' => .word e'.result) (.done (e.encodeSteps cs))) s

/-- DISPLAY's steps: ENCODE's, then RAWDISP's with the word (R162). -/
def Srl.displaySteps (cs : List Byte) (e : Srl) : Ran Srl :=
  (e.encodeSteps cs).rawdispSteps (e.encodeSteps cs).acc

/-- DISPLAY(text) (R162); a code above 0xFF is refused (R200). -/
def execDisplay (text : List Nat) (s : State) : Host.Outcome State Fault Refusal :=
  match textBytes text with
  | none => .refused .wideCharacter
  | some cs => srlRequest (.display text) (fun e => Srl.conclude (fun _ => .none) (e.displaySteps cs)) s

/-- The indicators driven low, Cursor, Colon, Degree, absent ones skipped (R163, R107). -/
def clearIndicators (cfg : SrlCfg) : List Call :=
  pinOutOpt cfg.hasCur .cur .low ++ pinOutOpt cfg.hasCol .col .low ++ pinOutOpt cfg.hasDeg .deg .low

/-- CLRALL's steps: RAWDISP(0), then the indicators (R163). -/
def Srl.clearAllSteps (e : Srl) : Ran Srl :=
  (e.rawdispSteps 0).andThen (fun e' => e'.run (clearIndicators e'.cfg))

/-- CLRALL (R163). -/
def execClrall (s : State) : Host.Outcome State Fault Refusal :=
  srlRequest .clrall (fun e => Srl.conclude (fun _ => .none) e.clearAllSteps) s

/-- The four characters of the demo window that starts at index `k` (R164, R8). -/
def demoWindow (k : Fin 16) : List Byte := (Config.demoSeq.drop k.val).take Config.demoWin

/-- Where one turn of DEMO's loop has come to. -/
inductive Ticked where
  /-- CANCEL was found raised: DEMO ends -/
  | ended (e : Srl)
  /-- not raised: the next window -/
  | ticking (e : Srl)
  /-- a pin call failed -/
  | failed (e : Srl) (p : Pin)
deriving DecidableEq, Repr

/-- One turn of DEMO's loop up to the check: the window displayed, then the tick (R164). -/
def Srl.tickSteps (e : Srl) : Ran Srl :=
  (e.displaySteps (demoWindow e.win)).andThen (fun e' => e'.run [.delay .tTICK])

/-- One turn of DEMO's loop: display, T_TICK, the check of CANCEL, WIN <- (WIN + 1) mod 16 (R164). -/
def Srl.tick (e : Srl) : Ticked :=
  match e.tickSteps with
  | .failed e' p => .failed e' p
  | .done e' =>
    let e1 := e'.sampleCancel
    if e1.cancel then .ended e1 else .ticking { e1 with win := e1.win + 1 }

/-- Where a turn of the loop leaves DEMO: ended OK (R186), at the loop's head, or ended by a pin fault. -/
def Srl.settle : Ticked → Srl
  | .ended e => { e with port := e.port.finish .none }
  | .ticking e => { e with port := e.port.stayAt .tickLoop }
  | .failed e p => { e with port := e.port.raise (.pinFault p) }

/-- DEMO(cancel) (R164): WIN <- 0 and the first turn of its loop (log 3); refused without HAS_DEMO (R200). -/
def execDemo (cancel : Bool) (s : State) : Host.Outcome State Fault Refusal :=
  if s.srl.cfg.hasDemo then
    srlRequest (.demo cancel) (fun e => Srl.settle (Srl.tick { e with win := 0, cancel := cancel })) s
  else .refused .demoAbsent

/-- One whole turn of DEMO's loop at whose head SRL stands; none if it stands elsewhere. -/
def Srl.loopTurn (e : Srl) : Option Srl :=
  match e.port.ph with
  | .busy (.demo _) .tickLoop => some (Srl.settle e.tick)
  | _ => none

end Sys2Proof.Machine
end

