-- ==== Sys2Proof/Machine/Dispatch.lean ====
section
/-! DEFINITION. One arm per operation: the call of its meaning. -/

namespace Sys2Proof.Machine

/-- What executing an operation does to the machine. -/
def exec (i : Instr) (s : State) : Host.Outcome State Fault Refusal :=
  match i with
  | .rdbf => Sys2Proof.Machine.execRdbf s
  | .waitrdy => Sys2Proof.Machine.execWaitrdy s
  | .rddata => Sys2Proof.Machine.execRddata s
  | .wrdata b => Sys2Proof.Machine.execWrdata b s
  | .cmd b => Sys2Proof.Machine.execCmd b s
  | .clear => Sys2Proof.Machine.execClear s
  | .home => Sys2Proof.Machine.execHome s
  | .entry increment shift => Sys2Proof.Machine.execEntry increment shift s
  | .dispmode displayOn cursorOn blinkOn => Sys2Proof.Machine.execDispmode displayOn cursorOn blinkOn s
  | .shift isShift moveRight => Sys2Proof.Machine.execShift isShift moveRight s
  | .func eightBit twoLine largeFont => Sys2Proof.Machine.execFunc eightBit twoLine largeFont s
  | .setcg a => Sys2Proof.Machine.execSetcg a s
  | .setdd a => Sys2Proof.Machine.execSetdd a s
  | .puts text => Sys2Proof.Machine.execPuts text s
  | .clrall => Sys2Proof.Machine.execClrall s
  | .encode text => Sys2Proof.Machine.execEncode text s
  | .display text => Sys2Proof.Machine.execDisplay text s
  | .rawdisp bits => Sys2Proof.Machine.execRawdisp bits s
  | .demo cancel => Sys2Proof.Machine.execDemo cancel s
  | .rawwr b => Sys2Proof.Machine.execRawwr b s
  | .rawrd => Sys2Proof.Machine.execRawrd s
  | .lookup c => Sys2Proof.Machine.execLookup c s

end Sys2Proof.Machine
end

