-- ==== Sys2Proof/Machine/Lines.lean ====
section
/-! DEFINITION. The pseudocode line by line, as PH moves through it (R28, R167): what the line that PH names does to its engine
and where PH goes next. The lines are the operations of Ops.lean, Flags.lean, BusCycles.lean, Parallel.lean and Segments.lean
that the meanings are written with; expansions (R87) are written out as their lines. -/

namespace Sys2Proof.Machine

/-- What a line of pseudocode leads to: another line, the return of the operation with its result, or an exception. -/
inductive Lined (α : Type) where
  | at_ (a : PhStep) (x : α)
  | ret (r : OpResult) (x : α)
  | raise (c : Cause) (x : α)
deriving DecidableEq, Repr

/-- What follows a line that makes pin calls: the next line, or PIN_FAULT (R125, R188). -/
def Ran.goto {α : Type} (next : α → Lined α) : Ran α → Lined α
  | .done x => next x
  | .failed x p => .raise (.pinFault p) x

/-! ### PBE -/

/-- The transaction an operation consists of, with its command byte (R87, R130, R132 to R142). -/
def transferOf : Instr → Option Transfer
  | .rdbf => some (.read .low)
  | .rddata => some (.read .high)
  | .wrdata b => some (.write .high b)
  | .cmd b => some (.write .low b)
  | .clear => some (.write .low clearByte)
  | .home => some (.write .low homeByte)
  | .entry increment shift => some (.write .low (entryByte increment shift))
  | .dispmode displayOn cursorOn blinkOn => some (.write .low (dispmodeByte displayOn cursorOn blinkOn))
  | .shift isShift moveRight => some (.write .low (shiftByte isShift moveRight))
  | .func eightBit twoLine largeFont => some (.write .low (funcByte eightBit twoLine largeFont))
  | .setcg a => some (.write .low (setcgByte a))
  | .setdd a => some (.write .low (setddByte a))
  | .waitrdy => none
  | .puts _ => none
  | .clrall => none
  | .encode _ => none
  | .display _ => none
  | .rawdisp _ => none
  | .demo _ => none
  | .rawwr _ => none
  | .rawrd => none
  | .lookup _ => none

/-- The line of a transaction after a line; none after the last (R120, R121). -/
def Transfer.next (t : Transfer) : CyStep → Option CyStep
  | .rs =>
    match t with
    | .write _ _ => some .wdr
    | .read _ => some .one
  | .wdr => some .one
  | .one => some .two
  | .two => some .three
  | .three => some .four
  | .four => some .five
  | .five => some .six
  | .six => some .seven
  | .seven => some .eight
  | .eight => none

/-- A line of a transaction whose lines stand at `pos`; after its last line, `last`. -/
def Pbe.transferLine (t : Transfer) (pos : CyStep → PhStep) (last : Pbe → Lined Pbe) (c : CyStep) (e : Pbe) : Lined Pbe :=
  (e.cycleLine t c).goto
    (match t.next c with
      | some c' => .at_ (pos c')
      | none => last)

/-- The end of a transaction that is an operation: a write returns, a read keeps its result first. -/
def Transfer.last : Transfer → Pbe → Lined Pbe
  | .write _ _ => .ret .none
  | .read _ => .at_ .result

/-- WAITRDY's steps have ended: WAITRDY returns, PUTS writes its character (R131, R143). -/
def Pbe.waited (i : Instr) (e : Pbe) : Lined Pbe :=
  match i with
  | .puts _ => .at_ (.char .rs) e
  | _ => .ret .none e

/-- The line at `a` of the pseudocode of the PBE operation `i`. A position that `i` does not have leads back to itself; no
state of a run stands at one (log 20). -/
def Pbe.line (i : Instr) (a : PhStep) (e : Pbe) : Lined Pbe :=
  match a with
  | .cycle c =>
    match transferOf i with
    | some t => e.transferLine t .cycle t.last c
    | none => .at_ a e
  | .result => .ret (.byte e.keepResult.result) e.keepResult
  | .nextChar =>
    match e.txt.chars[e.txt.pos]? with
    | some _ => .at_ (.firstPoll .rs) e
    | none => .ret .none e
  | .firstPoll c => e.transferLine (.read .low) .firstPoll (.at_ .firstResult) c
  | .firstResult => .at_ .firstTest e.keepResult
  | .firstTest => if e.ready then e.waited i else .at_ .clearCount e
  | .clearCount => .at_ .pollLoop { e with pollcnt := 0 }
  | .pollLoop => (e.run [.delay .tPOLL]).goto (.at_ (.poll .rs))
  | .poll c => e.transferLine (.read .low) .poll (.at_ .pollResult) c
  | .pollResult => .at_ .count e.keepResult
  | .count => .at_ .test { e with pollcnt := e.pollcnt + 1 }
  | .test => if e.ready then e.waited i else .at_ .bound e
  | .bound => if e.limitReached then .raise .protocolTimeout e else .at_ .pollLoop e
  | .char c =>
    match e.txt.chars[e.txt.pos]? with
    | some b => e.transferLine (.write .high b) .char (fun e' => .at_ .nextChar e'.passChar) c
    | none => .at_ a e
  | .clearAcc | .isDot | .setDpf | .addPattern | .isDpf | .addOne | .clearDpf | .load | .bitLoop | .din | .clkHigh
  | .clkHighDelay | .clkLow | .clkLowDelay | .latchHigh | .latchHighDelay | .latchLow | .latchLowDelay | .cur | .col | .deg
  | .firstWindow | .tickLoop | .tick | .checkCancel | .nextWindow => .at_ a e

/-- PBE after a line: PH at the next line, or the operation ended (R28, R184, R188, R189). -/
def Pbe.afterLine : Lined Pbe → Pbe
  | .at_ a e => { e with port := e.port.stayAt a }
  | .ret r e => { e with port := e.port.finish r }
  | .raise (.pinFault p) e => { e with port := e.port.raise (.pinFault p) }
  | .raise .protocolTimeout e => e.takeTimeout

/-- PBE executes the line PH names; an idle engine does nothing. -/
def Pbe.lineOn (e : Pbe) : Pbe :=
  match e.port.ph with
  | .idle => e
  | .busy i a => Pbe.afterLine (e.line i a)

/-- PBE goes on: a whole turn of the poll loop from its head, else one line. -/
def Pbe.goOn (e : Pbe) : Pbe := e.loopTurn.getD e.lineOn

/-- The operand PBE holds when it accepts an operation: TXT of PUTS (R25); the others' operands go to WDR in their cycle. -/
def Pbe.entered (i : Instr) (e : Pbe) : Pbe :=
  match i with
  | .puts t => { e with txt := ⟨(textBytes t).getD [], 0⟩ }
  | _ => e

/-! ### SRL -/

/-- The character of ENCODE that is being processed, the one at TXT's position (log 26). -/
def Srl.thisChar (e : Srl) : Byte := e.txt.chars.getD e.txt.pos 0

/-- The operand of an operation's RAWDISP-steps: RAWDISP's own, 0 in CLRALL, the accumulator in DISPLAY and DEMO (R160, R162 to
R164). -/
def Srl.loadWord (i : Instr) (e : Srl) : Word :=
  match i with
  | .rawdisp w => w
  | .clrall => 0
  | _ => e.acc

/-- The end of ENCODE's steps: ENCODE returns its result, DISPLAY and DEMO send it (R161, R162). -/
def Srl.encoded (i : Instr) (e : Srl) : Lined Srl :=
  match i with
  | .encode _ => .ret (.word e.result) e
  | _ => .at_ .load e

/-- The end of RAWDISP's steps: CLRALL goes on to the indicators, DEMO to its tick, RAWDISP and DISPLAY return (R160 to R164). -/
def Srl.loaded (i : Instr) (e : Srl) : Lined Srl :=
  match i with
  | .clrall => .at_ .cur e
  | .demo _ => .at_ .tick e
  | _ => .ret .none e

/-- The line at `a` of the pseudocode of the SRL operation `i`. A position that `i` does not have leads back to itself; no
state of a run stands at one (log 20). -/
def Srl.line (i : Instr) (a : PhStep) (e : Srl) : Lined Srl :=
  match a with
  | .clearAcc => .at_ .nextChar e.clearAcc
  | .nextChar => if e.txt.pos = 0 then .at_ .result e else .at_ .isDot e.takeChar
  | .isDot => if e.thisChar = dot then .at_ .setDpf e else .at_ .addPattern e
  | .setDpf => .at_ .nextChar e.setDpf
  | .addPattern => .at_ .isDpf (e.lookup e.thisChar).addPattern
  | .isDpf => if e.dpf then .at_ .addOne e else .at_ .nextChar e
  | .addOne => .at_ .clearDpf e.addDot
  | .clearDpf => .at_ .nextChar e.clearDpf
  | .result => e.keepResult.encoded i
  | .load => .at_ .bitLoop { e with sr := e.loadWord i, bitcnt := 0 }
  | .bitLoop => if e.bitcnt < Config.nShift then .at_ .din e else .at_ .latchHigh e
  | .din => (e.run [drive .din (.ofBool (e.sr.getLsbD e.bitcnt))]).goto (.at_ .clkHigh)
  | .clkHigh => (e.run [drive .clk .high]).goto (.at_ .clkHighDelay)
  | .clkHighDelay => (e.run [.delay .tSR]).goto (.at_ .clkLow)
  | .clkLow => (e.run [drive .clk .low]).goto (.at_ .clkLowDelay)
  | .clkLowDelay => (e.run [.delay .tSR]).goto (fun e' => .at_ .bitLoop { e' with bitcnt := e'.bitcnt + 1 })
  | .latchHigh => (e.run [drive .latch .high]).goto (.at_ .latchHighDelay)
  | .latchHighDelay => (e.run [.delay .tSR]).goto (.at_ .latchLow)
  | .latchLow => (e.run [drive .latch .low]).goto (.at_ .latchLowDelay)
  | .latchLowDelay => (e.run [.delay .tSR]).goto (Srl.loaded i)
  | .cur => (e.run (pinOutOpt e.cfg.hasCur .cur .low)).goto (.at_ .col)
  | .col => (e.run (pinOutOpt e.cfg.hasCol .col .low)).goto (.at_ .deg)
  | .deg => (e.run (pinOutOpt e.cfg.hasDeg .deg .low)).goto (.ret .none)
  | .firstWindow => .at_ .tickLoop { e with win := 0 }
  | .tickLoop => .at_ .clearAcc (e.holdText (demoWindow e.win))
  | .tick => (e.run [.delay .tTICK]).goto (.at_ .checkCancel)
  | .checkCancel => if e.sampleCancel.cancel then .ret .none e.sampleCancel else .at_ .nextWindow e.sampleCancel
  | .nextWindow => .at_ .tickLoop { e with win := e.win + 1 }
  | .cycle _ | .firstPoll _ | .firstResult | .firstTest | .clearCount | .pollLoop | .poll _ | .pollResult | .count | .test
  | .bound | .char _ => .at_ a e

/-- SRL after a line: PH at the next line, or the operation ended (R28, R184, R188). SRL has no protocol timeout (R182). -/
def Srl.afterLine : Lined Srl → Srl
  | .at_ a e => { e with port := e.port.stayAt a }
  | .ret r e => { e with port := e.port.finish r }
  | .raise c e => { e with port := e.port.raise c }

/-- SRL executes the line PH names; an idle engine does nothing. -/
def Srl.lineOn (e : Srl) : Srl :=
  match e.port.ph with
  | .idle => e
  | .busy i a => Srl.afterLine (e.line i a)

/-- SRL goes on: a whole turn of DEMO's loop from its head, else one line. -/
def Srl.goOn (e : Srl) : Srl := e.loopTurn.getD e.lineOn

/-- What SRL holds when it accepts an operation: TXT of ENCODE and DISPLAY (R26), for DEMO whether CANCEL is raised already; the
word of RAWDISP goes to SR in its first line. -/
def Srl.entered (i : Instr) (e : Srl) : Srl :=
  match i with
  | .encode t => e.holdText ((textBytes t).getD [])
  | .display t => e.holdText ((textBytes t).getD [])
  | .demo c => { e with cancel := c }
  | _ => e

/-! ### Acceptance -/

/-- The operation is one the engine was built without: DEMO when HAS_DEMO = 0 (R200). -/
def State.lacks (s : State) : Instr → Bool
  | .demo _ => !s.srl.cfg.hasDemo
  | _ => false

/-- A request is accepted and not yet carried out: PH goes from IDLE to the first step (R28). Refused as the call is (R200). -/
def issue (i : Instr) (s : State) : Host.Outcome State Fault Refusal :=
  if i.narrow then
    if s.lacks i then .refused .demoAbsent
    else
      match i.engine with
      | .pbe => pbeRequest i (Pbe.entered i) s
      | .srl => srlRequest i (Srl.entered i) s
  else .refused .wideCharacter

end Sys2Proof.Machine
end

