-- ==== Sys2Proof/Machine/Agents.lean ====
section
/-! DEFINITION. What each agent does on its turn: the host issues its next request, an engine goes on with the operation it is
in. Also how a request is placed where the host issues it from, and the construction of an engine pair (R210, R212). -/

namespace Sys2Proof.Machine

/-- Whose turn is next: the scripted one, or a free one (log 4). -/
def State.nextAgent (s : State) : Agent := s.turns.headD (Config.freeTurn s.turned)

/-- The state once the turn has been taken. -/
def State.turnTaken (s : State) : State := { s with turns := s.turns.tail, turned := s.turned + 1 }

/-- Bytes that are no request are refused (R200; log 5, log 6). -/
def refusalOf : DecodeError → Refusal
  | .truncated => .malformedRequest
  | .reservedOpsel => .reservedOpsel
  | .notACommand => .malformedRequest
  | .badFlags => .malformedRequest
  | .badText => .malformedRequest

/-- The host looks for its next request: beyond those in the state it may have more, one after another and without end, or none
for now (R231; log 11). -/
def State.supplied (s : State) : State :=
  match s.requests with
  | [] => { s with requests := Config.freeRequest s.requested, requested := s.requested + 1 }
  | _ :: _ => s

/-- The host's turn: its next request is decoded, taken from the list and handed over by `take`, the whole call (`exec`) or its
acceptance (`issue`); if it has none, nothing happens (R231). -/
def hostTurn (take : Instr → State → Host.Outcome State Fault Refusal) (s : State) : Host.Outcome State Fault Refusal :=
  match s.supplied.requests with
  | [] => .next s.supplied
  | _ :: _ =>
    match decode s.supplied.requests with
    | .ok i rest => take i { s.supplied with requests := rest }
    | .reject e => .refused (refusalOf e)

/-- PBE's turn: `move` is how far it goes, `Pbe.goOn` or `Pbe.lineOn`. -/
def pbeTurn (move : Pbe → Pbe) (s : State) : State := { s with pbe := move s.pbe }

/-- SRL's turn, likewise. -/
def srlTurn (move : Srl → Srl) (s : State) : State := { s with srl := move s.srl }

/-- The bytes of the one request that leads `bytes`; all of them if they lead with none. -/
def leadingRequest (bytes : List Byte) : List Byte :=
  match decode bytes with
  | .ok _ rest => bytes.take (bytes.length - rest.length)
  | .reject _ => bytes

/-- The engine an opcode-table word's operation runs on is idle: a request is accepted only then (R231). -/
def State.engineIdle (s : State) : Engine → State
  | .pbe => { s with pbe := { s.pbe with port := { s.pbe.port with ph := .idle } } }
  | .srl => { s with srl := { s.srl with port := { s.srl.port with ph := .idle } } }

/-- The state with a request's bytes first among the host's, the host's turn next, and the engine of its operation idle. -/
def State.withRequest (s : State) (bytes : List Byte) : State :=
  let s1 := { s with requests := bytes ++ s.requests, turns := .host :: s.turns }
  match decode bytes with
  | .ok i _ => s1.engineIdle i.engine
  | .reject _ => s1

/-- Construction (R210, R212): the data pins given, each present or not, must be exactly eight and all present (R20); anything
else is refused (R200). No pin call, no event. -/
def construct (dataPins : List Bool) (pcfg : PbeCfg) (scfg : SrlCfg) : Host.Outcome State Fault Refusal :=
  if dataPins.length = 8 ∧ dataPins.all (fun present => present) then .next (State.fresh pcfg scfg)
  else .refused .badPinSet

end Sys2Proof.Machine
end

