-- ==== Sys2Proof/Machine/Step.lean ====
section
/-! DEFINITION. One step of the machine: the next agent takes its turn (log 4). -/

namespace Sys2Proof.Machine

/-- One step: whose turn it is, is plain data and then free; the turn is taken; that agent moves. -/
def step (s : State) : Host.Outcome State Fault Refusal :=
  match s.nextAgent with
  | .host => hostTurn exec s.turnTaken
  | .issue => hostTurn issue s.turnTaken
  | .pbe => .next (pbeTurn Pbe.goOn s.turnTaken)
  | .srl => .next (srlTurn Srl.goOn s.turnTaken)
  | .pbeLine => .next (pbeTurn Pbe.lineOn s.turnTaken)
  | .srlLine => .next (srlTurn Srl.lineOn s.turnTaken)

/-- The state whose next step executes the opcode-table word's operation, with zero operands (log 11). -/
def State.withFetchWord (s : State) (nbits w : Nat) : State := s.withRequest (leadingRequest (tableBytes nbits w))

end Sys2Proof.Machine
end

