-- ==== Sys2Proof/Safety.lean ====
section
/-! DEFINITION. The terms in which statements about LCD-CORE are made: what a trace shows (groups of events, counts, requested
time, the bits on the serial wire), what the environment will answer, and the invariant of the machine. -/

namespace Sys2Proof.Machine

/-! ### Events and traces -/

/-- An event of one pin call, successful or failed (R35, R105). -/
def Event.isPinCall : Event → Bool
  | .out _ _ => true
  | .inp _ => true
  | .read _ _ => true
  | .fail _ => true
  | .delay _ => false
  | .beginOp _ => false
  | .endOp _ _ _ => false

/-- How many pin calls a trace shows (R230, column "pin calls"). -/
def pinCalls (tr : List Event) : Nat := tr.countP Event.isPinCall

/-- The time one event requests, in nanoseconds (R9, R104). -/
def Event.ns : Event → Nat
  | .delay d => Config.delayNs d
  | .out _ _ => 0
  | .inp _ => 0
  | .read _ _ => 0
  | .fail _ => 0
  | .beginOp _ => 0
  | .endOp _ _ _ => 0

/-- The time a trace requests (R230, column "requested time"); what a virtual clock advances by (R104). -/
def requestedNs (tr : List Event) : Nat := (tr.map Event.ns).sum

/-- `Out(p, l)` with a known level. -/
def outEv (p : Pin) (l : Level) : Event := .out p (.known l)

/-- The events of RS set to `rs` and a whole write cycle with byte `b`: W[rs](b) of 95_test_vectors.md (R120, R122). -/
def writeGroup (o1 o6 : List (Fin 8)) (rs : Level) (b : Byte) : List Event :=
  [outEv .rs rs] ++ o1.map (fun i => .out (.db i) .unknown) ++
    [outEv .rw .low, .delay .tAS, outEv .e .high, .delay .tDS] ++
    o6.map (fun i => outEv (.db i) (if b.getLsbD i.val then .high else .low)) ++ [outEv .e .low, .delay .tEND]

/-- The events of RS set to `rs` and a whole read cycle in which DB[i] reads `v i`: R[rs]=v (R121, R122). -/
def readGroup (o1 o6 : List (Fin 8)) (rs : Level) (v : Fin 8 → Level) : List Event :=
  [outEv .rs rs] ++ o1.map (fun i => .inp (.db i)) ++
    [outEv .rw .high, .delay .tAS, outEv .e .high, .delay .tDS] ++
    o6.map (fun i => .read (.db i) (v i)) ++ [outEv .e .low, .delay .tEND]

/-- The five events that send one bit (R160). -/
def bitGroup (b : Bool) : List Event :=
  [outEv .din (if b then .high else .low), outEv .clk .high, .delay .tSR, outEv .clk .low, .delay .tSR]

/-- The events of a whole RAWDISP(w): S(w) of 95_test_vectors.md (R160). -/
def serialGroup (w : Word) : List Event :=
  (List.range 32).flatMap (fun i => bitGroup (w.getLsbD i)) ++
    [outEv .latch .high, .delay .tSR, outEv .latch .low, .delay .tSR]

/-- The level DIN has at each falling edge of CLK, where the segment module samples it (R160). -/
def clockedBits : PinLevel → List Event → List PinLevel
  | _, [] => []
  | d, ev :: tr =>
    match ev with
    | .out .din v => clockedBits v tr
    | .out .clk (.known .low) => d :: clockedBits d tr
    | _ => clockedBits d tr

/-- The record a trace leaves a pin with, from the record it had (R21): the last `Out` or `In` of the pin decides. -/
def recordAfter (p : Pin) (before : Option PinRec) (tr : List Event) : Option PinRec :=
  tr.foldl (fun r ev =>
    match ev with
    | .out q v => if q = p then some ⟨.output, v⟩ else r
    | .inp q => if q = p then some ⟨.input, .unknown⟩ else r
    | _ => r) before

/-- The events of a trace before its k-th pin call, counted from 0. -/
def beforeCall : Nat → List Event → List Event
  | _, [] => []
  | k, ev :: tr =>
    if ev.isPinCall then
      match k with
      | 0 => []
      | k + 1 => ev :: beforeCall k tr
    else ev :: beforeCall k tr

/-- The pin an event is about. -/
def Event.pin? : Event → Option Pin
  | .out p _ => some p
  | .inp p => some p
  | .read p _ => some p
  | .fail p => some p
  | .delay _ => none
  | .beginOp _ => none
  | .endOp _ _ _ => none

/-- The pin of the k-th pin call of a trace, counted from 0. -/
def callPin (k : Nat) (tr : List Event) : Option Pin := (tr.filter Event.isPinCall)[k]?.bind Event.pin?

/-! ### What the environment will answer -/

/-- None of the next `n` pin calls fails. -/
def Port.noFail (P : Port) (n : Nat) : Prop := ∀ k, k < n → P.peek k ≠ .fail

/-- The `n` pin calls after the next `a` do not fail, and the one after them does. -/
def Port.failsAt (P : Port) (n : Nat) : Prop := P.noFail n ∧ P.peek n = .fail

/-- The level DB[i] reads in a read transaction whose first pin call is the environment's `a`-th answer and whose data pins are
sampled in order `o`: eleven calls (RS, eight PinIn, RW, E) precede the reads (R121, R122). -/
def Port.readLevel (P : Port) (a : Nat) (o : List (Fin 8)) (i : Fin 8) : Level :=
  drawLevel (P.peek (a + 11 + o.idxOf i))

/-! ### Pins after a transaction -/

/-- The pin records after a completed write transaction (R123): every pin of the cycle, the others as before. -/
def pinsAfterWrite (rs : Level) (b : Byte) (before : Option PinRec) : Pin → Option PinRec
  | .rs => some ⟨.output, .known rs⟩
  | .rw => some ⟨.output, .known .low⟩
  | .e => some ⟨.output, .known .low⟩
  | .db i => some ⟨.output, .known (if b.getLsbD i.val then .high else .low)⟩
  | .latch => before
  | .clk => before
  | .din => before
  | .deg => before
  | .col => before
  | .cur => before

/-- The pin records after a completed read transaction (R123). -/
def pinsAfterRead (rs : Level) (before : Option PinRec) : Pin → Option PinRec
  | .rs => some ⟨.output, .known rs⟩
  | .rw => some ⟨.output, .known .high⟩
  | .e => some ⟨.output, .known .low⟩
  | .db _ => some ⟨.input, .unknown⟩
  | .latch => before
  | .clk => before
  | .din => before
  | .deg => before
  | .col => before
  | .cur => before

/-- The pin records after a completed RAWDISP(w) (R160). -/
def pinsAfterSerial (w : Word) (before : Option PinRec) : Pin → Option PinRec
  | .latch => some ⟨.output, .known .low⟩
  | .clk => some ⟨.output, .known .low⟩
  | .din => some ⟨.output, .known (if w.getLsbD 31 then .high else .low)⟩
  | .deg => before
  | .col => before
  | .cur => before
  | .rs => before
  | .rw => before
  | .e => before
  | .db _ => before

/-! ### Operations as statements see them -/

/-- The port of an engine. -/
def State.portOf (s : State) : Engine → Port
  | .pbe => s.pbe.port
  | .srl => s.srl.port

/-- RegisterSelect and the byte of an operation that is one write transaction (R133, R134, and the layouts of R72 to R79 bit by
bit); the operations that are not, have none. -/
def busWrite : Instr → Option (Level × Byte)
  | .wrdata b => some (.high, b)
  | .cmd b => some (.low, b)
  | .clear => some (.low, 0b00000001#8)
  | .home => some (.low, 0b00000010#8)
  | .entry i s => some (.low, 0b000001#6 ++ BitVec.ofBool i ++ BitVec.ofBool s)
  | .dispmode d c b => some (.low, 0b00001#5 ++ BitVec.ofBool d ++ BitVec.ofBool c ++ BitVec.ofBool b)
  | .shift s r => some (.low, 0b0001#4 ++ BitVec.ofBool s ++ BitVec.ofBool r ++ 0b00#2)
  | .func e t l => some (.low, 0b001#3 ++ BitVec.ofBool e ++ BitVec.ofBool t ++ BitVec.ofBool l ++ 0b00#2)
  | .setcg a => some (.low, 0b01#2 ++ a.extractLsb' 0 6)
  | .setdd a => some (.low, 0b1#1 ++ a.extractLsb' 0 7)
  | .rdbf => none
  | .waitrdy => none
  | .rddata => none
  | .puts _ => none
  | .clrall => none
  | .encode _ => none
  | .display _ => none
  | .rawdisp _ => none
  | .demo _ => none
  | .rawwr _ => none
  | .rawrd => none
  | .lookup _ => none

/-- RegisterSelect of an operation that is one read transaction (R130, R132). -/
def busRead : Instr → Option Level
  | .rdbf => some .low
  | .rddata => some .high
  | .waitrdy => none
  | .wrdata _ => none
  | .cmd _ => none
  | .clear => none
  | .home => none
  | .entry _ _ => none
  | .dispmode _ _ _ => none
  | .shift _ _ => none
  | .func _ _ _ => none
  | .setcg _ => none
  | .setdd _ => none
  | .puts _ => none
  | .clrall => none
  | .encode _ => none
  | .display _ => none
  | .rawdisp _ => none
  | .demo _ => none
  | .rawwr _ => none
  | .rawrd => none
  | .lookup _ => none

/-- The events between the markers of an operation that is one transaction, on a port whose environment lets it complete. -/
def Port.transaction (P : Port) (i : Instr) : Option (List Event) :=
  match busWrite i, busRead i with
  | some (rs, b), _ => some (writeGroup (P.peekOrder 0) (P.peekOrder 1) rs b)
  | none, some rs => some (readGroup (P.peekOrder 0) (P.peekOrder 1) rs (P.readLevel 0 (P.peekOrder 1)))
  | none, none => none

/-- The events by which PUTS writes characters to a module that is ready at every first poll: for each, a status read, then the
data write (R143). Each character takes 40 answers and 4 vector steps. -/
def Port.putsEvents (P : Port) (cs : List Byte) : List Event :=
  cs.zipIdx.flatMap (fun ck =>
    readGroup (P.peekOrder (4 * ck.2)) (P.peekOrder (4 * ck.2 + 1)) .low
        (P.readLevel (40 * ck.2) (P.peekOrder (4 * ck.2 + 1))) ++
      writeGroup (P.peekOrder (4 * ck.2 + 2)) (P.peekOrder (4 * ck.2 + 3)) .high ck.1)

/-- The module answers BF = 0 to the status read before each of the next `n` characters of PUTS (R131, R143). -/
def Port.readyFor (P : Port) (n : Nat) : Prop :=
  ∀ k, k < n → P.readLevel (40 * k) (P.peekOrder (4 * k + 1)) 7 = .low

/-- How many answers and orders are gone from a port, and whose port it is. -/
structure Port.Took (P Q : Port) (calls vectors : Nat) : Prop where
  owner   : Q.owner = P.owner
  draws   : Q.draws = P.draws.drop calls
  drawn   : Q.drawn = P.drawn + calls
  orders  : Q.orders = P.orders.drop vectors
  ordered : Q.ordered = P.ordered + vectors

/-- How a port stands to what it was when a host operation `i` was accepted, once `i` has completed OK with the events `body`
between its markers: `calls` answers and `vectors` orders are taken, nothing else of it has changed but pins and sample. -/
structure Port.Completed (P Q : Port) (i : Instr) (body : List Event) (calls vectors : Nat) (r : OpResult) : Prop
    extends Port.Took P Q calls vectors where
  ph      : Q.ph = .idle
  err     : Q.err = .ok
  errPin  : Q.errPin = P.errPin
  trace   : Q.trace = P.trace ++ [.beginOp i] ++ body ++ [.endOp i .ok r]

/-- How a port stands to what it was before a step that leaves operation `i` waiting at `a`: the events `new` are appended, the
answers and orders are taken, STATUS is as it was. -/
structure Port.Waits (P Q : Port) (i : Instr) (a : PhStep) (new : List Event) (calls vectors : Nat) : Prop
    extends Port.Took P Q calls vectors where
  ph      : Q.ph = .busy i a
  err     : Q.err = P.err
  errPin  : Q.errPin = P.errPin
  trace   : Q.trace = P.trace ++ new

/-- How a port stands to what it was before a step that ends an operation `i` already in progress, without a result: the events
`new` and the marker are appended, STATUS.ERR is `e`, STATUS.ERRPIN as it was. -/
structure Port.Ends (P Q : Port) (i : Instr) (e : Err) (new : List Event) (calls vectors : Nat) : Prop
    extends Port.Took P Q calls vectors where
  ph      : Q.ph = .idle
  err     : Q.err = e
  errPin  : Q.errPin = P.errPin
  trace   : Q.trace = P.trace ++ new ++ [.endOp i e .none]

/-- The non-`.` characters of a text in text order, each with whether at least one `.` follows it before the next (R161). -/
def digits : List Byte → List (Byte × Bool)
  | [] => []
  | c :: cs => if c = dot then digits cs else (c, cs.head? == some dot) :: digits cs

/-- The value of ENCODE(text) in the closed form of R161: the sum of (P(c_k) + d_k) * 2^(8(k-1)), modulo 2^32. -/
def displayWord (cfg : SrlCfg) (cs : List Byte) : Word :=
  BitVec.ofNat 32 (((digits cs).zipIdx.map
    (fun dk => ((cfg.pattern dk.1.1).toNat + (if dk.1.2 then 1 else 0)) * 2 ^ (8 * dk.2))).sum)

/-- The next check of CANCEL finds it raised (R186). -/
def Srl.nextCancel (e : Srl) : Bool := e.cancels.headD (Config.freeCancel e.cancelled)

/-! ### PH in the pseudocode (R28, R167) -/

/-- The operation is a write transaction. -/
def isWrite (i : Instr) : Bool := (busWrite i).isSome

/-- The lines of WAITRDY, alone or inside PUTS (R131). -/
def isWaitStep : PhStep → Bool
  | .firstPoll c => c != .wdr
  | .poll c => c != .wdr
  | .firstResult | .firstTest | .clearCount | .pollLoop | .pollResult | .count | .test | .bound => true
  | _ => false

/-- The lines of ENCODE's character loop after its head (R161). -/
def isCharStep : PhStep → Bool
  | .isDot | .setDpf | .addPattern | .isDpf | .addOne | .clearDpf => true
  | _ => false

/-- The lines of ENCODE (R161). -/
def isEncodeStep (a : PhStep) : Bool := isCharStep a || a == .clearAcc || a == .nextChar || a == .result

/-- The lines of RAWDISP's bit loop after its head (R160). -/
def isBitStep : PhStep → Bool
  | .din | .clkHigh | .clkHighDelay | .clkLow | .clkLowDelay => true
  | _ => false

/-- The lines of RAWDISP (R160). -/
def isLoadStep (a : PhStep) : Bool :=
  isBitStep a || a == .load || a == .bitLoop || a == .latchHigh || a == .latchHighDelay || a == .latchLow || a == .latchLowDelay

/-- The positions that an operation's pseudocode has, its expansions written out (R28, R87). -/
def hasStep (i : Instr) (a : PhStep) : Bool :=
  match i with
  | .rdbf | .rddata =>
    match a with
    | .cycle c => c != .wdr
    | _ => a == .result
  | .wrdata _ | .cmd _ | .clear | .home | .entry _ _ | .dispmode _ _ _ | .shift _ _ | .func _ _ _ | .setcg _ | .setdd _ =>
    match a with
    | .cycle _ => true
    | _ => false
  | .waitrdy => isWaitStep a
  | .puts _ =>
    match a with
    | .char _ => true
    | _ => isWaitStep a || a == .nextChar
  | .encode _ => isEncodeStep a
  | .display _ => isEncodeStep a || isLoadStep a
  | .rawdisp _ => isLoadStep a
  | .clrall => isLoadStep a || a == .cur || a == .col || a == .deg
  | .demo _ =>
    isEncodeStep a || isLoadStep a || a == .firstWindow || a == .tickLoop || a == .tick || a == .checkCancel || a == .nextWindow
  | .rawwr _ | .rawrd | .lookup _ => false

/-- The line after a line of a transaction, in the order of R120 and R121; WDR is written in a write cycle only. -/
def cyAfter (write : Bool) : CyStep → Option CyStep
  | .rs => if write then some .wdr else some .one
  | .wdr => some .one
  | .one => some .two
  | .two => some .three
  | .three => some .four
  | .four => some .five
  | .five => some .six
  | .six => some .seven
  | .seven => some .eight
  | .eight => none

/-- The lines to which the pseudocode of an operation can go from one of its lines, as R130 to R164 write it. -/
def stepsAfter (i : Instr) : PhStep → List PhStep
  | .cycle c =>
    match cyAfter (isWrite i) c with
    | some c' => [.cycle c']
    | none => if isWrite i then [] else [.result]
  | .result => if i.engine == .srl && i.opsel != some 0x11 then [.load] else []
  | .nextChar => if i.engine == .pbe then [.firstPoll .rs] else [.isDot, .result]
  | .firstPoll c =>
    match cyAfter false c with
    | some c' => [.firstPoll c']
    | none => [.firstResult]
  | .firstResult => [.firstTest]
  | .firstTest => if i == .waitrdy then [.clearCount] else [.clearCount, .char .rs]
  | .clearCount => [.pollLoop]
  | .pollLoop => [.poll .rs]
  | .poll c =>
    match cyAfter false c with
    | some c' => [.poll c']
    | none => [.pollResult]
  | .pollResult => [.count]
  | .count => [.test]
  | .test => if i == .waitrdy then [.bound] else [.bound, .char .rs]
  | .bound => [.pollLoop]
  | .char c =>
    match cyAfter true c with
    | some c' => [.char c']
    | none => [.nextChar]
  | .clearAcc => [.nextChar]
  | .isDot => [.setDpf, .addPattern]
  | .setDpf => [.nextChar]
  | .addPattern => [.isDpf]
  | .isDpf => [.addOne, .nextChar]
  | .addOne => [.clearDpf]
  | .clearDpf => [.nextChar]
  | .load => [.bitLoop]
  | .bitLoop => [.din, .latchHigh]
  | .din => [.clkHigh]
  | .clkHigh => [.clkHighDelay]
  | .clkHighDelay => [.clkLow]
  | .clkLow => [.clkLowDelay]
  | .clkLowDelay => [.bitLoop]
  | .latchHigh => [.latchHighDelay]
  | .latchHighDelay => [.latchLow]
  | .latchLow => [.latchLowDelay]
  | .latchLowDelay => if i == .clrall then [.cur] else if i.opsel == some 0x14 then [.tick] else []
  | .cur => [.col]
  | .col => [.deg]
  | .deg => []
  | .firstWindow => [.tickLoop]
  | .tickLoop => [.clearAcc]
  | .tick => [.checkCancel]
  | .checkCancel => [.nextWindow]
  | .nextWindow => [.tickLoop]

/-- The lines at which an operation can return (R130 to R164). -/
def mayReturn (i : Instr) : PhStep → Bool
  | .cycle c => isWrite i && c == .eight
  | .result => stepsAfter i .result == []
  | .nextChar => i.engine == .pbe
  | .firstTest | .test => i == .waitrdy
  | .latchLowDelay => stepsAfter i .latchLowDelay == []
  | .deg | .checkCancel => true
  | _ => false

/-- A line's place in a transaction's text. -/
def CyStep.place : CyStep → Nat
  | .rs => 0
  | .wdr => 1
  | .one => 2
  | .two => 3
  | .three => 4
  | .four => 5
  | .five => 6
  | .six => 7
  | .seven => 8
  | .eight => 9

/-- A line's place in the text of its operation, expansions written out: a later line has a greater place. -/
def place : PhStep → Nat
  | .firstWindow => 0
  | .tickLoop => 1
  | .clearAcc => 2
  | .nextChar => 3
  | .firstPoll c => 10 + c.place
  | .firstResult => 20
  | .firstTest => 21
  | .clearCount => 22
  | .pollLoop => 23
  | .poll c => 30 + c.place
  | .pollResult => 40
  | .count => 41
  | .test => 42
  | .bound => 43
  | .char c => 50 + c.place
  | .isDot => 60
  | .setDpf => 61
  | .addPattern => 62
  | .isDpf => 63
  | .addOne => 64
  | .clearDpf => 65
  | .cycle c => 70 + c.place
  | .result => 80
  | .load => 81
  | .bitLoop => 82
  | .din => 83
  | .clkHigh => 84
  | .clkHighDelay => 85
  | .clkLow => 86
  | .clkLowDelay => 87
  | .latchHigh => 88
  | .latchHighDelay => 89
  | .latchLow => 90
  | .latchLowDelay => 91
  | .cur => 92
  | .col => 93
  | .deg => 94
  | .tick => 95
  | .checkCancel => 96
  | .nextWindow => 97

/-- The ways back to the heads of the five loops: poll loop, character loops of PUTS and ENCODE, bit loop, tick loop (R167). -/
def loopBacks : List (PhStep × PhStep) :=
  [(.bound, .pollLoop), (.char .eight, .nextChar), (.setDpf, .nextChar), (.isDpf, .nextChar), (.clearDpf, .nextChar),
   (.clkLowDelay, .bitLoop), (.nextWindow, .tickLoop)]

/-- `n` lines executed one after another. -/
def Pbe.linesOn : Nat → Pbe → Pbe
  | 0, e => e
  | n + 1, e => Pbe.linesOn n e.lineOn

/-- `n` lines executed one after another. -/
def Srl.linesOn : Nat → Srl → Srl
  | 0, e => e
  | n + 1, e => Srl.linesOn n e.lineOn

/-- `n` turns of PBE, whole turns of the poll loop while it stands at its head. -/
def Pbe.turnsOn : Nat → Pbe → Pbe
  | 0, e => e
  | n + 1, e => Pbe.turnsOn n e.goOn

/-! ### The invariant -/

/-- A record's level is known only on an output (R21). -/
abbrev PinRec.Sound (r : PinRec) : Prop := r.level = .unknown ∨ r.mode = .output

/-- The pins a port has records for. -/
def Port.keys (P : Port) : List Pin := P.pins.map Prod.fst

/-- The eight data pins are turned for a write or for a read cycle (R22). -/
def Port.turned (P : Port) (write : Bool) : Prop :=
  ∀ i, if write then ∃ v, P.pin (.db i) = some ⟨.output, v⟩ else P.pin (.db i) = some ⟨.input, .unknown⟩

/-- ReadWrite is set for a write or for a read cycle. -/
def Port.aimed (P : Port) (write : Bool) : Prop := P.pin .rw = some ⟨.output, .known (if write then .low else .high)⟩

/-- What the lines of a cycle have done to the pins before Enable rises (R120, R121): step 1 before step 2, step 2 before 3. -/
def Port.busReady (P : Port) (write : Bool) : CyStep → Prop
  | .two => P.turned write
  | .three | .four => P.turned write ∧ P.aimed write
  | .rs | .wdr | .one | .five | .six | .seven | .eight => True

/-- The same for the cycle that PH stands in, if any. -/
def Port.cycleOk (P : Port) (i : Instr) : PhStep → Prop
  | .cycle c => P.busReady (isWrite i) c
  | .firstPoll c => P.busReady false c
  | .poll c => P.busReady false c
  | .char c => P.busReady true c
  | _ => True

/-- PBE stands at `a` of operation `i`: a line the operation has; in PUTS with the text and a character to write; where a poll has
read busy, RDR says so, and at the head of the poll loop the bound is not reached (R28, R131, R143, R167). -/
def Pbe.standsAt (e : Pbe) (i : Instr) (a : PhStep) : Prop :=
  hasStep i a = true ∧
    (∀ t, i = .puts t → textBytes t = some e.txt.chars ∧
      (if a = .nextChar then e.txt.pos ≤ e.txt.chars.length else e.txt.pos < e.txt.chars.length)) ∧
    (a = .clearCount ∨ a = .bound ∨ a = .pollLoop → statusBF e.rdr = true) ∧
    (a = .pollLoop → e.limitReached = false) ∧
    e.port.cycleOk i a

/-- Where PBE may be between two steps: idle, or at a line of one of its operations (R28). -/
def Pbe.phaseOk (e : Pbe) : Prop :=
  e.port.ph = .idle ∨ ∃ i a, e.port.ph = .busy i a ∧ i.engine = .pbe ∧ e.standsAt i a

/-- What holds of PBE in every state a run reaches. -/
structure Pbe.Inv (e : Pbe) : Prop where
  owner   : e.port.owner = .pbe
  /-- exactly the eleven pins of R20 have records -/
  keys    : e.port.keys = pbePins
  sound   : ∀ q ∈ e.port.pins, q.2.Sound
  /-- only data pins are ever inputs (R20, R101) -/
  inputs  : ∀ q ∈ e.port.pins, q.2.mode = .input → ∃ i, q.1 = .db i
  errPin  : e.port.errPin.engine = .pbe
  /-- POLL_LIMIT is none or at least 1 (R10) -/
  limit   : e.cfg.pollLimit ≠ some 0
  phase   : e.phaseOk

/-- SRL stands at `a` of operation `i`: a line the operation has; in ENCODE's loop with a character to process, in the bit loop
with a bit to send; DEMO only where it exists, past a check only with CANCEL not seen raised (R28, R160 to R164). -/
def Srl.standsAt (e : Srl) (i : Instr) (a : PhStep) : Prop :=
  hasStep i a = true ∧
    (isEncodeStep a = true → e.txt.pos ≤ e.txt.chars.length) ∧
    (isCharStep a = true → e.txt.pos < e.txt.chars.length) ∧
    (isBitStep a = true → e.bitcnt < Config.nShift) ∧
    (∀ c, i = .demo c → e.cfg.hasDemo = true) ∧
    (a = .nextWindow → e.cancel = false)

/-- Where SRL may be between two steps: idle, or at a line of one of its operations (R28). -/
def Srl.phaseOk (e : Srl) : Prop :=
  e.port.ph = .idle ∨ ∃ i a, e.port.ph = .busy i a ∧ i.engine = .srl ∧ e.standsAt i a

/-- What holds of SRL in every state a run reaches. -/
structure Srl.Inv (e : Srl) : Prop where
  owner   : e.port.owner = .srl
  /-- the three fixed pins and the wired indicators have records, an absent pin has none (R23, R24) -/
  keys    : e.port.keys = srlPins e.cfg
  sound   : ∀ q ∈ e.port.pins, q.2.Sound
  /-- no pin of SRL is ever an input (R23) -/
  inputs  : ∀ q ∈ e.port.pins, q.2.mode ≠ .input
  errPin  : e.port.errPin.engine = .srl
  /-- the default table keeps its canonical form -/
  default : e.cfg.defaultTable.wf = true
  /-- a custom table keeps its canonical form -/
  custom  : ∀ m, e.cfg.customTable = some m → m.wf = true
  /-- BITCNT is 0 to 32 (R26) -/
  bitcnt  : e.bitcnt ≤ Config.nShift
  phase   : e.phaseOk

/-- The invariant of the machine. -/
structure State.Inv (s : State) : Prop where
  pbe : s.pbe.Inv
  srl : s.srl.Inv

end Sys2Proof.Machine
end

