-- ==== Sys2Proof/Certificates/Slice0/Obligations.lean ====
section
/-! DEFINITION. The statements about LCD-CORE for the provers. Each docstring says which rule of spec/ it formalises. A
hypothesis `noFail n` is about the environment alone: none of the next n pin calls fails (R105). What is the model's and no
rule of the spec: whose turn is next and how far a turn goes, so that a call's step ends at the head of a poll loop or tick
loop (log 3, log 4), the bytes of a request and where they come from (log 5, log 6, log 11), that the orders of the data pins
come from `peekOrder` (log 2), the internal operations executed by themselves and the field `romOut` (log 12), that the polls of
WAITRDY and PUTS and the encoding inside DISPLAY and DEMO also write STATUS.RESULT (log 13), what a read cycle that faults in
step 6 or before it leaves in RDR, and in STATUS.RESULT after any fault (log 19), and what TXT's position counts (log 26). -/

open Sys2Proof Sys2Proof.Machine

/-! ### Encodings -/

/-- Decoding the request bytes of a well-formed operation gives it back with every operand, and leaves the bytes after it. The
byte form is the model's (log 5); the OPSEL values are R85's. -/
def Obligations.RequestRoundTrip : Prop :=
  ∀ (i : Instr) (rest : List Byte), WellFormed i → decode (encode i ++ rest) = .ok i rest

/-- R81, R85 (derived: on the words of the spec's tables): words written out from the tables decode to their operations. What is
the model's: that 0x38 and 0xC0, read as request bytes, are command bytes, since a first byte of 0x20 or more is one, while the
table's command bytes 0x01, 0x02, 0x04 and 0x10 are read as the OPSEL of another operation (log 6); and that PUTS, RAWDISP and
DEMO are read with operand bytes of zeros (log 5). -/
def Obligations.SpecWordsDecode : Prop :=
  decodeTableWord 8 0b00000 = some .rdbf ∧ decodeTableWord 8 0b00001 = some .waitrdy ∧
  decodeTableWord 8 0b01101 = some (.puts []) ∧ decodeTableWord 8 0b10011 = some (.rawdisp 0) ∧
  decodeTableWord 8 0b10100 = some (.demo false) ∧ decodeTableWord 8 0b00111000 = some (.func true true false) ∧
  decodeTableWord 8 0b11000000 = some (.setdd 0x40) ∧ decodeCommand 0b00001100 = some (.dispmode true false false) ∧
  decodeCommand 0b00000110 = some (.entry true false) ∧ decodeCommand 0b00010011 = none ∧
  (decodeCommand 0x01 = some .clear ∧ decodeTableWord 8 0x01 = some .waitrdy) ∧
  (decodeCommand 0x02 = some .home ∧ decodeTableWord 8 0x02 = some .rddata) ∧
  (decodeCommand 0x04 = some (.entry false false) ∧ decodeTableWord 8 0x04 = some (.cmd 0)) ∧
  (decodeCommand 0x10 = some (.shift false false) ∧ decodeTableWord 8 0x10 = some .clrall)

/-- R81, R78, R79: the byte of every named command decodes, by its highest 1 bit and the narrower masks, to that command; an
address comes back without the bits its mask drops. -/
def Obligations.CommandBytesDecodeBack : Prop :=
  (∀ i s, decodeCommand (entryByte i s) = some (.entry i s)) ∧
  (∀ d c b, decodeCommand (dispmodeByte d c b) = some (.dispmode d c b)) ∧
  (∀ s r, decodeCommand (shiftByte s r) = some (.shift s r)) ∧
  (∀ e t l, decodeCommand (funcByte e t l) = some (.func e t l)) ∧
  (∀ a, decodeCommand (setcgByte a) = some (.setcg (a &&& 0x3F))) ∧
  (∀ a, decodeCommand (setddByte a) = some (.setdd (a &&& 0x7F))) ∧
  decodeCommand clearByte = some .clear ∧ decodeCommand homeByte = some .home

/-- R72 to R79: the eight command bytes bit by bit: their fixed bits, each flag and the address bits at their places, and the
values or the range the rules give. -/
def Obligations.CommandByteLayouts : Prop :=
  clearByte = 0b00000001#8 ∧ homeByte = 0b00000010#8 ∧
  (∀ i s, entryByte i s = 0b000001#6 ++ BitVec.ofBool i ++ BitVec.ofBool s ∧
    0x04 ≤ (entryByte i s).toNat ∧ (entryByte i s).toNat ≤ 0x07) ∧
  (∀ d c b, dispmodeByte d c b = 0b00001#5 ++ BitVec.ofBool d ++ BitVec.ofBool c ++ BitVec.ofBool b ∧
    0x08 ≤ (dispmodeByte d c b).toNat ∧ (dispmodeByte d c b).toNat ≤ 0x0F) ∧
  (∀ s r, shiftByte s r = 0b0001#4 ++ BitVec.ofBool s ++ BitVec.ofBool r ++ 0b00#2 ∧
    shiftByte s r ∈ ([0x10, 0x14, 0x18, 0x1C] : List Byte)) ∧
  (∀ e t l, funcByte e t l = 0b001#3 ++ BitVec.ofBool e ++ BitVec.ofBool t ++ BitVec.ofBool l ++ 0b00#2 ∧
    funcByte e t l ∈ ([0x20, 0x24, 0x28, 0x2C, 0x30, 0x34, 0x38, 0x3C] : List Byte)) ∧
  (∀ a : Byte, setcgByte a = 0b01#2 ++ a.extractLsb' 0 6 ∧ 0x40 ≤ (setcgByte a).toNat ∧ (setcgByte a).toNat ≤ 0x7F) ∧
  (∀ a : Byte, setddByte a = 0b1#1 ++ a.extractLsb' 0 7 ∧ 0x80 ≤ (setddByte a).toNat ∧ (setddByte a).toNat ≤ 0xFF)

/-- R82(a), R90: a byte decodes to no command exactly if it is 0x00, 0x03, or a SHIFT or FUNC byte with bit 1 or bit 0 set. -/
def Obligations.BytesNoCommandEmits : Prop :=
  ∀ b : Byte, decodeCommand b = none ↔
    (b = 0x00 ∨ b = 0x03 ∨ ((0x10 ≤ b.toNat ∧ b.toNat ≤ 0x3F) ∧ (b.getLsbD 0 = true ∨ b.getLsbD 1 = true)))

/-- R81: the eight layouts are told apart by the position of the highest 1 bit of the byte: the ranges cover 0x01 to 0xFF, each
byte has the layout of its range with the operands at their bits, 0x00 has none, and where the narrower masks name a command it
is the same one. -/
def Obligations.LayoutsByHighestBit : Prop :=
  ∀ b : Byte,
    (b = 0x00 → layoutOf b = none) ∧ (b = 0x01 → layoutOf b = some .clear) ∧
    (0x02 ≤ b.toNat ∧ b.toNat ≤ 0x03 → layoutOf b = some .home) ∧
    (0x04 ≤ b.toNat ∧ b.toNat ≤ 0x07 → layoutOf b = some (.entry (b.getLsbD 1) (b.getLsbD 0))) ∧
    (0x08 ≤ b.toNat ∧ b.toNat ≤ 0x0F → layoutOf b = some (.dispmode (b.getLsbD 2) (b.getLsbD 1) (b.getLsbD 0))) ∧
    (0x10 ≤ b.toNat ∧ b.toNat ≤ 0x1F → layoutOf b = some (.shift (b.getLsbD 3) (b.getLsbD 2))) ∧
    (0x20 ≤ b.toNat ∧ b.toNat ≤ 0x3F → layoutOf b = some (.func (b.getLsbD 4) (b.getLsbD 3) (b.getLsbD 2))) ∧
    (0x40 ≤ b.toNat ∧ b.toNat ≤ 0x7F → layoutOf b = some (.setcg (b &&& 0x3F))) ∧
    (0x80 ≤ b.toNat ∧ b.toNat ≤ 0xFF → layoutOf b = some (.setdd (b &&& 0x7F))) ∧
    (∀ i, decodeCommand b = some i → layoutOf b = some i)

/-- R83: the segments of a pattern, from bit 7 down to bit 0, G F A B C D E and DP, with weights 0x80 to 0x01: a pattern is the
sum of the weights of the segments it lights, and adding the weight of DP to a pattern without it lights DP and nothing else. -/
def Obligations.PatternSegments : Prop :=
  Segment.all.map Segment.weight = [0x80, 0x40, 0x20, 0x10, 0x08, 0x04, 0x02, 0x01] ∧
  (∀ p : Byte, p = (Segment.all.map (fun s => if s.lit p then s.weight else 0)).sum) ∧
  (∀ p : Byte, Segment.dp.lit p = false →
    Segment.dp.lit (p + Segment.dp.weight) = true ∧ ∀ s : Segment, s ≠ .dp → s.lit (p + Segment.dp.weight) = s.lit p)

/-! ### The machine -/

/-- When it is the host's turn and the bytes of its next request decode to `i`, the step is exec of `i`, or its acceptance when
the turn goes no further, with the turn taken and the request's bytes gone (R28, R231; turns and bytes are the model's, log 3,
log 4, log 5). -/
def Obligations.StepRunsDecodedRequest : Prop :=
  ∀ (s : State) (i : Instr) (rest : List Byte), decode s.requests = .ok i rest →
    (s.nextAgent = .host →
      step s = exec i { s with requests := rest, turns := s.turns.tail, turned := s.turned + 1 }) ∧
    (s.nextAgent = .issue →
      step s = issue i { s with requests := rest, turns := s.turns.tail, turned := s.turned + 1 })

/-- On the turn of an engine that is idle nothing but the turn changes. On the host's turn with no request in the list the host
looks for more: if it has none, nothing but the look and the turn changes, else the step is that of the state with its further
requests in the list, so that a run may have infinitely many (R231; turns and looks are the model's, log 4, log 11, log 25). -/
def Obligations.IdleTurnsChangeNothing : Prop :=
  ∀ s : State,
    ((((s.nextAgent = .pbe ∨ s.nextAgent = .pbeLine) ∧ s.pbe.port.ph = .idle) ∨
        ((s.nextAgent = .srl ∨ s.nextAgent = .srlLine) ∧ s.srl.port.ph = .idle)) →
      step s = .next { s with turns := s.turns.tail, turned := s.turned + 1 }) ∧
    ((s.nextAgent = .host ∨ s.nextAgent = .issue) → s.requests = [] →
      step s =
        if Config.freeRequest s.requested = [] then
          .next { s with requested := s.requested + 1, turns := s.turns.tail, turned := s.turned + 1 }
        else step { s with requests := Config.freeRequest s.requested, requested := s.requested + 1 })

/-- R34, R210: after reset both engines are IDLE with STATUS.ERR OK, every owned pin that is present has the record (unknown,
unknown) and no other pin has one, the traces are empty, and the test pattern generator is there by default (R10). -/
def Obligations.ResetState : Prop :=
  (∀ E, (State.reset.portOf E).ph = .idle ∧ (State.reset.portOf E).err.code = 0 ∧ (State.reset.portOf E).trace = []) ∧
  (∀ p, State.reset.pbe.port.pin p = if p.engine = .pbe then some ⟨.unknown, .unknown⟩ else none) ∧
  (∀ p ∈ srlPins State.reset.srl.cfg, State.reset.srl.port.pin p = some ⟨.unknown, .unknown⟩) ∧
  (∀ p, p ∉ srlPins State.reset.srl.cfg → State.reset.srl.port.pin p = none) ∧
  State.reset.srl.cfg.hasDemo = true

/-- R20: a PBE with fewer or more than eight data pins, or with an absent one, does not exist; with eight present ones
construction leaves the state of R34 for that configuration. -/
def Obligations.ConstructionNeedsEightDataPins : Prop :=
  ∀ (pins : List Bool) (p : PbeCfg) (c : SrlCfg),
    (pins = List.replicate 8 true → construct pins p c = .next (State.fresh p c)) ∧
    (pins ≠ List.replicate 8 true → construct pins p c = .refused .badPinSet)

/-- The invariant holds after reset. -/
def Obligations.ResetMeetsInvariant : Prop := State.reset.Inv

/-- Every step, of a whole call, a loop's turn or one line, from a state that meets the invariant leaves one that meets it. The
part about PH says that it is IDLE or at a line its operation's pseudocode has, with what the lines before it have done (R28);
the names of the lines are the model's (log 3), and so is what it says of TXT's position (log 26). A position that an operation
does not have is ruled out by it, which log 20 rests on. -/
def Obligations.StepKeepsInvariant : Prop := ∀ s t : State, s.Inv → step s = .next t → t.Inv

/-- R115 (and R17, R31, R33): no operation and no step changes the configuration, so every character's pattern stays what it was
and two lookups of one character agree. -/
def Obligations.ConfigurationNeverChanges : Prop :=
  ∀ s t : State, (step s = .next t ∨ ∃ i, exec i s = .next t) →
    t.pbe.cfg = s.pbe.cfg ∧ t.srl.cfg = s.srl.cfg ∧ ∀ c, t.srl.cfg.pattern c = s.srl.cfg.pattern c

/-- R18, R19: an operation touches nothing but its own engine. -/
def Obligations.OperationsTouchTheirEngineOnly : Prop :=
  ∀ (i : Instr) (s t : State), exec i s = .next t →
    (i.engine = .pbe → t = { s with pbe := t.pbe }) ∧ (i.engine = .srl → t = { s with srl := t.srl })

/-- R21, R35, R188(2): a step only appends to each trace, and after it every pin record is the one the appended events leave:
also after a fault every pin stays as the trace left it. -/
def Obligations.PinRecordsFollowTheTrace : Prop :=
  ∀ (s t : State) (E : Engine), step s = .next t →
    ∃ new, (t.portOf E).trace = (s.portOf E).trace ++ new ∧
      ∀ p, (t.portOf E).pin p = recordAfter p ((s.portOf E).pin p) new

/-- R188: after `Fail(p)` nothing but the `End` marker with PIN_FAULT is emitted; STATUS.ERR is PIN_FAULT, STATUS.ERRPIN the
failing pin, PH IDLE; and every pin is as the calls before the failing one left it. -/
def Obligations.NothingAfterAFailedCall : Prop :=
  ∀ (s t : State) (E : Engine), step s = .next t →
    ∃ new, (t.portOf E).trace = (s.portOf E).trace ++ new ∧
      ∀ pre p post, new = pre ++ .fail p :: post →
        (∃ i, post = [.endOp i .pinFault .none]) ∧ (∀ q, .fail q ∉ pre) ∧
          (t.portOf E).err = .pinFault ∧ (t.portOf E).errPin = p ∧ (t.portOf E).ph = .idle ∧
          ∀ q, (t.portOf E).pin q = recordAfter q ((s.portOf E).pin q) pre

/-- R184, R190: a host operation that has ended (its engine is IDLE) has written STATUS.ERR, the status its `End` marker, the
last event, shows: when it ends in the step of its call, and when it ends in a later step of its engine. -/
def Obligations.EveryEndWritesTheStatus : Prop :=
  (∀ (i : Instr) (s t : State), i.requestable = true → exec i s = .next t → (t.portOf i.engine).ph = .idle →
    ∃ pre e r, (t.portOf i.engine).trace = pre ++ [.endOp i e r] ∧ (t.portOf i.engine).err = e) ∧
  (∀ (E : Engine) (i : Instr) (a : PhStep) (s t : State), (s.portOf E).ph = .busy i a → step s = .next t →
    (t.portOf E).ph = .idle → ∃ pre e r, (t.portOf E).trace = pre ++ [.endOp i e r] ∧ (t.portOf E).err = e)

/-- R65, R200: every request to an engine whose PH is not IDLE is refused, as busy unless it is refused anyway (a character
above 0xFF, DEMO without HAS_DEMO). -/
def Obligations.BusyEngineRefuses : Prop :=
  ∀ (i : Instr) (s : State), i.requestable = true → (s.portOf i.engine).ph ≠ .idle →
    (∃ r, exec i s = .refused r) ∧
      (i.narrow = true → (∀ c, i = .demo c → s.srl.cfg.hasDemo = true) → exec i s = .refused .engineBusy)

/-- R200, R86: a text with a character code above 0xFF is refused. That a busy engine, which refuses too, refuses under this name
is the model's ranking (log 18). -/
def Obligations.WideCharactersRefused : Prop :=
  ∀ (t : List Nat) (s : State), (∃ c ∈ t, 255 < c) →
    exec (.puts t) s = .refused .wideCharacter ∧ exec (.encode t) s = .refused .wideCharacter ∧
      exec (.display t) s = .refused .wideCharacter

/-- R85, R200: a request with an OPSEL that the table does not list is refused. -/
def Obligations.ReservedOpselRefused : Prop :=
  ∀ (s : State) (b : Byte) (rest : List Byte), s.nextAgent = .host ∨ s.nextAgent = .issue → s.requests = b :: rest →
    (b = 0x0E ∨ b = 0x0F ∨ (0x15 ≤ b.toNat ∧ b.toNat ≤ 0x1F)) → step s = .refused .reservedOpsel

/-! ### PH in the pseudocode (R28, R167) -/

/-- R28: when a request is accepted PH goes from IDLE to the first step of its operation's pseudocode, the one with the least place
in the text, `Begin` is emitted and nothing of the port has changed but these; a request is accepted, or refused and under the
same name, exactly where the whole call is. -/
def Obligations.IssueStandsAtTheFirstStep : Prop :=
  ∀ (i : Instr) (s : State), i.requestable = true →
    (∀ r, issue i s = .refused r ↔ exec i s = .refused r) ∧
    (∀ t, exec i s = .next t → ∃ u, issue i s = .next u) ∧
    (∀ u, issue i s = .next u →
      (s.portOf i.engine).ph = .idle ∧
      u.portOf i.engine = { s.portOf i.engine with
        ph := .busy i (firstStep i), trace := (s.portOf i.engine).trace ++ [.beginOp i] } ∧
      hasStep i (firstStep i) = true ∧ (∀ a, hasStep i a = true → place (firstStep i) ≤ place a) ∧
      (i.engine = .pbe → u = { s with pbe := u.pbe }) ∧ (i.engine = .srl → u = { s with srl := u.srl }))

/-- R28, R167: a turn of one line takes PH from a line of its operation to one that the pseudocode allows next, forward in the text
or back to the head of one of the five loops; or to IDLE, at a line where the operation returns, or by an exception, which is
PROTOCOL_TIMEOUT only at the test of POLL_LIMIT. The names of the lines are the model's (log 3). -/
def Obligations.PhaseMovesAsThePseudocodeSays : Prop :=
  ∀ (s : State) (E : Engine) (i : Instr) (a : PhStep), s.Inv →
    ((E = .pbe ∧ s.nextAgent = .pbeLine) ∨ (E = .srl ∧ s.nextAgent = .srlLine)) → (s.portOf E).ph = .busy i a →
    ∃ t, step s = .next t ∧
      ((∃ b ∈ stepsAfter i a, (t.portOf E).ph = .busy i b ∧ (place a < place b ∨ (a, b) ∈ loopBacks)) ∨
        ((t.portOf E).ph = .idle ∧ (t.portOf E).err = .ok ∧ mayReturn i a = true) ∨
        ((t.portOf E).ph = .idle ∧ (t.portOf E).err = .pinFault) ∨
        ((t.portOf E).ph = .idle ∧ (t.portOf E).err = .protocolTimeout ∧ a = .bound))

/-- R28, R87: a host's call does what its operation's lines do one after another from the first step on: the state after exec is
the state after acceptance with some number of lines executed by the engine. How far a call goes is the model's (log 3). -/
def Obligations.LinesMakeUpTheCall : Prop :=
  ∀ (i : Instr) (s t : State), i.requestable = true → exec i s = .next t →
    ∃ u n, issue i s = .next u ∧
      (i.engine = .pbe → t = { u with pbe := u.pbe.linesOn n }) ∧ (i.engine = .srl → t = { u with srl := u.srl.linesOn n })

/-- R131, R143, R164: a whole turn of the poll loop or of the tick loop does what at least one of its lines, executed one after
another from the loop's head on, does. How far a turn goes is the model's (log 3). -/
def Obligations.LinesMakeUpTheLoopTurn : Prop :=
  (∀ e : Pbe, e.Inv → (∃ i, e.port.ph = .busy i .pollLoop) → ∃ n, 0 < n ∧ e.goOn = e.linesOn n) ∧
  (∀ e : Srl, e.Inv → (∃ i, e.port.ph = .busy i .tickLoop) → ∃ n, 0 < n ∧ e.goOn = e.linesOn n)

/-! ### Transactions of the parallel bus -/

/-- R123, R133 to R142: WRDATA, CMD and the eight named commands run their one write transaction at once: RS as the operation
says, the byte of the formula on the bus, the events of the write cycle in its fixed order; afterwards RS, RW low, E low and the
data pins hold what R123 gives, WDR the byte; nothing else changes. -/
def Obligations.WriteTransactionsComplete : Prop :=
  ∀ (i : Instr) (rs : Level) (b : Byte) (s : State), busWrite i = some (rs, b) → s.pbe.port.ph = .idle →
    s.pbe.port.noFail 20 →
    ∃ Q, exec i s = .next { s with pbe := { s.pbe with wdr := b, port := Q } } ∧
      s.pbe.port.Completed Q i (writeGroup (s.pbe.port.peekOrder 0) (s.pbe.port.peekOrder 1) rs b) 20 2 .none ∧
      Q.sample = s.pbe.port.sample ∧ ∀ p, Q.pin p = pinsAfterWrite rs b (s.pbe.port.pin p) p

/-- R123, R130, R132: RDBF and RDDATA run their one read transaction at once; bit i of the result is what DB[i] read, and RDR
and STATUS.RESULT hold it; nothing else changes but the pins. -/
def Obligations.ReadTransactionsComplete : Prop :=
  ∀ (i : Instr) (rs : Level) (s : State), busRead i = some rs → s.pbe.port.ph = .idle → s.pbe.port.noFail 20 →
    ∃ Q v, exec i s = .next { s with pbe := { s.pbe with rdr := v, result := v, port := Q } } ∧
      (∀ k : Fin 8, v.getLsbD k.val = (s.pbe.port.readLevel 0 (s.pbe.port.peekOrder 1) k).toBool) ∧
      s.pbe.port.Completed Q i
        (readGroup (s.pbe.port.peekOrder 0) (s.pbe.port.peekOrder 1) rs
          (s.pbe.port.readLevel 0 (s.pbe.port.peekOrder 1))) 20 2 (.byte v) ∧
      ∀ p, Q.pin p = pinsAfterRead rs (s.pbe.port.pin p) p

/-- R120: the raw write cycle by itself: the eight steps of the write group without its RS setting; no marker. -/
def Obligations.RawWriteCycleCompletes : Prop :=
  ∀ (b : Byte) (s : State), s.pbe.port.noFail 19 →
    ∃ Q, exec (.rawwr b) s = .next { s with pbe := { s.pbe with wdr := b, port := Q } } ∧
      Q.trace = s.pbe.port.trace ++ (writeGroup (s.pbe.port.peekOrder 0) (s.pbe.port.peekOrder 1) .low b).tail ∧
      s.pbe.port.Took Q 19 2 ∧ Q.ph = s.pbe.port.ph ∧ Q.err = s.pbe.port.err ∧ Q.errPin = s.pbe.port.errPin ∧
      Q.sample = s.pbe.port.sample ∧
      ∀ p, Q.pin p = if p = .rs then s.pbe.port.pin .rs else pinsAfterWrite .low b (s.pbe.port.pin p) p

/-- R121: the raw read cycle by itself; RDR holds the sampled byte, bit k what DB[k] read (ten calls precede the reads). -/
def Obligations.RawReadCycleCompletes : Prop :=
  ∀ s : State, s.pbe.port.noFail 19 →
    ∃ Q v, exec .rawrd s = .next { s with pbe := { s.pbe with rdr := v, port := Q } } ∧
      (∀ k : Fin 8, v.getLsbD k.val =
        (drawLevel (s.pbe.port.peek (10 + (s.pbe.port.peekOrder 1).idxOf k))).toBool) ∧
      Q.trace = s.pbe.port.trace ++
        (readGroup (s.pbe.port.peekOrder 0) (s.pbe.port.peekOrder 1) .low
          (fun k => drawLevel (s.pbe.port.peek (10 + (s.pbe.port.peekOrder 1).idxOf k)))).tail ∧
      s.pbe.port.Took Q 19 2 ∧ Q.ph = s.pbe.port.ph ∧ Q.err = s.pbe.port.err ∧ Q.errPin = s.pbe.port.errPin ∧
      ∀ p, Q.pin p = if p = .rs then s.pbe.port.pin .rs else pinsAfterRead .low (s.pbe.port.pin p) p

/-- R105, R125, R188: if the k-th pin call of a one-transaction operation fails, the trace is the events before it, `Fail` of
its pin and `End` with PIN_FAULT; STATUS.ERR and ERRPIN say so, and the engine is IDLE. -/
def Obligations.PinFaultCutsTheTransaction : Prop :=
  ∀ (i : Instr) (body : List Event) (k : Nat) (s : State), s.pbe.port.transaction i = some body →
    s.pbe.port.ph = .idle → k < 20 → s.pbe.port.failsAt k →
    ∃ t p, exec i s = .next t ∧ callPin k body = some p ∧
      t.pbe.port.trace = s.pbe.port.trace ++ [.beginOp i] ++ beforeCall k body ++ [.fail p, .endOp i .pinFault .none] ∧
      t.pbe.port.err = .pinFault ∧ t.pbe.port.errPin = p ∧ t.pbe.port.ph = .idle ∧ t.srl = s.srl ∧ t.requests = s.requests

/-- R25, R121, R125: RDR is written in step 6 of the read cycle, before Enable falls, so if the call that lowers Enable fails, RDR
holds the sampled byte, bit i what DB[i] read. That RDR is as it was if an earlier call fails, also one of the eight reads of
step 6, is no rule's words but the model's deduction (log 19); so is it that STATUS.RESULT is as it was, from R125's "a read
cycle that faults returns no byte". Everything else but the port is unchanged. -/
def Obligations.ReadFaultLeavesTheSampledByte : Prop :=
  ∀ (i : Instr) (rs : Level) (k : Nat) (s : State), busRead i = some rs → s.pbe.port.ph = .idle → k < 20 →
    s.pbe.port.failsAt k →
    ∃ Q v, exec i s = .next { s with pbe := { s.pbe with rdr := v, port := Q } } ∧ Q.err = .pinFault ∧ Q.ph = .idle ∧
      (k < 19 → v = s.pbe.rdr) ∧
      (k = 19 → ∀ j : Fin 8, v.getLsbD j.val = (s.pbe.port.readLevel 0 (s.pbe.port.peekOrder 1) j).toBool)

/-- R22, R214: whenever a step of PBE drives Enable high, RW is low and all eight data pins are outputs, or RW is high and all
eight are inputs. The invariant says of a state inside a cycle that its earlier lines have been executed. -/
def Obligations.DataPinsTurnedBeforeEnableRises : Prop :=
  ∀ s t : State, s.Inv → step s = .next t →
    ∃ new, t.pbe.port.trace = s.pbe.port.trace ++ new ∧
      ∀ pre post, new = pre ++ outEv .e .high :: post →
        (recordAfter .rw (s.pbe.port.pin .rw) pre = some ⟨.output, .known .low⟩ ∧
            ∀ i, ∃ v, recordAfter (.db i) (s.pbe.port.pin (.db i)) pre = some ⟨.output, v⟩) ∨
          (recordAfter .rw (s.pbe.port.pin .rw) pre = some ⟨.output, .known .high⟩ ∧
            ∀ i, recordAfter (.db i) (s.pbe.port.pin (.db i)) pre = some ⟨.input, .unknown⟩)

/-- D7 (R106): the order of a vector step is a permutation of the eight data pins, and every permutation is possible. -/
def Obligations.EveryOrderOfTheDataPinsIsPossible : Prop :=
  ∀ o : List (Fin 8), (∃ n, pinOrder n = o) ↔ o.Perm [0, 1, 2, 3, 4, 5, 6, 7]

/-! ### WAITRDY and PUTS -/

/-- R131: if the first poll reads BF clear, WAITRDY returns at once: one read cycle, no poll delay. -/
def Obligations.WaitrdyReturnsIfReady : Prop :=
  ∀ s : State, s.pbe.port.ph = .idle → s.pbe.port.noFail 20 → s.pbe.port.readyFor 1 →
    ∃ Q v, exec .waitrdy s = .next { s with pbe := { s.pbe with rdr := v, result := v, port := Q } } ∧
      (∀ k : Fin 8, v.getLsbD k.val = (s.pbe.port.readLevel 0 (s.pbe.port.peekOrder 1) k).toBool) ∧
      s.pbe.port.Completed Q .waitrdy
        (readGroup (s.pbe.port.peekOrder 0) (s.pbe.port.peekOrder 1) .low
          (s.pbe.port.readLevel 0 (s.pbe.port.peekOrder 1))) 20 2 .none ∧
      ∀ p, Q.pin p = pinsAfterRead .low (s.pbe.port.pin p) p

/-- R131, R28: if the first poll reads BF set, POLLCNT is 0 and PH stands at the head of the poll loop; the operation has not
ended. -/
def Obligations.WaitrdyWaitsIfBusy : Prop :=
  ∀ s : State, s.pbe.port.ph = .idle → s.pbe.port.noFail 20 →
    s.pbe.port.readLevel 0 (s.pbe.port.peekOrder 1) 7 = .high →
    ∃ Q v, exec .waitrdy s = .next { s with pbe := { s.pbe with rdr := v, result := v, pollcnt := 0, port := Q } } ∧
      (∀ k : Fin 8, v.getLsbD k.val = (s.pbe.port.readLevel 0 (s.pbe.port.peekOrder 1) k).toBool) ∧
      s.pbe.port.Waits Q .waitrdy .pollLoop ([.beginOp .waitrdy] ++
        readGroup (s.pbe.port.peekOrder 0) (s.pbe.port.peekOrder 1) .low
          (s.pbe.port.readLevel 0 (s.pbe.port.peekOrder 1))) 20 2 ∧
      ∀ p, Q.pin p = pinsAfterRead .low (s.pbe.port.pin p) p

/-- R131: in the poll loop of WAITRDY, a poll that reads BF clear ends the operation OK, also when it is the last the bound
allows: the poll delay, one read cycle, `End`. -/
def Obligations.PollEndsWhenReady : Prop :=
  ∀ s : State, s.nextAgent = .pbe → s.pbe.port.ph = .busy .waitrdy .pollLoop → s.pbe.port.noFail 20 →
    s.pbe.port.readyFor 1 →
    ∃ Q v, step s = .next { s with turns := s.turns.tail, turned := s.turned + 1,
                                   pbe := { s.pbe with rdr := v, result := v, pollcnt := s.pbe.pollcnt + 1, port := Q } } ∧
      (∀ k : Fin 8, v.getLsbD k.val = (s.pbe.port.readLevel 0 (s.pbe.port.peekOrder 1) k).toBool) ∧
      s.pbe.port.Ends Q .waitrdy .ok ([.delay .tPOLL] ++
        readGroup (s.pbe.port.peekOrder 0) (s.pbe.port.peekOrder 1) .low
          (s.pbe.port.readLevel 0 (s.pbe.port.peekOrder 1))) 20 2 ∧
      ∀ p, Q.pin p = pinsAfterRead .low (s.pbe.port.pin p) p

/-- R131, R182, R189: in the poll loop of WAITRDY or PUTS, a busy poll that brings POLLCNT to POLL_LIMIT raises
PROTOCOL_TIMEOUT: ERR is 2, ERRPIN is not touched, `End` carries the error, PH is IDLE, the pins are as a completed status read
leaves them, and the characters not yet written stay unwritten (WDR and the position of TXT are unchanged). STATUS.RESULT is any
byte: nothing else is recorded (log 13). -/
def Obligations.PollLimitRaisesProtocolTimeout : Prop :=
  ∀ (s : State) (i : Instr) (n : Nat), (i = .waitrdy ∨ ∃ t, i = .puts t) → s.nextAgent = .pbe →
    s.pbe.port.ph = .busy i .pollLoop → s.pbe.port.noFail 20 →
    s.pbe.port.readLevel 0 (s.pbe.port.peekOrder 1) 7 = .high →
    s.pbe.cfg.pollLimit = some n → n ≤ s.pbe.pollcnt + 1 →
    ∃ Q v w, step s = .next { s with turns := s.turns.tail, turned := s.turned + 1,
                                     pbe := { s.pbe with rdr := v, result := w, pollcnt := s.pbe.pollcnt + 1, port := Q } } ∧
      statusBF v = true ∧ Q.err.code = 2 ∧
      s.pbe.port.Ends Q i .protocolTimeout ([.delay .tPOLL] ++
        readGroup (s.pbe.port.peekOrder 0) (s.pbe.port.peekOrder 1) .low
          (s.pbe.port.readLevel 0 (s.pbe.port.peekOrder 1))) 20 2 ∧
      ∀ p, Q.pin p = pinsAfterRead .low (s.pbe.port.pin p) p

/-- R131, R222: in the poll loop, a busy poll that does not reach the bound, or any busy poll when there is none, leaves the
engine at the loop's head with POLLCNT one more. -/
def Obligations.PollGoesOnWhileBusy : Prop :=
  ∀ (s : State) (i : Instr), (i = .waitrdy ∨ ∃ t, i = .puts t) → s.nextAgent = .pbe →
    s.pbe.port.ph = .busy i .pollLoop → s.pbe.port.noFail 20 →
    s.pbe.port.readLevel 0 (s.pbe.port.peekOrder 1) 7 = .high →
    (∀ n, s.pbe.cfg.pollLimit = some n → s.pbe.pollcnt + 1 < n) →
    ∃ Q v, step s = .next { s with turns := s.turns.tail, turned := s.turned + 1,
                                   pbe := { s.pbe with rdr := v, result := v, pollcnt := s.pbe.pollcnt + 1, port := Q } } ∧
      statusBF v = true ∧
      s.pbe.port.Waits Q i .pollLoop ([.delay .tPOLL] ++
        readGroup (s.pbe.port.peekOrder 0) (s.pbe.port.peekOrder 1) .low
          (s.pbe.port.readLevel 0 (s.pbe.port.peekOrder 1))) 20 2 ∧
      ∀ p, Q.pin p = pinsAfterRead .low (s.pbe.port.pin p) p

/-- R131, R230: WAITRDY whose first poll and the next m - 1 additional polls read busy and whose m-th additional poll reads ready,
with m at most POLL_LIMIT if there is one, is at the head of the poll loop before each of its m turns and has ended OK after
the last: m + 1 polls, 20 (m + 1) pin calls, and m times 40 us and m + 1 times 1000 ns requested. -/
def Obligations.WaitrdyReturnsAtTheFirstReadyPoll : Prop :=
  ∀ (s : State) (m : Nat), s.pbe.port.ph = .idle → (∀ n, s.pbe.cfg.pollLimit = some n → m ≤ n) →
    s.pbe.port.noFail (20 * (m + 1)) →
    (∀ k, k < m → s.pbe.port.readLevel (20 * k) (s.pbe.port.peekOrder (2 * k + 1)) 7 = .high) →
    s.pbe.port.readLevel (20 * m) (s.pbe.port.peekOrder (2 * m + 1)) 7 = .low →
    ∃ t new, exec .waitrdy s = .next t ∧
      (∀ k, k < m → (t.pbe.turnsOn k).port.ph = .busy .waitrdy .pollLoop) ∧
      s.pbe.port.Ends (t.pbe.turnsOn m).port .waitrdy .ok ([.beginOp .waitrdy] ++ new) (20 * (m + 1)) (2 * (m + 1)) ∧
      new.count (outEv .e .high) = m + 1 ∧ new.count (.delay .tPOLL) = m ∧ pinCalls new = 20 * (m + 1) ∧
      requestedNs new = m * 40000 + (m + 1) * 1000

/-- R131, R182, R230: WAITRDY with POLL_LIMIT n whose first poll and n additional polls all read busy is at the head of the poll
loop before each of its n turns and has ended with PROTOCOL_TIMEOUT after the last: n + 1 polls in all. -/
def Obligations.WaitrdyTimesOut : Prop :=
  ∀ (s : State) (n : Nat), s.pbe.port.ph = .idle → s.pbe.cfg.pollLimit = some n → 1 ≤ n →
    s.pbe.port.noFail (20 * (n + 1)) →
    (∀ k, k ≤ n → s.pbe.port.readLevel (20 * k) (s.pbe.port.peekOrder (2 * k + 1)) 7 = .high) →
    ∃ t new, exec .waitrdy s = .next t ∧
      (∀ k, k < n → (t.pbe.turnsOn k).port.ph = .busy .waitrdy .pollLoop) ∧
      s.pbe.port.Ends (t.pbe.turnsOn n).port .waitrdy .protocolTimeout ([.beginOp .waitrdy] ++ new) (20 * (n + 1))
        (2 * (n + 1)) ∧
      (t.pbe.turnsOn n).pollcnt = n ∧
      new.count (outEv .e .high) = n + 1 ∧ new.count (.delay .tPOLL) = n ∧ pinCalls new = 20 * (n + 1) ∧
      requestedNs new = n * 40000 + (n + 1) * 1000

/-- R143: PUTS on a module that is ready at every first poll writes every character of the text, first to last, its code
unchanged, each after one status read; the empty text emits nothing between its markers. -/
def Obligations.PutsWritesEveryCharacter : Prop :=
  ∀ (t : List Nat) (cs : List Byte) (s : State), textBytes t = some cs → s.pbe.port.ph = .idle →
    s.pbe.port.noFail (40 * cs.length) → s.pbe.port.readyFor cs.length →
    ∃ Q v w, exec (.puts t) s = .next { s with pbe := { s.pbe with
        wdr := cs.getLast?.getD s.pbe.wdr, rdr := v, result := w, txt := ⟨cs, cs.length⟩, port := Q } } ∧
      s.pbe.port.Completed Q (.puts t) (s.pbe.port.putsEvents cs) (40 * cs.length) (4 * cs.length) .none ∧
      ∀ p, Q.pin p = (cs.getLast?.elim (s.pbe.port.pin p) (fun c => pinsAfterWrite .high c (s.pbe.port.pin p) p))

/-- R143, R131: PUTS on a module that is ready for the first j characters and busy at the first poll of the next writes those j,
and waits at the poll loop of the next with POLLCNT 0 and TXT's position j (which counts the characters written: log 26). -/
def Obligations.PutsWaitsIfBusy : Prop :=
  ∀ (t : List Nat) (cs : List Byte) (j : Nat) (s : State), textBytes t = some cs → j < cs.length →
    s.pbe.port.ph = .idle → s.pbe.port.noFail (40 * j + 20) → s.pbe.port.readyFor j →
    s.pbe.port.readLevel (40 * j) (s.pbe.port.peekOrder (4 * j + 1)) 7 = .high →
    ∃ Q v, exec (.puts t) s = .next { s with pbe := { s.pbe with
        wdr := (cs.take j).getLast?.getD s.pbe.wdr, rdr := v, result := v, pollcnt := 0, txt := ⟨cs, j⟩, port := Q } } ∧
      statusBF v = true ∧
      s.pbe.port.Waits Q (.puts t) .pollLoop ([.beginOp (.puts t)] ++ s.pbe.port.putsEvents (cs.take j) ++
        readGroup (s.pbe.port.peekOrder (4 * j)) (s.pbe.port.peekOrder (4 * j + 1)) .low
          (s.pbe.port.readLevel (40 * j) (s.pbe.port.peekOrder (4 * j + 1)))) (40 * j + 20)
        (4 * j + 2) ∧
      ∀ p, Q.pin p = pinsAfterRead .low (s.pbe.port.pin p) p

/-- R143, R131: PUTS waiting at a character, when this poll and the first poll of every later character read ready, writes that
character and all after it, and ends OK. TXT's position counts the characters written (log 26). -/
def Obligations.PutsGoesOnWhenReady : Prop :=
  ∀ (t : List Nat) (cs : List Byte) (s : State), s.nextAgent = .pbe → s.pbe.port.ph = .busy (.puts t) .pollLoop →
    s.pbe.txt.chars.drop s.pbe.txt.pos = cs → cs ≠ [] →
    s.pbe.port.noFail (40 * cs.length) → s.pbe.port.readyFor cs.length →
    ∃ Q v, step s = .next { s with turns := s.turns.tail, turned := s.turned + 1, pbe := { s.pbe with
        wdr := cs.getLast?.getD s.pbe.wdr, rdr := v, result := v, pollcnt := s.pbe.pollcnt + 1,
        txt := ⟨s.pbe.txt.chars, s.pbe.txt.pos + cs.length⟩, port := Q } } ∧
      s.pbe.port.Ends Q (.puts t) .ok ([.delay .tPOLL] ++ s.pbe.port.putsEvents cs) (40 * cs.length) (4 * cs.length) ∧
      ∀ p, Q.pin p = (cs.getLast?.elim (s.pbe.port.pin p) (fun c => pinsAfterWrite .high c (s.pbe.port.pin p) p))

/-- R143, R131: PUTS waiting at a character, when this poll and the first polls of the next j - 1 characters read ready and that of
the character after them busy, writes j characters and waits at the poll loop of the next with POLLCNT 0 again. TXT's position
counts the characters written (log 26). -/
def Obligations.PutsGoesOnUntilBusy : Prop :=
  ∀ (t : List Nat) (cs : List Byte) (j : Nat) (s : State), s.nextAgent = .pbe →
    s.pbe.port.ph = .busy (.puts t) .pollLoop → s.pbe.txt.chars.drop s.pbe.txt.pos = cs → 1 ≤ j → j < cs.length →
    s.pbe.port.noFail (40 * j + 20) → s.pbe.port.readyFor j →
    s.pbe.port.readLevel (40 * j) (s.pbe.port.peekOrder (4 * j + 1)) 7 = .high →
    ∃ Q v, step s = .next { s with turns := s.turns.tail, turned := s.turned + 1, pbe := { s.pbe with
        wdr := (cs.take j).getLast?.getD s.pbe.wdr, rdr := v, result := v, pollcnt := 0,
        txt := ⟨s.pbe.txt.chars, s.pbe.txt.pos + j⟩, port := Q } } ∧
      statusBF v = true ∧
      s.pbe.port.Waits Q (.puts t) .pollLoop ([.delay .tPOLL] ++ s.pbe.port.putsEvents (cs.take j) ++
        readGroup (s.pbe.port.peekOrder (4 * j)) (s.pbe.port.peekOrder (4 * j + 1)) .low
          (s.pbe.port.readLevel (40 * j) (s.pbe.port.peekOrder (4 * j + 1)))) (40 * j + 20)
        (4 * j + 2) ∧
      ∀ p, Q.pin p = pinsAfterRead .low (s.pbe.port.pin p) p

/-! ### The segment loader -/

/-- R110, R112, R183: LOOKUP returns the pattern of the active table, the custom table's alone when there is one, else the default
table's: a listed character's pattern when the table is in its canonical form, and 0x00 for a character the table does not list;
it touches nothing else. -/
def Obligations.LookupReadsTheActiveTable : Prop :=
  ∀ (c : Byte) (s : State),
    ∃ v, exec (.lookup c) s = .next { s with srl := { s.srl with romOut := v } } ∧
      ∀ m, (s.srl.cfg.customTable = some m ∨ (s.srl.cfg.customTable = none ∧ m = s.srl.cfg.defaultTable)) →
        v = m.read c.toNat ∧ (∀ p, m.wf = true → (c.toNat, p) ∈ m → v = p) ∧ ((∀ x ∈ m, x.1 ≠ c.toNat) → v = 0)

/-- R111: under the default table as reset leaves it, every character that is no printable ASCII digit or letter reads 0. -/
def Obligations.DefaultTableIsBlankOutsideDigitsAndLetters : Prop :=
  ∀ c : Byte, ¬ ((0x30 ≤ c.toNat ∧ c.toNat ≤ 0x39) ∨ (0x41 ≤ c.toNat ∧ c.toNat ≤ 0x5A) ∨ (0x61 ≤ c.toNat ∧ c.toNat ≤ 0x7A)) →
    State.reset.srl.cfg.defaultTable.read c.toNat = 0

/-- R161, R84, R89: ENCODE returns the closed form of R161, leaves ACC and STATUS.RESULT holding it, makes no pin call and emits
only its markers. -/
def Obligations.EncodeReturnsTheDisplayWord : Prop :=
  ∀ (t : List Nat) (cs : List Byte) (s : State), textBytes t = some cs → s.srl.port.ph = .idle →
    ∃ Q d x o, exec (.encode t) s = .next { s with srl := { s.srl with
        acc := displayWord s.srl.cfg cs, result := displayWord s.srl.cfg cs, dpf := d, txt := x, romOut := o, port := Q } } ∧
      s.srl.port.Completed Q (.encode t) [] 0 0 (.word (displayWord s.srl.cfg cs)) ∧
      Q.pins = s.srl.port.pins ∧ Q.sample = s.srl.port.sample

/-- R160, R57: RAWDISP emits S(bits): 32 times DIN and a clock pulse, then one latch pulse; afterwards DIN holds bit 31, CLK and
LATCH are low, no indicator is touched, SR holds the operand and BITCNT is 32. -/
def Obligations.RawdispShiftsTheWord : Prop :=
  ∀ (w : Word) (s : State), s.srl.port.ph = .idle → s.srl.port.noFail 98 →
    ∃ Q, exec (.rawdisp w) s = .next { s with srl := { s.srl with sr := w, bitcnt := 32, port := Q } } ∧
      s.srl.port.Completed Q (.rawdisp w) (serialGroup w) 98 0 .none ∧ Q.sample = s.srl.port.sample ∧
      ∀ p, Q.pin p = pinsAfterSerial w (s.srl.port.pin p) p

/-- R53, R160: what DIN holds at the falling edges of CLK during a completed RAWDISP is the word, least significant bit first. -/
def Obligations.SerialBitsAreLeastSignificantFirst : Prop :=
  ∀ (w : Word) (s : State) (d : PinLevel), s.srl.port.ph = .idle → s.srl.port.noFail 98 →
    ∃ t new, exec (.rawdisp w) s = .next t ∧ t.srl.port.trace = s.srl.port.trace ++ new ∧
      clockedBits d new = (List.range 32).map (fun k => .known (if w.getLsbD k then .high else .low))

/-- R165, R230: the counts of a completed RAWDISP, whatever the word: 32 clock pulses, one latch pulse, 32 DIN settings, 66
delays of T_SR, 98 pin calls. -/
def Obligations.RawdispCounts : Prop :=
  ∀ (w : Word) (s : State), s.srl.port.ph = .idle → s.srl.port.noFail 98 →
    ∃ t new, exec (.rawdisp w) s = .next t ∧ t.srl.port.trace = s.srl.port.trace ++ new ∧
      new.count (outEv .clk .high) = 32 ∧ new.count (outEv .clk .low) = 32 ∧
      new.count (outEv .latch .high) = 1 ∧ new.count (outEv .latch .low) = 1 ∧
      new.count (outEv .din .high) + new.count (outEv .din .low) = 32 ∧
      new.count (.delay .tSR) = 66 ∧ pinCalls new = 98

/-- R160, R188: if the k-th of the 98 pin calls of RAWDISP fails, the trace is the events before it, `Fail` of its pin and `End`
with PIN_FAULT; STATUS.ERR and ERRPIN say so, the engine is IDLE, and the pins are as the events before it leave them. -/
def Obligations.PinFaultCutsTheSerialLoad : Prop :=
  ∀ (w : Word) (k : Nat) (s : State), s.srl.port.ph = .idle → k < 98 → s.srl.port.failsAt k →
    ∃ t p, exec (.rawdisp w) s = .next t ∧ callPin k (serialGroup w) = some p ∧
      t.srl.port.trace = s.srl.port.trace ++ [.beginOp (.rawdisp w)] ++ beforeCall k (serialGroup w) ++
        [.fail p, .endOp (.rawdisp w) .pinFault .none] ∧
      t.srl.port.err = .pinFault ∧ t.srl.port.errPin = p ∧ t.srl.port.ph = .idle ∧ t.pbe = s.pbe ∧
      ∀ q, t.srl.port.pin q = recordAfter q (s.srl.port.pin q) (beforeCall k (serialGroup w))

/-- R162: DISPLAY sends the word ENCODE returns, whole, as RAWDISP sends it. -/
def Obligations.DisplaySendsTheEncodedWord : Prop :=
  ∀ (t : List Nat) (cs : List Byte) (s : State), textBytes t = some cs → s.srl.port.ph = .idle → s.srl.port.noFail 98 →
    ∃ Q d x o, exec (.display t) s = .next { s with srl := { s.srl with
        acc := displayWord s.srl.cfg cs, result := displayWord s.srl.cfg cs, dpf := d, txt := x, romOut := o,
        sr := displayWord s.srl.cfg cs, bitcnt := 32, port := Q } } ∧
      s.srl.port.Completed Q (.display t) (serialGroup (displayWord s.srl.cfg cs)) 98 0 .none ∧
      Q.sample = s.srl.port.sample ∧ ∀ p, Q.pin p = pinsAfterSerial (displayWord s.srl.cfg cs) (s.srl.port.pin p) p

/-- R163, R107, R24: CLRALL sends the word 0, then drives Cursor, Colon and Degree low in that order, each only if it is wired;
an absent one makes no call. -/
def Obligations.ClrallBlanksThenClearsTheIndicators : Prop :=
  ∀ (s : State) (n : Nat), s.srl.port.ph = .idle →
    n = 98 + s.srl.cfg.hasCur.toNat + s.srl.cfg.hasCol.toNat + s.srl.cfg.hasDeg.toNat → s.srl.port.noFail n →
    ∃ Q, exec .clrall s = .next { s with srl := { s.srl with sr := 0, bitcnt := 32, port := Q } } ∧
      s.srl.port.Completed Q .clrall
        (serialGroup 0 ++ (if s.srl.cfg.hasCur then [outEv .cur .low] else []) ++
          (if s.srl.cfg.hasCol then [outEv .col .low] else []) ++ (if s.srl.cfg.hasDeg then [outEv .deg .low] else [])) n 0
        .none ∧
      Q.sample = s.srl.port.sample ∧
      ∀ p, Q.pin p =
        if (p = .cur ∧ s.srl.cfg.hasCur = true) ∨ (p = .col ∧ s.srl.cfg.hasCol = true) ∨ (p = .deg ∧ s.srl.cfg.hasDeg = true)
        then some ⟨.output, .known .low⟩ else pinsAfterSerial 0 (s.srl.port.pin p) p

/-- R23: SRL never puts a pin in input mode and never reads one. -/
def Obligations.LoaderOnlyDrives : Prop :=
  ∀ s t : State, step s = .next t →
    ∃ new, t.srl.port.trace = s.srl.port.trace ++ new ∧ ∀ p v, .inp p ∉ new ∧ .read p v ∉ new

/-- R164, D20: the windows of DEMO are the sixteen rotations of the hexadecimal digits, four at a time. -/
def Obligations.DemoWindowsAreTheSixteenRotations : Prop :=
  ∀ k : Fin 16, (demoWindow k).length = 4 ∧ ∀ j : Fin 4, (demoWindow k)[j.val]? =
    ([0x30, 0x31, 0x32, 0x33, 0x34, 0x35, 0x36, 0x37, 0x38, 0x39, 0x41, 0x42, 0x43, 0x44, 0x45, 0x46] : List Byte)[(k.val + j.val) % 16]?

/-- R164, R186: DEMO with CANCEL raised at entry, or found raised at its first check, displays the window "0123", lets one tick
pass and ends OK. -/
def Obligations.DemoEndsAtTheFirstCheckThatFindsCancel : Prop :=
  ∀ (c : Bool) (s : State), s.srl.cfg.hasDemo = true → s.srl.port.ph = .idle → s.srl.port.noFail 98 →
    (c = true ∨ s.srl.nextCancel = true) →
    ∃ Q d x o, exec (.demo c) s = .next { s with srl := { s.srl with
        acc := displayWord s.srl.cfg (demoWindow 0), result := displayWord s.srl.cfg (demoWindow 0), dpf := d, txt := x,
        romOut := o, sr := displayWord s.srl.cfg (demoWindow 0), bitcnt := 32, win := 0, cancel := true,
        cancels := s.srl.cancels.tail, cancelled := s.srl.cancelled + 1, port := Q } } ∧
      s.srl.port.Completed Q (.demo c)
        (serialGroup (displayWord s.srl.cfg (demoWindow 0)) ++ [.delay .tTICK]) 98 0 .none ∧
      ∀ p, Q.pin p = pinsAfterSerial (displayWord s.srl.cfg (demoWindow 0)) (s.srl.port.pin p) p

/-- R164: DEMO whose first check does not find CANCEL has displayed "0123" and stands at the head of its loop with WIN = 1. -/
def Obligations.DemoStartsAtWindowZero : Prop :=
  ∀ s : State, s.srl.cfg.hasDemo = true → s.srl.port.ph = .idle → s.srl.port.noFail 98 → s.srl.nextCancel = false →
    ∃ Q d x o, exec (.demo false) s = .next { s with srl := { s.srl with
        acc := displayWord s.srl.cfg (demoWindow 0), result := displayWord s.srl.cfg (demoWindow 0), dpf := d, txt := x,
        romOut := o, sr := displayWord s.srl.cfg (demoWindow 0), bitcnt := 32, win := 1, cancel := false,
        cancels := s.srl.cancels.tail, cancelled := s.srl.cancelled + 1, port := Q } } ∧
      s.srl.port.Waits Q (.demo false) .tickLoop ([.beginOp (.demo false)] ++
        serialGroup (displayWord s.srl.cfg (demoWindow 0)) ++ [.delay .tTICK]) 98 0 ∧
      ∀ p, Q.pin p = pinsAfterSerial (displayWord s.srl.cfg (demoWindow 0)) (s.srl.port.pin p) p

/-- R164, R186: a turn of DEMO's loop displays the window at WIN and waits one tick; if the check finds CANCEL raised, DEMO ends
OK with WIN as it was, else WIN is one more modulo 16 and DEMO stands at the loop's head. -/
def Obligations.DemoLoopTurn : Prop :=
  ∀ (s : State) (c : Bool) (w : Word), s.nextAgent = .srl → s.srl.port.ph = .busy (.demo c) .tickLoop →
    s.srl.port.noFail 98 → w = displayWord s.srl.cfg (demoWindow s.srl.win) →
    ∃ Q d x o k, step s = .next { s with turns := s.turns.tail, turned := s.turned + 1, srl := { s.srl with
        acc := w, result := w, dpf := d, txt := x, romOut := o, sr := w, bitcnt := 32, win := k,
        cancel := s.srl.cancel || s.srl.nextCancel, cancels := s.srl.cancels.tail, cancelled := s.srl.cancelled + 1,
        port := Q } } ∧
      (∀ p, Q.pin p = pinsAfterSerial w (s.srl.port.pin p) p) ∧
      (if s.srl.cancel || s.srl.nextCancel then
        k = s.srl.win ∧ s.srl.port.Ends Q (.demo c) .ok (serialGroup w ++ [.delay .tTICK]) 98 0
      else
        k.val = (s.srl.win.val + 1) % 16 ∧
          s.srl.port.Waits Q (.demo c) .tickLoop (serialGroup w ++ [.delay .tTICK]) 98 0)

/-- R200: DEMO is refused when HAS_DEMO = 0. That a busy engine, which refuses too, refuses under this name is the model's
ranking (log 18). -/
def Obligations.DemoAbsentIsRefused : Prop :=
  ∀ (c : Bool) (s : State), s.srl.cfg.hasDemo = false → exec (.demo c) s = .refused .demoAbsent

/-! ### Requested time -/

/-- R124, R230: a completed one-transaction operation requests 1000 ns in 20 pin calls, RAWDISP 66000 ns. -/
def Obligations.RequestedTimes : Prop :=
  (∀ (i : Instr) (body : List Event) (s : State), s.pbe.port.transaction i = some body → s.pbe.port.ph = .idle →
    s.pbe.port.noFail 20 →
    ∃ t new, exec i s = .next t ∧ t.pbe.port.trace = s.pbe.port.trace ++ new ∧ requestedNs new = 1000 ∧ pinCalls new = 20) ∧
  (∀ (w : Word) (s : State), s.srl.port.ph = .idle → s.srl.port.noFail 98 →
    ∃ t new, exec (.rawdisp w) s = .next t ∧ t.srl.port.trace = s.srl.port.trace ++ new ∧ requestedNs new = 66000)
end

