-- ==== Sys2Proof/Laws/State.lean ====
section
/-! SUPPORT. What each named update of a port leaves in each field, so that no later proof unfolds a record update. -/

namespace Sys2Proof.Machine

variable (P : Port)

/-! Port.emit -/

@[simp] theorem Port.emit_owner (ev : Event) : (P.emit ev).owner = P.owner := rfl
@[simp] theorem Port.emit_ph (ev : Event) : (P.emit ev).ph = P.ph := rfl
@[simp] theorem Port.emit_err (ev : Event) : (P.emit ev).err = P.err := rfl
@[simp] theorem Port.emit_errPin (ev : Event) : (P.emit ev).errPin = P.errPin := rfl
@[simp] theorem Port.emit_pins (ev : Event) : (P.emit ev).pins = P.pins := rfl
@[simp] theorem Port.emit_sample (ev : Event) : (P.emit ev).sample = P.sample := rfl
@[simp] theorem Port.emit_draws (ev : Event) : (P.emit ev).draws = P.draws := rfl
@[simp] theorem Port.emit_drawn (ev : Event) : (P.emit ev).drawn = P.drawn := rfl
@[simp] theorem Port.emit_orders (ev : Event) : (P.emit ev).orders = P.orders := rfl
@[simp] theorem Port.emit_ordered (ev : Event) : (P.emit ev).ordered = P.ordered := rfl
@[simp] theorem Port.emit_trace (ev : Event) : (P.emit ev).trace = P.trace ++ [ev] := rfl

/-! Port.answered -/

@[simp] theorem Port.answered_owner : (P.answered).owner = P.owner := rfl
@[simp] theorem Port.answered_ph : (P.answered).ph = P.ph := rfl
@[simp] theorem Port.answered_err : (P.answered).err = P.err := rfl
@[simp] theorem Port.answered_errPin : (P.answered).errPin = P.errPin := rfl
@[simp] theorem Port.answered_pins : (P.answered).pins = P.pins := rfl
@[simp] theorem Port.answered_sample : (P.answered).sample = P.sample := rfl
@[simp] theorem Port.answered_draws : (P.answered).draws = P.draws.tail := rfl
@[simp] theorem Port.answered_drawn : (P.answered).drawn = P.drawn + 1 := rfl
@[simp] theorem Port.answered_orders : (P.answered).orders = P.orders := rfl
@[simp] theorem Port.answered_ordered : (P.answered).ordered = P.ordered := rfl
@[simp] theorem Port.answered_trace : (P.answered).trace = P.trace := rfl

/-! Port.setPin -/

@[simp] theorem Port.setPin_owner (p : Pin) (r : PinRec) : (P.setPin p r).owner = P.owner := rfl
@[simp] theorem Port.setPin_ph (p : Pin) (r : PinRec) : (P.setPin p r).ph = P.ph := rfl
@[simp] theorem Port.setPin_err (p : Pin) (r : PinRec) : (P.setPin p r).err = P.err := rfl
@[simp] theorem Port.setPin_errPin (p : Pin) (r : PinRec) : (P.setPin p r).errPin = P.errPin := rfl
@[simp] theorem Port.setPin_pins (p : Pin) (r : PinRec) : (P.setPin p r).pins = setRec P.pins p r := rfl
@[simp] theorem Port.setPin_sample (p : Pin) (r : PinRec) : (P.setPin p r).sample = P.sample := rfl
@[simp] theorem Port.setPin_draws (p : Pin) (r : PinRec) : (P.setPin p r).draws = P.draws := rfl
@[simp] theorem Port.setPin_drawn (p : Pin) (r : PinRec) : (P.setPin p r).drawn = P.drawn := rfl
@[simp] theorem Port.setPin_orders (p : Pin) (r : PinRec) : (P.setPin p r).orders = P.orders := rfl
@[simp] theorem Port.setPin_ordered (p : Pin) (r : PinRec) : (P.setPin p r).ordered = P.ordered := rfl
@[simp] theorem Port.setPin_trace (p : Pin) (r : PinRec) : (P.setPin p r).trace = P.trace := rfl

/-! Port.orderTaken -/

@[simp] theorem Port.orderTaken_owner : (P.orderTaken).owner = P.owner := rfl
@[simp] theorem Port.orderTaken_ph : (P.orderTaken).ph = P.ph := rfl
@[simp] theorem Port.orderTaken_err : (P.orderTaken).err = P.err := rfl
@[simp] theorem Port.orderTaken_errPin : (P.orderTaken).errPin = P.errPin := rfl
@[simp] theorem Port.orderTaken_pins : (P.orderTaken).pins = P.pins := rfl
@[simp] theorem Port.orderTaken_sample : (P.orderTaken).sample = P.sample := rfl
@[simp] theorem Port.orderTaken_draws : (P.orderTaken).draws = P.draws := rfl
@[simp] theorem Port.orderTaken_drawn : (P.orderTaken).drawn = P.drawn := rfl
@[simp] theorem Port.orderTaken_orders : (P.orderTaken).orders = P.orders.tail := rfl
@[simp] theorem Port.orderTaken_ordered : (P.orderTaken).ordered = P.ordered + 1 := rfl
@[simp] theorem Port.orderTaken_trace : (P.orderTaken).trace = P.trace := rfl

/-! Port.refusedBy -/

@[simp] theorem Port.refusedBy_owner (p : Pin) : (P.refusedBy p).owner = P.owner := rfl
@[simp] theorem Port.refusedBy_ph (p : Pin) : (P.refusedBy p).ph = P.ph := rfl
@[simp] theorem Port.refusedBy_err (p : Pin) : (P.refusedBy p).err = P.err := rfl
@[simp] theorem Port.refusedBy_errPin (p : Pin) : (P.refusedBy p).errPin = P.errPin := rfl
@[simp] theorem Port.refusedBy_pins (p : Pin) : (P.refusedBy p).pins = P.pins := rfl
@[simp] theorem Port.refusedBy_sample (p : Pin) : (P.refusedBy p).sample = P.sample := rfl
@[simp] theorem Port.refusedBy_draws (p : Pin) : (P.refusedBy p).draws = P.draws.tail := rfl
@[simp] theorem Port.refusedBy_drawn (p : Pin) : (P.refusedBy p).drawn = P.drawn + 1 := rfl
@[simp] theorem Port.refusedBy_orders (p : Pin) : (P.refusedBy p).orders = P.orders := rfl
@[simp] theorem Port.refusedBy_ordered (p : Pin) : (P.refusedBy p).ordered = P.ordered := rfl
@[simp] theorem Port.refusedBy_trace (p : Pin) : (P.refusedBy p).trace = P.trace ++ [.fail p] := rfl

/-! Port.beginOp -/

@[simp] theorem Port.beginOp_owner (i : Instr) : (P.beginOp i).owner = P.owner := rfl
@[simp] theorem Port.beginOp_ph (i : Instr) : (P.beginOp i).ph = .busy i (firstStep i) := rfl
@[simp] theorem Port.beginOp_err (i : Instr) : (P.beginOp i).err = P.err := rfl
@[simp] theorem Port.beginOp_errPin (i : Instr) : (P.beginOp i).errPin = P.errPin := rfl
@[simp] theorem Port.beginOp_pins (i : Instr) : (P.beginOp i).pins = P.pins := rfl
@[simp] theorem Port.beginOp_sample (i : Instr) : (P.beginOp i).sample = P.sample := rfl
@[simp] theorem Port.beginOp_draws (i : Instr) : (P.beginOp i).draws = P.draws := rfl
@[simp] theorem Port.beginOp_drawn (i : Instr) : (P.beginOp i).drawn = P.drawn := rfl
@[simp] theorem Port.beginOp_orders (i : Instr) : (P.beginOp i).orders = P.orders := rfl
@[simp] theorem Port.beginOp_ordered (i : Instr) : (P.beginOp i).ordered = P.ordered := rfl
@[simp] theorem Port.beginOp_trace (i : Instr) : (P.beginOp i).trace = P.trace ++ [.beginOp i] := rfl

/-! Port.sampled -/

@[simp] theorem Port.sampled_owner (p : Pin) (l : Level) : (P.sampled p l).owner = P.owner := by cases p <;> rfl
@[simp] theorem Port.sampled_ph (p : Pin) (l : Level) : (P.sampled p l).ph = P.ph := by cases p <;> rfl
@[simp] theorem Port.sampled_err (p : Pin) (l : Level) : (P.sampled p l).err = P.err := by cases p <;> rfl
@[simp] theorem Port.sampled_errPin (p : Pin) (l : Level) : (P.sampled p l).errPin = P.errPin := by cases p <;> rfl
@[simp] theorem Port.sampled_pins (p : Pin) (l : Level) : (P.sampled p l).pins = P.pins := by cases p <;> rfl
@[simp] theorem Port.sampled_draws (p : Pin) (l : Level) : (P.sampled p l).draws = P.draws := by cases p <;> rfl
@[simp] theorem Port.sampled_drawn (p : Pin) (l : Level) : (P.sampled p l).drawn = P.drawn := by cases p <;> rfl
@[simp] theorem Port.sampled_orders (p : Pin) (l : Level) : (P.sampled p l).orders = P.orders := by cases p <;> rfl
@[simp] theorem Port.sampled_ordered (p : Pin) (l : Level) : (P.sampled p l).ordered = P.ordered := by cases p <;> rfl
@[simp] theorem Port.sampled_trace (p : Pin) (l : Level) : (P.sampled p l).trace = P.trace := by cases p <;> rfl
@[simp] theorem Port.sampled_sample_db (i : Fin 8) (l : Level) :
    (P.sampled (.db i) l).sample = setBit P.sample i l.toBool := rfl

/-! The updates of a turn -/

@[simp] theorem State.turnTaken_pbe (s : State) : s.turnTaken.pbe = s.pbe := rfl
@[simp] theorem State.turnTaken_srl (s : State) : s.turnTaken.srl = s.srl := rfl
@[simp] theorem State.turnTaken_requests (s : State) : s.turnTaken.requests = s.requests := rfl
@[simp] theorem State.turnTaken_requested (s : State) : s.turnTaken.requested = s.requested := rfl
@[simp] theorem State.turnTaken_turns (s : State) : s.turnTaken.turns = s.turns.tail := rfl
@[simp] theorem State.turnTaken_turned (s : State) : s.turnTaken.turned = s.turned + 1 := rfl

@[simp] theorem State.supplied_pbe (s : State) : s.supplied.pbe = s.pbe := by rw [State.supplied]; split <;> rfl
@[simp] theorem State.supplied_srl (s : State) : s.supplied.srl = s.srl := by rw [State.supplied]; split <;> rfl
@[simp] theorem State.supplied_turns (s : State) : s.supplied.turns = s.turns := by rw [State.supplied]; split <;> rfl
@[simp] theorem State.supplied_turned (s : State) : s.supplied.turned = s.turned := by rw [State.supplied]; split <;> rfl

/-! The updates of SRL -/

@[simp] theorem Srl.takeChar_port (e : Srl) : e.takeChar.port = e.port := rfl
@[simp] theorem Srl.takeChar_cfg (e : Srl) : e.takeChar.cfg = e.cfg := rfl
@[simp] theorem Srl.takeChar_acc (e : Srl) : e.takeChar.acc = e.acc := rfl
@[simp] theorem Srl.takeChar_dpf (e : Srl) : e.takeChar.dpf = e.dpf := rfl
@[simp] theorem Srl.takeChar_sr (e : Srl) : e.takeChar.sr = e.sr := rfl
@[simp] theorem Srl.takeChar_bitcnt (e : Srl) : e.takeChar.bitcnt = e.bitcnt := rfl
@[simp] theorem Srl.takeChar_win (e : Srl) : e.takeChar.win = e.win := rfl
@[simp] theorem Srl.takeChar_txt (e : Srl) : e.takeChar.txt = ⟨e.txt.chars, e.txt.pos - 1⟩ := rfl
@[simp] theorem Srl.takeChar_result (e : Srl) : e.takeChar.result = e.result := rfl
@[simp] theorem Srl.takeChar_romOut (e : Srl) : e.takeChar.romOut = e.romOut := rfl
@[simp] theorem Srl.takeChar_cancel (e : Srl) : e.takeChar.cancel = e.cancel := rfl
@[simp] theorem Srl.takeChar_cancels (e : Srl) : e.takeChar.cancels = e.cancels := rfl
@[simp] theorem Srl.takeChar_cancelled (e : Srl) : e.takeChar.cancelled = e.cancelled := rfl

@[simp] theorem Srl.setDpf_port (e : Srl) : e.setDpf.port = e.port := rfl
@[simp] theorem Srl.setDpf_cfg (e : Srl) : e.setDpf.cfg = e.cfg := rfl
@[simp] theorem Srl.setDpf_acc (e : Srl) : e.setDpf.acc = e.acc := rfl
@[simp] theorem Srl.setDpf_dpf (e : Srl) : e.setDpf.dpf = true := rfl
@[simp] theorem Srl.setDpf_sr (e : Srl) : e.setDpf.sr = e.sr := rfl
@[simp] theorem Srl.setDpf_bitcnt (e : Srl) : e.setDpf.bitcnt = e.bitcnt := rfl
@[simp] theorem Srl.setDpf_win (e : Srl) : e.setDpf.win = e.win := rfl
@[simp] theorem Srl.setDpf_txt (e : Srl) : e.setDpf.txt = e.txt := rfl
@[simp] theorem Srl.setDpf_result (e : Srl) : e.setDpf.result = e.result := rfl
@[simp] theorem Srl.setDpf_romOut (e : Srl) : e.setDpf.romOut = e.romOut := rfl
@[simp] theorem Srl.setDpf_cancel (e : Srl) : e.setDpf.cancel = e.cancel := rfl
@[simp] theorem Srl.setDpf_cancels (e : Srl) : e.setDpf.cancels = e.cancels := rfl
@[simp] theorem Srl.setDpf_cancelled (e : Srl) : e.setDpf.cancelled = e.cancelled := rfl

@[simp] theorem Srl.addDot_port (e : Srl) : e.addDot.port = e.port := rfl
@[simp] theorem Srl.addDot_cfg (e : Srl) : e.addDot.cfg = e.cfg := rfl
@[simp] theorem Srl.addDot_acc (e : Srl) : e.addDot.acc = e.acc + 1 := rfl
@[simp] theorem Srl.addDot_dpf (e : Srl) : e.addDot.dpf = e.dpf := rfl
@[simp] theorem Srl.addDot_sr (e : Srl) : e.addDot.sr = e.sr := rfl
@[simp] theorem Srl.addDot_bitcnt (e : Srl) : e.addDot.bitcnt = e.bitcnt := rfl
@[simp] theorem Srl.addDot_win (e : Srl) : e.addDot.win = e.win := rfl
@[simp] theorem Srl.addDot_txt (e : Srl) : e.addDot.txt = e.txt := rfl
@[simp] theorem Srl.addDot_result (e : Srl) : e.addDot.result = e.result := rfl
@[simp] theorem Srl.addDot_romOut (e : Srl) : e.addDot.romOut = e.romOut := rfl
@[simp] theorem Srl.addDot_cancel (e : Srl) : e.addDot.cancel = e.cancel := rfl
@[simp] theorem Srl.addDot_cancels (e : Srl) : e.addDot.cancels = e.cancels := rfl
@[simp] theorem Srl.addDot_cancelled (e : Srl) : e.addDot.cancelled = e.cancelled := rfl

@[simp] theorem Srl.clearDpf_port (e : Srl) : e.clearDpf.port = e.port := rfl
@[simp] theorem Srl.clearDpf_cfg (e : Srl) : e.clearDpf.cfg = e.cfg := rfl
@[simp] theorem Srl.clearDpf_acc (e : Srl) : e.clearDpf.acc = e.acc := rfl
@[simp] theorem Srl.clearDpf_dpf (e : Srl) : e.clearDpf.dpf = false := rfl
@[simp] theorem Srl.clearDpf_sr (e : Srl) : e.clearDpf.sr = e.sr := rfl
@[simp] theorem Srl.clearDpf_bitcnt (e : Srl) : e.clearDpf.bitcnt = e.bitcnt := rfl
@[simp] theorem Srl.clearDpf_win (e : Srl) : e.clearDpf.win = e.win := rfl
@[simp] theorem Srl.clearDpf_txt (e : Srl) : e.clearDpf.txt = e.txt := rfl
@[simp] theorem Srl.clearDpf_result (e : Srl) : e.clearDpf.result = e.result := rfl
@[simp] theorem Srl.clearDpf_romOut (e : Srl) : e.clearDpf.romOut = e.romOut := rfl
@[simp] theorem Srl.clearDpf_cancel (e : Srl) : e.clearDpf.cancel = e.cancel := rfl
@[simp] theorem Srl.clearDpf_cancels (e : Srl) : e.clearDpf.cancels = e.cancels := rfl
@[simp] theorem Srl.clearDpf_cancelled (e : Srl) : e.clearDpf.cancelled = e.cancelled := rfl

@[simp] theorem Srl.holdText_port (e : Srl) (cs : List Byte) : (Srl.holdText cs e).port = e.port := rfl
@[simp] theorem Srl.holdText_cfg (e : Srl) (cs : List Byte) : (Srl.holdText cs e).cfg = e.cfg := rfl
@[simp] theorem Srl.holdText_acc (e : Srl) (cs : List Byte) : (Srl.holdText cs e).acc = e.acc := rfl
@[simp] theorem Srl.holdText_dpf (e : Srl) (cs : List Byte) : (Srl.holdText cs e).dpf = e.dpf := rfl
@[simp] theorem Srl.holdText_sr (e : Srl) (cs : List Byte) : (Srl.holdText cs e).sr = e.sr := rfl
@[simp] theorem Srl.holdText_bitcnt (e : Srl) (cs : List Byte) : (Srl.holdText cs e).bitcnt = e.bitcnt := rfl
@[simp] theorem Srl.holdText_win (e : Srl) (cs : List Byte) : (Srl.holdText cs e).win = e.win := rfl
@[simp] theorem Srl.holdText_txt (e : Srl) (cs : List Byte) : (Srl.holdText cs e).txt = ⟨cs, cs.length⟩ := rfl
@[simp] theorem Srl.holdText_result (e : Srl) (cs : List Byte) : (Srl.holdText cs e).result = e.result := rfl
@[simp] theorem Srl.holdText_romOut (e : Srl) (cs : List Byte) : (Srl.holdText cs e).romOut = e.romOut := rfl
@[simp] theorem Srl.holdText_cancel (e : Srl) (cs : List Byte) : (Srl.holdText cs e).cancel = e.cancel := rfl
@[simp] theorem Srl.holdText_cancels (e : Srl) (cs : List Byte) : (Srl.holdText cs e).cancels = e.cancels := rfl
@[simp] theorem Srl.holdText_cancelled (e : Srl) (cs : List Byte) : (Srl.holdText cs e).cancelled = e.cancelled := rfl

@[simp] theorem Srl.clearAcc_port (e : Srl) : e.clearAcc.port = e.port := rfl
@[simp] theorem Srl.clearAcc_cfg (e : Srl) : e.clearAcc.cfg = e.cfg := rfl
@[simp] theorem Srl.clearAcc_acc (e : Srl) : e.clearAcc.acc = 0 := rfl
@[simp] theorem Srl.clearAcc_dpf (e : Srl) : e.clearAcc.dpf = false := rfl
@[simp] theorem Srl.clearAcc_sr (e : Srl) : e.clearAcc.sr = e.sr := rfl
@[simp] theorem Srl.clearAcc_bitcnt (e : Srl) : e.clearAcc.bitcnt = e.bitcnt := rfl
@[simp] theorem Srl.clearAcc_win (e : Srl) : e.clearAcc.win = e.win := rfl
@[simp] theorem Srl.clearAcc_txt (e : Srl) : e.clearAcc.txt = e.txt := rfl
@[simp] theorem Srl.clearAcc_result (e : Srl) : e.clearAcc.result = e.result := rfl
@[simp] theorem Srl.clearAcc_romOut (e : Srl) : e.clearAcc.romOut = e.romOut := rfl
@[simp] theorem Srl.clearAcc_cancel (e : Srl) : e.clearAcc.cancel = e.cancel := rfl
@[simp] theorem Srl.clearAcc_cancels (e : Srl) : e.clearAcc.cancels = e.cancels := rfl
@[simp] theorem Srl.clearAcc_cancelled (e : Srl) : e.clearAcc.cancelled = e.cancelled := rfl

@[simp] theorem Srl.keepResult_port (e : Srl) : e.keepResult.port = e.port := rfl
@[simp] theorem Srl.keepResult_cfg (e : Srl) : e.keepResult.cfg = e.cfg := rfl
@[simp] theorem Srl.keepResult_acc (e : Srl) : e.keepResult.acc = e.acc := rfl
@[simp] theorem Srl.keepResult_dpf (e : Srl) : e.keepResult.dpf = e.dpf := rfl
@[simp] theorem Srl.keepResult_sr (e : Srl) : e.keepResult.sr = e.sr := rfl
@[simp] theorem Srl.keepResult_bitcnt (e : Srl) : e.keepResult.bitcnt = e.bitcnt := rfl
@[simp] theorem Srl.keepResult_win (e : Srl) : e.keepResult.win = e.win := rfl
@[simp] theorem Srl.keepResult_txt (e : Srl) : e.keepResult.txt = e.txt := rfl
@[simp] theorem Srl.keepResult_result (e : Srl) : e.keepResult.result = e.acc := rfl
@[simp] theorem Srl.keepResult_romOut (e : Srl) : e.keepResult.romOut = e.romOut := rfl
@[simp] theorem Srl.keepResult_cancel (e : Srl) : e.keepResult.cancel = e.cancel := rfl
@[simp] theorem Srl.keepResult_cancels (e : Srl) : e.keepResult.cancels = e.cancels := rfl
@[simp] theorem Srl.keepResult_cancelled (e : Srl) : e.keepResult.cancelled = e.cancelled := rfl

@[simp] theorem Srl.addPattern_port (e : Srl) : e.addPattern.port = e.port := rfl
@[simp] theorem Srl.addPattern_cfg (e : Srl) : e.addPattern.cfg = e.cfg := rfl
@[simp] theorem Srl.addPattern_acc (e : Srl) : e.addPattern.acc = (e.acc <<< 8) + e.romOut.zeroExtend 32 := rfl
@[simp] theorem Srl.addPattern_dpf (e : Srl) : e.addPattern.dpf = e.dpf := rfl
@[simp] theorem Srl.addPattern_sr (e : Srl) : e.addPattern.sr = e.sr := rfl
@[simp] theorem Srl.addPattern_bitcnt (e : Srl) : e.addPattern.bitcnt = e.bitcnt := rfl
@[simp] theorem Srl.addPattern_win (e : Srl) : e.addPattern.win = e.win := rfl
@[simp] theorem Srl.addPattern_txt (e : Srl) : e.addPattern.txt = e.txt := rfl
@[simp] theorem Srl.addPattern_result (e : Srl) : e.addPattern.result = e.result := rfl
@[simp] theorem Srl.addPattern_romOut (e : Srl) : e.addPattern.romOut = e.romOut := rfl
@[simp] theorem Srl.addPattern_cancel (e : Srl) : e.addPattern.cancel = e.cancel := rfl
@[simp] theorem Srl.addPattern_cancels (e : Srl) : e.addPattern.cancels = e.cancels := rfl
@[simp] theorem Srl.addPattern_cancelled (e : Srl) : e.addPattern.cancelled = e.cancelled := rfl

@[simp] theorem Srl.lookup_port (e : Srl) (c : Byte) : (e.lookup c).port = e.port := rfl
@[simp] theorem Srl.lookup_cfg (e : Srl) (c : Byte) : (e.lookup c).cfg = e.cfg := rfl
@[simp] theorem Srl.lookup_acc (e : Srl) (c : Byte) : (e.lookup c).acc = e.acc := rfl
@[simp] theorem Srl.lookup_dpf (e : Srl) (c : Byte) : (e.lookup c).dpf = e.dpf := rfl
@[simp] theorem Srl.lookup_sr (e : Srl) (c : Byte) : (e.lookup c).sr = e.sr := rfl
@[simp] theorem Srl.lookup_bitcnt (e : Srl) (c : Byte) : (e.lookup c).bitcnt = e.bitcnt := rfl
@[simp] theorem Srl.lookup_win (e : Srl) (c : Byte) : (e.lookup c).win = e.win := rfl
@[simp] theorem Srl.lookup_txt (e : Srl) (c : Byte) : (e.lookup c).txt = e.txt := rfl
@[simp] theorem Srl.lookup_result (e : Srl) (c : Byte) : (e.lookup c).result = e.result := rfl
@[simp] theorem Srl.lookup_romOut (e : Srl) (c : Byte) : (e.lookup c).romOut = e.cfg.pattern c := rfl
@[simp] theorem Srl.lookup_cancel (e : Srl) (c : Byte) : (e.lookup c).cancel = e.cancel := rfl
@[simp] theorem Srl.lookup_cancels (e : Srl) (c : Byte) : (e.lookup c).cancels = e.cancels := rfl
@[simp] theorem Srl.lookup_cancelled (e : Srl) (c : Byte) : (e.lookup c).cancelled = e.cancelled := rfl

@[simp] theorem Srl.sampleCancel_port (e : Srl) : e.sampleCancel.port = e.port := rfl
@[simp] theorem Srl.sampleCancel_cfg (e : Srl) : e.sampleCancel.cfg = e.cfg := rfl
@[simp] theorem Srl.sampleCancel_acc (e : Srl) : e.sampleCancel.acc = e.acc := rfl
@[simp] theorem Srl.sampleCancel_dpf (e : Srl) : e.sampleCancel.dpf = e.dpf := rfl
@[simp] theorem Srl.sampleCancel_sr (e : Srl) : e.sampleCancel.sr = e.sr := rfl
@[simp] theorem Srl.sampleCancel_bitcnt (e : Srl) : e.sampleCancel.bitcnt = e.bitcnt := rfl
@[simp] theorem Srl.sampleCancel_win (e : Srl) : e.sampleCancel.win = e.win := rfl
@[simp] theorem Srl.sampleCancel_txt (e : Srl) : e.sampleCancel.txt = e.txt := rfl
@[simp] theorem Srl.sampleCancel_result (e : Srl) : e.sampleCancel.result = e.result := rfl
@[simp] theorem Srl.sampleCancel_romOut (e : Srl) : e.sampleCancel.romOut = e.romOut := rfl
@[simp] theorem Srl.sampleCancel_cancel (e : Srl) : e.sampleCancel.cancel = (e.cancel || e.nextCancel) := rfl
@[simp] theorem Srl.sampleCancel_cancels (e : Srl) : e.sampleCancel.cancels = e.cancels.tail := rfl
@[simp] theorem Srl.sampleCancel_cancelled (e : Srl) : e.sampleCancel.cancelled = e.cancelled + 1 := rfl

/-! The updates of PBE -/

@[simp] theorem Pbe.keepResult_port (e : Pbe) : e.keepResult.port = e.port := rfl
@[simp] theorem Pbe.keepResult_cfg (e : Pbe) : e.keepResult.cfg = e.cfg := rfl
@[simp] theorem Pbe.keepResult_wdr (e : Pbe) : e.keepResult.wdr = e.wdr := rfl
@[simp] theorem Pbe.keepResult_rdr (e : Pbe) : e.keepResult.rdr = e.rdr := rfl
@[simp] theorem Pbe.keepResult_pollcnt (e : Pbe) : e.keepResult.pollcnt = e.pollcnt := rfl
@[simp] theorem Pbe.keepResult_txt (e : Pbe) : e.keepResult.txt = e.txt := rfl
@[simp] theorem Pbe.keepResult_result (e : Pbe) : e.keepResult.result = e.rdr := rfl

@[simp] theorem Pbe.passChar_port (e : Pbe) : e.passChar.port = e.port := rfl
@[simp] theorem Pbe.passChar_cfg (e : Pbe) : e.passChar.cfg = e.cfg := rfl
@[simp] theorem Pbe.passChar_wdr (e : Pbe) : e.passChar.wdr = e.wdr := rfl
@[simp] theorem Pbe.passChar_rdr (e : Pbe) : e.passChar.rdr = e.rdr := rfl
@[simp] theorem Pbe.passChar_pollcnt (e : Pbe) : e.passChar.pollcnt = e.pollcnt := rfl
@[simp] theorem Pbe.passChar_txt (e : Pbe) : e.passChar.txt = ⟨e.txt.chars, e.txt.pos + 1⟩ := rfl
@[simp] theorem Pbe.passChar_result (e : Pbe) : e.passChar.result = e.result := rfl

@[simp] theorem Pbe.takeTimeout_port (e : Pbe) : e.takeTimeout.port = e.port.raise .protocolTimeout := rfl
@[simp] theorem Pbe.takeTimeout_cfg (e : Pbe) : e.takeTimeout.cfg = e.cfg := rfl
@[simp] theorem Pbe.takeTimeout_wdr (e : Pbe) : e.takeTimeout.wdr = e.wdr := rfl
@[simp] theorem Pbe.takeTimeout_rdr (e : Pbe) : e.takeTimeout.rdr = e.rdr := rfl
@[simp] theorem Pbe.takeTimeout_pollcnt (e : Pbe) : e.takeTimeout.pollcnt = e.pollcnt := rfl
@[simp] theorem Pbe.takeTimeout_txt (e : Pbe) : e.takeTimeout.txt = e.txt := rfl
@[simp] theorem Pbe.takeTimeout_result (e : Pbe) : e.takeTimeout.result = Config.freeResult e.port.drawn := rfl

end Sys2Proof.Machine
end

