-- ==== Sys2Proof/Laws/Ops.lean ====
section
/-! SUPPORT. What the shared operations of Machine/Ops.lean can do, said once: the records of pins, the coming answers, one
call, a run of calls that all succeed, a run that stops, and the ends of an operation. -/

namespace Sys2Proof.Machine

/-! ### Records of pins -/

@[simp] theorem recOf_setRec_self (l : List (Pin × PinRec)) (p : Pin) (r : PinRec) : recOf (setRec l p r) p = some r := by
  induction l with
  | nil => simp [setRec, recOf]
  | cons a l ih => obtain ⟨q, x⟩ := a; by_cases h : q = p <;> simp [setRec, recOf, h, ih]

theorem recOf_setRec_other (l : List (Pin × PinRec)) {p q : Pin} (r : PinRec) (h : q ≠ p) :
    recOf (setRec l p r) q = recOf l q := by
  induction l with
  | nil => simp [setRec, recOf, h.symm]
  | cons a l ih =>
    obtain ⟨x, y⟩ := a
    by_cases hx : x = p
    · subst hx; simp [setRec, recOf, h.symm]
    · by_cases hq : x = q
      · subst hq; simp [setRec, recOf, h]
      · simp [setRec, recOf, hx, hq, ih]

theorem recOf_setRec (l : List (Pin × PinRec)) (p q : Pin) (r : PinRec) :
    recOf (setRec l p r) q = if q = p then some r else recOf l q := by
  by_cases h : q = p
  · subst h; simp
  · simp [h, recOf_setRec_other]

/-- Writing a record that exists adds no record. -/
theorem keys_setRec (l : List (Pin × PinRec)) (p : Pin) (r : PinRec) (h : p ∈ l.map Prod.fst) :
    (setRec l p r).map Prod.fst = l.map Prod.fst := by
  induction l with
  | nil => simp at h
  | cons a l ih =>
    obtain ⟨x, y⟩ := a
    by_cases hx : x = p
    · subst hx; simp [setRec]
    · have : p ∈ l.map Prod.fst := by simpa [Ne.symm hx] using h
      simp [setRec, hx, ih this]

/-- A record in the list after a write is the one written or one that was there. -/
theorem mem_setRec {l : List (Pin × PinRec)} {p : Pin} {r : PinRec} {q : Pin × PinRec} (h : q ∈ setRec l p r) :
    q = (p, r) ∨ q ∈ l := by
  induction l with
  | nil => simpa [setRec] using h
  | cons a l ih =>
    obtain ⟨x, y⟩ := a
    by_cases hx : x = p
    · simp [setRec, hx] at h; rcases h with h | h <;> simp [h]
    · simp [setRec, hx] at h
      rcases h with h | h
      · simp [h]
      · rcases ih h with h | h <;> simp [h]

/-! ### The coming answers -/

@[simp] theorem Port.peek_emit (P : Port) (ev : Event) (k : Nat) : (P.emit ev).peek k = P.peek k := rfl
@[simp] theorem Port.peek_setPin (P : Port) (p : Pin) (r : PinRec) (k : Nat) : (P.setPin p r).peek k = P.peek k := rfl
@[simp] theorem Port.peek_orderTaken (P : Port) (k : Nat) : P.orderTaken.peek k = P.peek k := rfl
@[simp] theorem Port.peek_beginOp (P : Port) (i : Instr) (k : Nat) : (P.beginOp i).peek k = P.peek k := rfl
@[simp] theorem Port.peek_sampled (P : Port) (p : Pin) (l : Level) (k : Nat) : (P.sampled p l).peek k = P.peek k := by
  cases p <;> rfl

@[simp] theorem Port.peek_answered (P : Port) (k : Nat) : P.answered.peek k = P.peek (k + 1) := by
  have hn : P.drawn + 1 + k = P.drawn + (k + 1) := by omega
  cases hd : P.draws <;> simp [Port.peek, Port.answered, hd, hn]

@[simp] theorem Port.peekOrder_emit (P : Port) (ev : Event) (k : Nat) : (P.emit ev).peekOrder k = P.peekOrder k := rfl
@[simp] theorem Port.peekOrder_beginOp (P : Port) (i : Instr) (k : Nat) : (P.beginOp i).peekOrder k = P.peekOrder k := rfl

@[simp] theorem Port.peekOrder_orderTaken (P : Port) (k : Nat) : P.orderTaken.peekOrder k = P.peekOrder (k + 1) := by
  have hn : P.ordered + 1 + k = P.ordered + (k + 1) := by omega
  cases ho : P.orders <;> simp [Port.peekOrder, Port.orderTaken, ho, hn]

/-! ### One call -/

/-- How many of some calls are pin calls. -/
def callCount (cs : List Call) : Nat := cs.countP (fun c => c.pin?.isSome)

@[simp] theorem callCount_nil : callCount [] = 0 := rfl
@[simp] theorem callCount_append (a b : List Call) : callCount (a ++ b) = callCount a + callCount b := by
  simp [callCount]
@[simp] theorem callCount_out (p : Pin) (v : PinLevel) (cs : List Call) :
    callCount (.out p v :: cs) = callCount cs + 1 := by simp [callCount, Call.pin?]
@[simp] theorem callCount_drive (p : Pin) (l : Level) (cs : List Call) :
    callCount (drive p l :: cs) = callCount cs + 1 := by simp [drive]
@[simp] theorem callCount_inp (p : Pin) (cs : List Call) : callCount (.inp p :: cs) = callCount cs + 1 := by
  simp [callCount, Call.pin?]
@[simp] theorem callCount_read (p : Pin) (cs : List Call) : callCount (.read p :: cs) = callCount cs + 1 := by
  simp [callCount, Call.pin?]
@[simp] theorem callCount_delay (d : Delay) (cs : List Call) : callCount (.delay d :: cs) = callCount cs := by
  simp [callCount, Call.pin?]

/-- The event of a call that succeeds. -/
def eventOf (P : Port) : Call → Event
  | .out p v => .out p v
  | .inp p => .inp p
  | .read p => .read p (drawLevel (P.peek 0))
  | .delay d => .delay d

variable (P : Port)

@[simp] theorem Port.applied_owner (c : Call) : (P.applied c).owner = P.owner := by cases c <;> simp [Port.applied]
@[simp] theorem Port.applied_ph (c : Call) : (P.applied c).ph = P.ph := by cases c <;> simp [Port.applied]
@[simp] theorem Port.applied_err (c : Call) : (P.applied c).err = P.err := by cases c <;> simp [Port.applied]
@[simp] theorem Port.applied_errPin (c : Call) : (P.applied c).errPin = P.errPin := by cases c <;> simp [Port.applied]
@[simp] theorem Port.applied_orders (c : Call) : (P.applied c).orders = P.orders := by cases c <;> simp [Port.applied]
@[simp] theorem Port.applied_ordered (c : Call) : (P.applied c).ordered = P.ordered := by cases c <;> simp [Port.applied]
@[simp] theorem Port.applied_trace (c : Call) : (P.applied c).trace = P.trace ++ [eventOf P c] := by
  cases c <;> simp [Port.applied, eventOf]

/-- The answers still to come after a call. -/
theorem Port.peek_applied (c : Call) (k : Nat) : (P.applied c).peek k = P.peek (callCount [c] + k) := by
  cases c <;> simp [Port.applied, Nat.add_comm]

/-- How many answers a call takes. -/
theorem Port.applied_drawn (c : Call) : (P.applied c).drawn = P.drawn + callCount [c] := by
  cases c <;> simp [Port.applied]

theorem Port.applied_draws (c : Call) : (P.applied c).draws = P.draws.drop (callCount [c]) := by
  cases c <;> simp [Port.applied]

/-- A call can do two things: succeed, which for a pin call the environment must allow, or fail (R105). -/
theorem Port.call_cases (c : Call) :
    P.call c = .done (P.applied c) ∨ ∃ p, c.pin? = some p ∧ P.peek 0 = .fail ∧ P.call c = .failed (P.refusedBy p) p := by
  cases hc : c.pin? with
  | none => simp [Port.call, hc]
  | some p => cases hp : P.peek 0 <;> simp [Port.call, hc, hp]

theorem Port.call_done (c : Call) (h : c.pin? = none ∨ P.peek 0 ≠ .fail) : P.call c = .done (P.applied c) := by
  rcases P.call_cases c with h' | ⟨p, hp, hf, -⟩
  · exact h'
  · rcases h with h | h
    · simp [hp] at h
    · exact absurd hf h

/-! ### A run of calls -/

/-- The port after calls that all succeed; irreducible, so that no unifier ever runs the calls. -/
@[irreducible] def Port.ran (cs : List Call) : Port := cs.foldl Port.applied P

@[simp] theorem Port.ran_nil : P.ran [] = P := by simp [Port.ran]
theorem Port.ran_cons (c : Call) (cs : List Call) : P.ran (c :: cs) = (P.applied c).ran cs := by simp [Port.ran]
theorem Port.ran_append (a b : List Call) : P.ran (a ++ b) = (P.ran a).ran b := by simp [Port.ran]

theorem Port.run_append (a b : List Call) : P.run (a ++ b) = (P.run a).andThen (fun Q => Q.run b) := by
  induction a generalizing P with
  | nil => rfl
  | cons c a ih =>
    simp only [List.cons_append, Port.run]
    rcases P.call_cases c with h | ⟨p, -, -, h⟩ <;> simp [h, Ran.andThen, ih]

/-- A run of calls can do two things: all calls succeed, or it stops at the first that fails, having done the calls before
it and nothing after it (R105, R125, R188). -/
theorem Port.run_cases (cs : List Call) :
    (P.noFail (callCount cs) ∧ P.run cs = .done (P.ran cs)) ∨
      ∃ pre c post p, cs = pre ++ c :: post ∧ c.pin? = some p ∧ P.failsAt (callCount pre) ∧
        P.run cs = .failed ((P.ran pre).refusedBy p) p := by
  induction cs generalizing P with
  | nil => exact .inl ⟨fun k hk => by simp at hk, by simp [Port.run]⟩
  | cons c cs ih =>
    have hcount : ∀ l : List Call, callCount (c :: l) = callCount [c] + callCount l := fun l => callCount_append [c] l
    have hhead : ∀ k, k < callCount [c] → P.call c = .done (P.applied c) → P.peek k ≠ .fail := by
      intro k hk hcall hf
      cases hc : c.pin? with
      | none => simp [callCount, hc] at hk
      | some p =>
        have hk0 : k = 0 := by simp [callCount, hc] at hk; omega
        subst hk0
        simp [Port.call, hc, hf] at hcall
    rcases P.call_cases c with h | ⟨p, hp, hf, h⟩
    · rcases ih (P.applied c) with ⟨hn, hr⟩ | ⟨pre, d, post, p, rfl, hd, hfa, hr⟩
      · refine .inl ⟨fun k hk => ?_, by simp [Port.run, Port.ran_cons, h, Ran.andThen, hr]⟩
        rw [hcount] at hk
        by_cases hlt : k < callCount [c]
        · exact hhead k hlt h
        · have := hn (k - callCount [c]) (by omega)
          rwa [Port.peek_applied, Nat.add_sub_cancel' (by omega)] at this
      · refine .inr ⟨c :: pre, d, post, p, rfl, hd, ⟨fun k hk => ?_, ?_⟩, by simp [Port.run, Port.ran_cons, h, Ran.andThen, hr]⟩
        · rw [hcount] at hk
          by_cases hlt : k < callCount [c]
          · exact hhead k hlt h
          · have := hfa.1 (k - callCount [c]) (by omega)
            rwa [Port.peek_applied, Nat.add_sub_cancel' (by omega)] at this
        · have := hfa.2
          rwa [Port.peek_applied, ← hcount] at this
    · exact .inr ⟨[], c, cs, p, rfl, hp, ⟨fun k hk => by simp at hk, hf⟩, by simp [Port.run, h, Ran.andThen]⟩

/-- If none of its calls fails, a run does them all. -/
theorem Port.run_noFail (cs : List Call) (h : P.noFail (callCount cs)) : P.run cs = .done (P.ran cs) := by
  rcases P.run_cases cs with ⟨-, hr⟩ | ⟨pre, c, post, p, rfl, hc, hf, -⟩
  · exact hr
  · refine absurd hf.2 (h _ ?_)
    have hpos : 0 < callCount (c :: post) := by simp [callCount, hc]
    simp only [callCount_append]; omega

theorem Port.run_done {cs : List Call} {Q : Port} (h : P.run cs = .done Q) : Q = P.ran cs ∧ P.noFail (callCount cs) := by
  rcases P.run_cases cs with ⟨hn, hr⟩ | ⟨pre, c, post, p, -, -, -, hr⟩
  · rw [hr] at h; cases h; exact ⟨rfl, hn⟩
  · rw [hr] at h; cases h

/-- A run that fails has done the calls before the failing one and emitted `Fail` of its pin. -/
theorem Port.run_failed {cs : List Call} {Q : Port} {p : Pin} (h : P.run cs = .failed Q p) :
    ∃ pre c post, cs = pre ++ c :: post ∧ c.pin? = some p ∧ P.failsAt (callCount pre) ∧ Q = (P.ran pre).refusedBy p := by
  rcases P.run_cases cs with ⟨hn, hr⟩ | ⟨pre, c, post, q, he, hc, hf, hr⟩
  · rw [hr] at h; cases h
  · rw [hr] at h; cases h; exact ⟨pre, c, post, he, hc, hf, rfl⟩

/-- The events of calls that all succeed. -/
def eventsOf : Port → List Call → List Event
  | _, [] => []
  | Q, c :: cs => eventOf Q c :: eventsOf (Q.applied c) cs

@[simp] theorem Port.ran_owner (cs : List Call) : (P.ran cs).owner = P.owner := by
  induction cs generalizing P with
  | nil => simp
  | cons c cs ih => simp [Port.ran_cons, ih]

@[simp] theorem Port.ran_ph (cs : List Call) : (P.ran cs).ph = P.ph := by
  induction cs generalizing P with
  | nil => simp
  | cons c cs ih => simp [Port.ran_cons, ih]

@[simp] theorem Port.ran_err (cs : List Call) : (P.ran cs).err = P.err := by
  induction cs generalizing P with
  | nil => simp
  | cons c cs ih => simp [Port.ran_cons, ih]

@[simp] theorem Port.ran_errPin (cs : List Call) : (P.ran cs).errPin = P.errPin := by
  induction cs generalizing P with
  | nil => simp
  | cons c cs ih => simp [Port.ran_cons, ih]

@[simp] theorem Port.ran_orders (cs : List Call) : (P.ran cs).orders = P.orders := by
  induction cs generalizing P with
  | nil => simp
  | cons c cs ih => simp [Port.ran_cons, ih]

@[simp] theorem Port.ran_ordered (cs : List Call) : (P.ran cs).ordered = P.ordered := by
  induction cs generalizing P with
  | nil => simp
  | cons c cs ih => simp [Port.ran_cons, ih]

/-- Calls that succeed append their events, in order. -/
theorem Port.ran_trace (cs : List Call) : (P.ran cs).trace = P.trace ++ eventsOf P cs := by
  induction cs generalizing P with
  | nil => simp [eventsOf]
  | cons c cs ih => simp [Port.ran_cons, ih, eventsOf]

theorem Port.peek_ran (cs : List Call) (k : Nat) : (P.ran cs).peek k = P.peek (callCount cs + k) := by
  induction cs generalizing P with
  | nil => simp
  | cons c cs ih =>
    have : callCount (c :: cs) = callCount [c] + callCount cs := callCount_append [c] cs
    rw [Port.ran_cons, ih, Port.peek_applied, this, Nat.add_assoc]

theorem Port.ran_drawn (cs : List Call) : (P.ran cs).drawn = P.drawn + callCount cs := by
  induction cs generalizing P with
  | nil => simp
  | cons c cs ih =>
    have : callCount (c :: cs) = callCount [c] + callCount cs := callCount_append [c] cs
    rw [Port.ran_cons, ih, Port.applied_drawn, this, Nat.add_assoc]

theorem Port.ran_draws (cs : List Call) : (P.ran cs).draws = P.draws.drop (callCount cs) := by
  induction cs generalizing P with
  | nil => simp
  | cons c cs ih =>
    have : callCount (c :: cs) = callCount [c] + callCount cs := callCount_append [c] cs
    rw [Port.ran_cons, ih, Port.applied_draws, this, List.drop_drop]

@[simp] theorem Port.peekOrder_ran (cs : List Call) (k : Nat) : (P.ran cs).peekOrder k = P.peekOrder k := by
  simp [Port.peekOrder]

theorem eventsOf_append (a b : List Call) : eventsOf P (a ++ b) = eventsOf P a ++ eventsOf (P.ran a) b := by
  induction a generalizing P with
  | nil => simp [eventsOf]
  | cons c a ih => simp [eventsOf, Port.ran_cons, ih]

/-- The records of the pins follow the events: each `Out` and `In` sets its pin's record, nothing else does (R21). -/
theorem Port.pin_applied (c : Call) (q : Pin) :
    (P.applied c).pin q = recordAfter q (P.pin q) [eventOf P c] := by
  cases c with
  | out p v => by_cases h : q = p <;> simp [Port.applied, Port.pin, recOf_setRec, recordAfter, eventOf, h, eq_comm]
  | inp p => by_cases h : q = p <;> simp [Port.applied, Port.pin, recOf_setRec, recordAfter, eventOf, h, eq_comm]
  | read p => simp [Port.applied, Port.pin, recordAfter, eventOf]
  | delay d => simp [Port.applied, Port.pin, recordAfter, eventOf]

theorem recordAfter_append (q : Pin) (r : Option PinRec) (a b : List Event) :
    recordAfter q r (a ++ b) = recordAfter q (recordAfter q r a) b := by simp [recordAfter]

theorem Port.pin_ran (cs : List Call) (q : Pin) : (P.ran cs).pin q = recordAfter q (P.pin q) (eventsOf P cs) := by
  induction cs generalizing P with
  | nil => simp [eventsOf, recordAfter]
  | cons c cs ih =>
    rw [Port.ran_cons, ih, Port.pin_applied, ← recordAfter_append]; rfl

/-! ### The order of the data pins -/

theorem pickOrder_perm (fuel code : Nat) (left : List (Fin 8)) : (pickOrder fuel code left).Perm left := by
  induction fuel generalizing code left with
  | zero => exact .refl _
  | succ fuel ih =>
    simp only [pickOrder]
    cases h : left[code % left.length]? with
    | none => exact .refl _
    | some i =>
      obtain ⟨hlt, rfl⟩ := List.getElem?_eq_some_iff.1 h
      exact ((ih _ _).cons _).trans (List.getElem_cons_eraseIdx_perm hlt)

/-- An order is a permutation of the eight data pins: each pin has its one call in a vector step (R106). -/
theorem pinOrder_perm (code : Nat) : (pinOrder code).Perm [0, 1, 2, 3, 4, 5, 6, 7] := pickOrder_perm 8 code _

theorem peekOrder_perm (k : Nat) : (P.peekOrder k).Perm [0, 1, 2, 3, 4, 5, 6, 7] := pinOrder_perm _

theorem mem_peekOrder (k : Nat) (i : Fin 8) : i ∈ P.peekOrder k := by
  rw [(peekOrder_perm P k).mem_iff]; fin_cases i <;> simp

theorem nodup_peekOrder (k : Nat) : (P.peekOrder k).Nodup := by
  rw [(peekOrder_perm P k).nodup_iff]; decide

@[simp] theorem length_peekOrder (k : Nat) : (P.peekOrder k).length = 8 := (peekOrder_perm P k).length_eq

/-! ### Calls and orders do not meet -/

theorem Port.applied_orderTaken (c : Call) : P.orderTaken.applied c = (P.applied c).orderTaken := by
  cases c with
  | read p => cases p <;> rfl
  | _ => rfl

/-- Taking an order before calls or after them is the same. -/
theorem Port.ran_orderTaken (cs : List Call) : P.orderTaken.ran cs = (P.ran cs).orderTaken := by
  induction cs generalizing P with
  | nil => simp
  | cons c cs ih => rw [Port.ran_cons, Port.applied_orderTaken, ih, Port.ran_cons]

/-! ### Stopping at a failing call -/

theorem Port.noFail_add {n m : Nat} : P.noFail (n + m) ↔ P.noFail n ∧ ∀ k, k < m → P.peek (n + k) ≠ .fail := by
  refine ⟨fun h => ⟨fun k hk => h k (by omega), fun k hk => h _ (by omega)⟩, fun h k hk => ?_⟩
  by_cases hlt : k < n
  · exact h.1 k hlt
  · have := h.2 (k - n) (by omega)
    rwa [Nat.add_sub_cancel' (by omega)] at this

/-- Two ports that agree on everything but the orders of vector steps. -/
def Port.SameButOrders (P Q : Port) : Prop := Q = { P with orders := Q.orders, ordered := Q.ordered }

theorem Port.SameButOrders.refl : P.SameButOrders P := rfl

theorem Port.SameButOrders.orderTaken : P.SameButOrders P.orderTaken := rfl

theorem Port.SameButOrders.trans {P Q R : Port} (h : P.SameButOrders Q) (k : Q.SameButOrders R) : P.SameButOrders R := by
  unfold Port.SameButOrders at *; rw [k, h]

/-- Calls do the same whatever the orders to come. -/
theorem Port.applied_orders_irrelevant (c : Call) (os : List Nat) (n : Nat) :
    ({ P with orders := os, ordered := n } : Port).applied c = { P.applied c with orders := os, ordered := n } := by
  cases c with
  | read p => cases p <;> rfl
  | _ => rfl

theorem Port.ran_orders_irrelevant (cs : List Call) (os : List Nat) (n : Nat) :
    ({ P with orders := os, ordered := n } : Port).ran cs = { P.ran cs with orders := os, ordered := n } := by
  induction cs generalizing P with
  | nil => simp
  | cons c cs ih => rw [Port.ran_cons, Port.applied_orders_irrelevant, ih, Port.ran_cons]

theorem Port.SameButOrders.ran {P Q : Port} (h : P.SameButOrders Q) (cs : List Call) :
    (P.ran cs).SameButOrders (Q.ran cs) := by
  unfold Port.SameButOrders at *
  rw [h, Port.ran_orders_irrelevant]

theorem Port.SameButOrders.refusedBy {P Q : Port} (h : P.SameButOrders Q) (p : Pin) :
    (P.refusedBy p).SameButOrders (Q.refusedBy p) := by
  unfold Port.SameButOrders at *
  rw [h]; rfl

/-- `Q` is what a run of `cs` on `P` leaves when it stops at a failing call on `p`. -/
def Port.StoppedAt (P : Port) (cs : List Call) (Q : Port) (p : Pin) : Prop :=
  ∃ pre c post, cs = pre ++ c :: post ∧ c.pin? = some p ∧ P.failsAt (callCount pre) ∧
    ((P.ran pre).refusedBy p).SameButOrders Q

theorem Port.stoppedAt_of_run {cs : List Call} {Q : Port} {p : Pin} (h : P.run cs = .failed Q p) : P.StoppedAt cs Q p := by
  obtain ⟨pre, c, post, he, hc, hf, rfl⟩ := P.run_failed h
  exact ⟨pre, c, post, he, hc, hf, .refl _⟩

/-- Stopping in the first part of a sequence. -/
theorem Port.StoppedAt.left {P : Port} {a : List Call} {Q : Port} {p : Pin} (h : P.StoppedAt a Q p) (b : List Call) :
    P.StoppedAt (a ++ b) Q p := by
  obtain ⟨pre, c, post, rfl, hc, hf, hq⟩ := h
  exact ⟨pre, c, post ++ b, by simp, hc, hf, hq⟩

/-- Stopping in the second part, the first having been done. -/
theorem Port.StoppedAt.right {P : Port} {a b : List Call} {R Q : Port} {p : Pin} (hn : P.noFail (callCount a))
    (hr : (P.ran a).SameButOrders R) (h : R.StoppedAt b Q p) : P.StoppedAt (a ++ b) Q p := by
  obtain ⟨pre, c, post, rfl, hc, hf, hq⟩ := h
  have hpeek : ∀ k, R.peek k = P.peek (callCount a + k) := by
    intro k
    rw [← Port.peek_ran]
    unfold Port.SameButOrders at hr
    rw [hr]; rfl
  refine ⟨a ++ pre, c, post, by simp, hc, ⟨?_, ?_⟩, ?_⟩
  · rw [callCount_append, Port.noFail_add]
    exact ⟨hn, fun k hk => hpeek k ▸ hf.1 k hk⟩
  · rw [callCount_append, ← hpeek]; exact hf.2
  · rw [Port.ran_append]
    exact ((hr.ran pre).refusedBy p).trans hq

/-- Where no call fails, nothing stops. -/
theorem Port.StoppedAt.not_noFail {P : Port} {cs : List Call} {Q : Port} {p : Pin} (h : P.StoppedAt cs Q p) :
    ¬ P.noFail (callCount cs) := by
  obtain ⟨pre, c, post, rfl, hc, hf, -⟩ := h
  intro hn
  refine hn _ ?_ hf.2
  have hpos : 0 < callCount (c :: post) := by simp [callCount, hc]
  simp only [callCount_append]; omega

@[simp] theorem Ran.andThen_done {α : Type} (r : Ran α) : r.andThen Ran.done = r := by cases r <;> rfl

/-! ### What the lines of a transaction can do -/

/-- What lines that make the calls `cs` from port `P` on can do: all calls succeed and `good` is left, or they stop at the first
failing call and leave an engine that meets `bad` (R125). -/
def Ran.Did (P : Port) (cs : List Call) (good : Pbe) (bad : Pbe → Prop) (r : Ran Pbe) : Prop :=
  (P.noFail (callCount cs) ∧ r = .done good) ∨ ∃ e p, r = .failed e p ∧ P.StoppedAt cs e.port p ∧ bad e

theorem Ran.Did.andThen {P : Port} {a b : List Call} {g g' : Pbe} {bad : Pbe → Prop} {r : Ran Pbe} {f : Pbe → Ran Pbe}
    (h : r.Did P a g bad) (hs : (P.ran a).SameButOrders g.port) (k : (f g).Did g.port b g' bad) :
    (r.andThen f).Did P (a ++ b) g' bad := by
  rcases h with ⟨hn, rfl⟩ | ⟨e, p, rfl, hst, hb⟩
  · rcases k with ⟨hm, hr⟩ | ⟨e, p, hr, hst, hb⟩
    · refine .inl ⟨?_, hr⟩
      rw [callCount_append, Port.noFail_add]
      refine ⟨hn, fun k hk => ?_⟩
      rw [← Port.peek_ran]
      have := hm k hk
      unfold Port.SameButOrders at hs
      rw [hs] at this; exact this
    · exact .inr ⟨e, p, hr, hst.right hn hs, hb⟩
  · exact .inr ⟨e, p, rfl, hst.left _, hb⟩

theorem Ran.Did.weaken {P : Port} {cs : List Call} {g : Pbe} {bad bad' : Pbe → Prop} {r : Ran Pbe} (h : r.Did P cs g bad)
    (k : ∀ e, bad e → bad' e) : r.Did P cs g bad' := by
  rcases h with h | ⟨e, p, hr, hst, hb⟩
  · exact .inl h
  · exact .inr ⟨e, p, hr, hst, k e hb⟩

theorem Pbe.run_did (e : Pbe) (cs : List Call) {bad : Pbe → Prop} (hb : ∀ Q, bad { e with port := Q }) :
    (e.run cs).Did e.port cs { e with port := e.port.ran cs } bad := by
  rcases hr : e.port.run cs with Q | ⟨Q, p⟩
  · obtain ⟨rfl, hn⟩ := e.port.run_done hr
    exact .inl ⟨hn, by simp [Pbe.run, hr, Ran.map]⟩
  · exact .inr ⟨{ e with port := Q }, p, by simp [Pbe.run, hr, Ran.map], e.port.stoppedAt_of_run hr, hb Q⟩

theorem Pbe.vector_did (e : Pbe) (f : List (Fin 8) → List Call) {bad : Pbe → Prop} (hb : ∀ Q, bad { e with port := Q }) :
    (e.vector f).Did e.port (f (e.port.peekOrder 0))
      { e with port := (e.port.ran (f (e.port.peekOrder 0))).orderTaken } bad := by
  have h := Pbe.run_did { e with port := e.port.orderTaken } (f (e.port.peekOrder 0)) (bad := bad) hb
  rw [← Port.ran_orderTaken]
  rcases h with ⟨hn, hr⟩ | ⟨e', p, hr, hst, hb⟩
  · exact .inl ⟨hn, hr⟩
  · exact .inr ⟨e', p, hr, Port.StoppedAt.right (a := []) (fun k hk => absurd hk (by simp)) (by rw [Port.ran_nil]; exact .orderTaken _) hst, hb⟩

/-! ### The ends of an operation -/

/-- Normal completion of the operation PH names (R184). -/
theorem Port.finish_busy {i : Instr} {a : PhStep} (h : P.ph = .busy i a) (r : OpResult) :
    P.finish r = { P with err := .ok, ph := .idle, trace := P.trace ++ [.endOp i .ok r] } := by
  simp [Port.finish, h, Port.emit]

/-- Taking an exception in the operation PH names (R188, R189). -/
theorem Port.raise_busy {i : Instr} {a : PhStep} (h : P.ph = .busy i a) (c : Cause) :
    P.raise c = { P with err := c.err, errPin := c.errPin P.errPin, ph := .idle, trace := P.trace ++ [.endOp i c.err .none] } := by
  simp [Port.raise, h, Port.emit]

/-- Staying in an operation at a loop's head changes PH alone (R28). -/
theorem Port.stayAt_busy {i : Instr} {a : PhStep} (h : P.ph = .busy i a) (b : PhStep) :
    P.stayAt b = { P with ph := .busy i b } := by simp [Port.stayAt, h]

/-- Every end of an operation leaves the engine idle (R184, R188, R189). -/
theorem Port.finish_ph (r : OpResult) : (P.finish r).ph = .idle := by
  cases h : P.ph <;> simp [Port.finish, h, Port.emit]

theorem Port.raise_ph (c : Cause) : (P.raise c).ph = .idle := by
  cases h : P.ph <;> simp [Port.raise, h, Port.emit]

/-- Neither end touches a pin (R188). -/
theorem Port.finish_pins (r : OpResult) : (P.finish r).pins = P.pins := by
  cases h : P.ph <;> simp [Port.finish, h, Port.emit]

theorem Port.raise_pins (c : Cause) : (P.raise c).pins = P.pins := by
  cases h : P.ph <;> simp [Port.raise, h, Port.emit]

/-- Accepting a request changes the port alone. -/
@[simp] theorem Pbe.begun_port (i : Instr) (e : Pbe) : (e.begun i).port = e.port.beginOp i := rfl
@[simp] theorem Pbe.begun_cfg (i : Instr) (e : Pbe) : (e.begun i).cfg = e.cfg := rfl
@[simp] theorem Srl.begun_port (i : Instr) (e : Srl) : (e.begun i).port = e.port.beginOp i := rfl
@[simp] theorem Srl.begun_cfg (i : Instr) (e : Srl) : (e.begun i).cfg = e.cfg := rfl

/-- A request runs only on an idle engine (R65, R200). -/
theorem pbeRequest_idle {s : State} (h : s.pbe.port.ph = .idle) (i : Instr) (body : Pbe → Pbe) :
    pbeRequest i body s = .next { s with pbe := body (s.pbe.begun i) } := by
  simp [pbeRequest, h]

theorem srlRequest_idle {s : State} (h : s.srl.port.ph = .idle) (i : Instr) (body : Srl → Srl) :
    srlRequest i body s = .next { s with srl := body (s.srl.begun i) } := by
  simp [srlRequest, h]

end Sys2Proof.Machine
end

