-- ==== Sys2Proof/Laws/Cycles.lean ====
section
/-! SUPPORT. What the vector steps, the raw cycles and the transactions of PBE do when no pin call fails: their events, the
records of the pins, the sampled byte, and the registers. -/

namespace Sys2Proof.Machine

variable (P : Port)

/-! ### The vector steps (R106) -/

@[simp] theorem callCount_dbOutMode (o : List (Fin 8)) : callCount (dbOutMode o) = o.length := by
  induction o with
  | nil => rfl
  | cons i o ih => simpa [dbOutMode] using ih

@[simp] theorem callCount_dbDrive (o : List (Fin 8)) (b : Byte) : callCount (dbDrive o b) = o.length := by
  induction o with
  | nil => rfl
  | cons i o ih => simpa [dbDrive] using ih

@[simp] theorem callCount_dbInMode (o : List (Fin 8)) : callCount (dbInMode o) = o.length := by
  induction o with
  | nil => rfl
  | cons i o ih => simpa [dbInMode] using ih

@[simp] theorem callCount_dbSample (o : List (Fin 8)) : callCount (dbSample o) = o.length := by
  induction o with
  | nil => rfl
  | cons i o ih => simpa [dbSample] using ih

@[simp] theorem eventsOf_dbOutMode (o : List (Fin 8)) : eventsOf P (dbOutMode o) = o.map (fun i => .out (.db i) .unknown) := by
  induction o generalizing P with
  | nil => rfl
  | cons i o ih => simpa [dbOutMode, eventsOf, eventOf] using ih _

@[simp] theorem eventsOf_dbDrive (o : List (Fin 8)) (b : Byte) :
    eventsOf P (dbDrive o b) = o.map (fun i => outEv (.db i) (if b.getLsbD i.val then .high else .low)) := by
  induction o generalizing P with
  | nil => rfl
  | cons i o ih =>
    simpa [dbDrive, eventsOf, eventOf, drive, outEv, levelOfBit, Level.ofBool] using ih _

@[simp] theorem eventsOf_dbInMode (o : List (Fin 8)) : eventsOf P (dbInMode o) = o.map (fun i => .inp (.db i)) := by
  induction o generalizing P with
  | nil => rfl
  | cons i o ih => simpa [dbInMode, eventsOf, eventOf] using ih _

/-- The k-th pin in the order reads the k-th answer. -/
theorem eventsOf_dbSample (o : List (Fin 8)) (hn : o.Nodup) :
    eventsOf P (dbSample o) = o.map (fun i => .read (.db i) (drawLevel (P.peek (o.idxOf i)))) := by
  induction o generalizing P with
  | nil => rfl
  | cons i o ih =>
    have hi : i ∉ o := (List.nodup_cons.1 hn).1
    have htail := ih (P.applied (.read (.db i))) (List.nodup_cons.1 hn).2
    simp only [dbSample, List.map_cons, eventsOf, eventOf] at htail ⊢
    rw [htail]
    simp only [List.cons.injEq, List.idxOf_cons_self, true_and]
    refine List.map_congr_left fun j hj => ?_
    have hji : i ≠ j := fun h => hi (h ▸ hj)
    rw [Port.peek_applied, List.idxOf_cons_ne _ hji]
    simp [Nat.add_comm]

theorem getLsbD_setBit (b : Byte) (i j : Fin 8) (v : Bool) :
    (setBit b i v).getLsbD j.val = if i = j then v else b.getLsbD j.val := by
  revert b v; revert i j; intro i j b v
  fin_cases i <;> fin_cases j <;> cases v <;> simp [setBit]

/-- After DBSample in a full order, bit i of the sample is what DB[i] read (R52, R106). -/
theorem sample_ran_dbSample (o : List (Fin 8)) (hn : o.Nodup) (j : Fin 8) :
    ((P.ran (dbSample o)).sample).getLsbD j.val =
      if j ∈ o then (drawLevel (P.peek (o.idxOf j))).toBool else P.sample.getLsbD j.val := by
  induction o generalizing P with
  | nil => simp [dbSample]
  | cons i o ih =>
    have hi : i ∉ o := (List.nodup_cons.1 hn).1
    have := ih (P.applied (.read (.db i))) (List.nodup_cons.1 hn).2
    simp only [dbSample, List.map_cons, Port.ran_cons] at this ⊢
    rw [this]
    by_cases hj : j ∈ o
    · have hji : i ≠ j := fun h => hi (h ▸ hj)
      simp [hj, Port.peek_applied, List.idxOf_cons_ne _ hji, Nat.add_comm]
    · by_cases hij : i = j
      · subst hij
        simp only [hj, if_false, Port.applied, Port.emit_sample, Port.sampled_sample_db, getLsbD_setBit]
        simp
      · simp only [hj, if_false, Port.applied, Port.emit_sample, Port.sampled_sample_db, getLsbD_setBit]
        simp [hij, Ne.symm hij, hj]

/-! ### The records a group of events leaves (R123) -/

theorem recordAfter_map_other (q : Pin) (r : Option PinRec) (o : List (Fin 8)) (f : Fin 8 → Event)
    (h : ∀ i, recordAfter q r [f i] = r) : recordAfter q r (o.map f) = r := by
  induction o with
  | nil => rfl
  | cons i o ih =>
    have := recordAfter_append q r [f i] (o.map f)
    simp only [List.map_cons, List.singleton_append] at this ⊢
    rw [this, h, ih]

theorem recordAfter_map_db (j : Fin 8) (r : Option PinRec) (o : List (Fin 8)) (f : Fin 8 → Event) (x : PinRec)
    (hself : ∀ r, recordAfter (.db j) r [f j] = some x) (hother : ∀ i, i ≠ j → ∀ r, recordAfter (.db j) r [f i] = r)
    (hj : j ∈ o) : recordAfter (.db j) r (o.map f) = some x := by
  induction o generalizing r with
  | nil => simp at hj
  | cons i o ih =>
    have hsplit := recordAfter_append (.db j) r [f i] (o.map f)
    simp only [List.map_cons, List.singleton_append] at hsplit ⊢
    rw [hsplit]
    by_cases hjo : j ∈ o
    · exact ih _ hjo
    · have hij : i = j := by simpa [hjo, eq_comm] using hj
      subst hij
      rw [hself, recordAfter_map_other]
      intro k
      by_cases hk : k = i
      · subst hk; exact hself _
      · exact hother k hk _

/-- The pins after a whole write transaction (R123). -/
theorem recordAfter_writeGroup (o1 o6 : List (Fin 8)) (h6 : ∀ i, i ∈ o6) (rs : Level) (b : Byte) (q : Pin)
    (r : Option PinRec) : recordAfter q r (writeGroup o1 o6 rs b) = pinsAfterWrite rs b r q := by
  simp only [writeGroup, recordAfter_append]
  cases q with
  | db j =>
    rw [recordAfter_map_db j _ o6 _ ⟨.output, .known (if b.getLsbD j.val then .high else .low)⟩ _ _ (h6 j)]
    · simp [recordAfter, outEv, pinsAfterWrite]
    · intro r; simp [recordAfter, outEv]
    · intro i hi r; simp [recordAfter, outEv, hi]
  | _ =>
    rw [recordAfter_map_other _ _ o6, recordAfter_map_other _ _ o1]
    all_goals simp [recordAfter, outEv, pinsAfterWrite]

/-- The pins after a whole read transaction (R123). -/
theorem recordAfter_readGroup (o1 o6 : List (Fin 8)) (h1 : ∀ i, i ∈ o1) (rs : Level) (v : Fin 8 → Level) (q : Pin)
    (r : Option PinRec) : recordAfter q r (readGroup o1 o6 rs v) = pinsAfterRead rs r q := by
  simp only [readGroup, recordAfter_append]
  rw [recordAfter_map_other _ _ o6 _ (by intro i; simp [recordAfter])]
  cases q with
  | db j =>
    rw [recordAfter_map_db j _ o1 _ ⟨.input, .unknown⟩ _ _ (h1 j)]
    · simp [recordAfter, outEv, pinsAfterRead]
    · intro r; simp [recordAfter]
    · intro i hi r; simp [recordAfter, hi]
  | _ =>
    rw [recordAfter_map_other _ _ o1]
    all_goals simp [recordAfter, outEv, pinsAfterRead]

/-! ### The transactions (R122) -/

/-- The calls of the eight steps of RAWWR, in the source's order (R120); `o1`, `o6` are the orders of the data pins in steps 1
and 6. -/
def writeCycle (o1 o6 : List (Fin 8)) (b : Byte) : List Call :=
  dbOutMode o1 ++ ([drive .rw .low] ++ ([.delay .tAS] ++ ([drive .e .high] ++ ([.delay .tDS] ++
    (dbDrive o6 b ++ ([drive .e .low] ++ [.delay .tEND]))))))

/-- The calls of the eight steps of RAWRD (R121). -/
def readCycle (o1 o6 : List (Fin 8)) : List Call :=
  dbInMode o1 ++ ([drive .rw .high] ++ ([.delay .tAS] ++ ([drive .e .high] ++ ([.delay .tDS] ++
    (dbSample o6 ++ ([drive .e .low] ++ [.delay .tEND]))))))

@[simp] theorem callCount_writeCycle (o1 o6 : List (Fin 8)) (b : Byte) :
    callCount (writeCycle o1 o6 b) = o1.length + o6.length + 3 := by
  simp [writeCycle]; omega

@[simp] theorem callCount_readCycle (o1 o6 : List (Fin 8)) :
    callCount (readCycle o1 o6) = o1.length + o6.length + 3 := by
  simp [readCycle]; omega

theorem eventsOf_writeCycle (o1 o6 : List (Fin 8)) (rs : Level) (b : Byte) :
    outEv .rs rs :: eventsOf P (writeCycle o1 o6 b) = writeGroup o1 o6 rs b := by
  simp [writeCycle, writeGroup, eventsOf_append, eventsOf, eventOf, drive, outEv]

theorem eventsOf_readCycle (o1 o6 : List (Fin 8)) (hn : o6.Nodup) (rs : Level) :
    outEv .rs rs :: eventsOf P (readCycle o1 o6) =
      readGroup o1 o6 rs (fun i => drawLevel (P.peek (o1.length + 2 + o6.idxOf i))) := by
  simp only [readCycle, readGroup, eventsOf_append, eventsOf_dbInMode, eventsOf_dbSample _ _ hn, Port.peek_ran,
    callCount_dbInMode]
  simp [eventsOf, eventOf, drive, outEv]
  intro i _; congr 2; omega

/-- The port after a whole raw write cycle. -/
def Port.wroteRaw (b : Byte) : Port := (P.ran (writeCycle (P.peekOrder 0) (P.peekOrder 1) b)).orderTaken.orderTaken

/-- The port after a whole raw read cycle. -/
def Port.didReadRaw : Port := (P.ran (readCycle (P.peekOrder 0) (P.peekOrder 1))).orderTaken.orderTaken

/-- The port after a whole write transaction. -/
def Port.wrote (rs : Level) (b : Byte) : Port := (P.ran [drive .rs rs]).wroteRaw b

/-- The port after a whole read transaction. -/
def Port.didRead (rs : Level) : Port := (P.ran [drive .rs rs]).didReadRaw

/-- Only reads fill the sample (R106). -/
theorem Port.ran_sample_noRead (cs : List Call) (h : ∀ c ∈ cs, ∀ p, c ≠ .read p) : (P.ran cs).sample = P.sample := by
  induction cs generalizing P with
  | nil => simp
  | cons c cs ih =>
    rw [Port.ran_cons, ih _ (fun d hd => h d (by simp [hd]))]
    cases c with
    | read p => exact absurd rfl (h (.read p) (by simp) p)
    | _ => simp [Port.applied]

/-- What a write cycle that stops leaves: WDR and the port. -/
def Pbe.WriteStopped (e : Pbe) (b : Byte) (e' : Pbe) : Prop := e' = { e with wdr := b, port := e'.port }

/-- What a read cycle that stops leaves: the port, and RDR once step 6 is done (R121). -/
def Pbe.ReadStopped (e e' : Pbe) : Prop := e' = { e with port := e'.port } ∨ e' = { e with rdr := e'.port.sample, port := e'.port }

/-- The lines of a raw write cycle: all done, or stopped with WDR written (R120, R125). -/
theorem Pbe.rawWrite_did (e : Pbe) (rs : Level) (b : Byte) :
    (Pbe.cycleLines (.write rs b) (.wdr :: rawSteps) e).Did e.port (writeCycle (e.port.peekOrder 0) (e.port.peekOrder 1) b)
      { e with wdr := b, port := e.port.wroteRaw b } (e.WriteStopped b) := by
  have hb : ∀ Q, e.WriteStopped b { e with wdr := b, port := Q } := fun _ => rfl
  have h9 : ∀ Q : Port, (Ran.done ({ e with wdr := b, port := Q } : Pbe)).Did Q [] { e with wdr := b, port := Q } (e.WriteStopped b) :=
    fun Q => .inl ⟨fun k hk => absurd hk (by simp), rfl⟩
  have h8 := fun Q => (Pbe.run_did { e with wdr := b, port := Q } [.delay .tEND] (bad := e.WriteStopped b) hb).andThen (f := Pbe.cycleLines (.write rs b) [])
    (.refl _) (h9 _)
  have h7 := fun Q => (Pbe.run_did { e with wdr := b, port := Q } [drive .e .low] (bad := e.WriteStopped b) hb).andThen (f := Pbe.cycleLines (.write rs b) [.eight])
    (.refl _) (h8 _)
  have h6 := fun Q => (Pbe.vector_did { e with wdr := b, port := Q } (fun o => dbDrive o b) (bad := e.WriteStopped b) hb).andThen (f := Pbe.cycleLines (.write rs b) [.seven, .eight])
    (.orderTaken _) (h7 _)
  have h5 := fun Q => (Pbe.run_did { e with wdr := b, port := Q } [.delay .tDS] (bad := e.WriteStopped b) hb).andThen (f := Pbe.cycleLines (.write rs b) [.six, .seven, .eight])
    (.refl _) (h6 _)
  have h4 := fun Q => (Pbe.run_did { e with wdr := b, port := Q } [drive .e .high] (bad := e.WriteStopped b) hb).andThen (f := Pbe.cycleLines (.write rs b) [.five, .six, .seven, .eight])
    (.refl _) (h5 _)
  have h3 := fun Q => (Pbe.run_did { e with wdr := b, port := Q } [.delay .tAS] (bad := e.WriteStopped b) hb).andThen (f := Pbe.cycleLines (.write rs b) [.four, .five, .six, .seven, .eight])
    (.refl _) (h4 _)
  have h2 := fun Q => (Pbe.run_did { e with wdr := b, port := Q } [drive .rw .low] (bad := e.WriteStopped b) hb).andThen (f := Pbe.cycleLines (.write rs b) [.three, .four, .five, .six, .seven, .eight])
    (.refl _) (h3 _)
  have h1 := (Pbe.vector_did { e with wdr := b } dbOutMode (bad := e.WriteStopped b) hb).andThen (f := Pbe.cycleLines (.write rs b) [.two, .three, .four, .five, .six, .seven, .eight])
    (.orderTaken _) (h2 _)
  simp only [Port.ran_orderTaken, Port.peekOrder_ran, Port.peekOrder_orderTaken, ← Port.ran_append, List.append_assoc] at h1
  exact h1

/-- The lines of a raw read cycle: all done, or stopped, before step 6 is done with RDR as it was, after it with RDR holding the
sampled byte (R121, R125). -/
theorem Pbe.rawRead_did (e : Pbe) (rs : Level) :
    (Pbe.cycleLines (.read rs) rawSteps e).Did e.port (readCycle (e.port.peekOrder 0) (e.port.peekOrder 1))
      { e with rdr := e.port.didReadRaw.sample, port := e.port.didReadRaw }
      e.ReadStopped := by
  have hb : ∀ Q, e.ReadStopped { e with port := Q } := fun _ => .inl rfl
  have hd : ∀ Q : Port, ∀ cs : List Call, (∀ c ∈ cs, ∀ p, c ≠ .read p) → ∀ r, (Pbe.run { e with rdr := Q.sample, port := Q } cs) = r →
      r.Did Q cs { e with rdr := Q.sample, port := Q.ran cs } e.ReadStopped := by
    rintro Q cs hr r rfl
    have h := Pbe.run_did { e with rdr := Q.sample, port := Q } cs
      (bad := fun e' => e' = { e with rdr := Q.sample, port := e'.port }) (fun _ => rfl)
    rcases h with ⟨hn, h⟩ | ⟨e', p, h, hst, hb'⟩
    · exact .inl ⟨hn, h⟩
    · refine .inr ⟨e', p, h, hst, .inr ?_⟩
      obtain ⟨pre, c, post, rfl, -, -, hq⟩ := hst
      have : e'.port.sample = Q.sample := by
        unfold Port.SameButOrders at hq
        rw [hq]
        show (Q.ran pre).sample = _
        exact Q.ran_sample_noRead _ (fun d hd => hr d (by simp [hd]))
      rw [this]; exact hb'
  have h9 : ∀ Q : Port, (Ran.done ({ e with rdr := Q.sample, port := Q } : Pbe)).Did Q [] { e with rdr := Q.sample, port := Q }
      e.ReadStopped := fun Q => .inl ⟨fun k hk => absurd hk (by simp), rfl⟩
  have h8 : ∀ Q : Port, (Pbe.cycleLines (.read rs) [.eight] { e with rdr := Q.sample, port := Q }).Did Q [.delay .tEND]
      { e with rdr := Q.sample, port := Q.ran [.delay .tEND] } e.ReadStopped := fun Q => by
    have := hd Q [.delay .tEND] (by simp) _ rfl
    rwa [← Ran.andThen_done (Pbe.run _ _)] at this
  have h7 : ∀ Q : Port, (Pbe.cycleLines (.read rs) [.seven, .eight] { e with rdr := Q.sample, port := Q }).Did Q
      ([drive .e .low] ++ [.delay .tEND])
      { e with rdr := Q.sample, port := (Q.ran [drive .e .low]).ran [.delay .tEND] } e.ReadStopped := fun Q =>
    (hd Q [drive .e .low] (by simp [drive]) _ rfl).andThen (f := Pbe.cycleLines (.read rs) [.eight]) (.refl _)
      (by
        have := h8 (Q.ran [drive .e .low])
        rwa [show (Q.ran [drive .e .low]).sample = Q.sample from Q.ran_sample_noRead _ (by simp [drive])] at this)
  have h6 : ∀ Q : Port, (Pbe.sampleStep { e with port := Q }).Did Q (dbSample (Q.peekOrder 0))
      { e with rdr := (Q.ran (dbSample (Q.peekOrder 0))).sample, port := (Q.ran (dbSample (Q.peekOrder 0))).orderTaken }
      e.ReadStopped := by
    intro Q
    rcases Pbe.vector_did { e with port := Q } dbSample (bad := e.ReadStopped) hb with ⟨hn, h⟩ | ⟨e', p, h, hst, hb'⟩
    · exact .inl ⟨hn, by rw [Pbe.sampleStep, h]; rfl⟩
    · exact .inr ⟨e', p, by rw [Pbe.sampleStep, h]; rfl, hst, hb'⟩
  have h6' := fun Q : Port => (h6 Q).andThen (f := Pbe.cycleLines (.read rs) [.seven, .eight]) (.orderTaken _) (h7 _)
  have h5 := fun Q => (Pbe.run_did { e with port := Q } [.delay .tDS] (bad := e.ReadStopped) hb).andThen
    (f := Pbe.cycleLines (.read rs) [.six, .seven, .eight]) (.refl _) (h6' _)
  have h4 := fun Q => (Pbe.run_did { e with port := Q } [drive .e .high] (bad := e.ReadStopped) hb).andThen
    (f := Pbe.cycleLines (.read rs) [.five, .six, .seven, .eight]) (.refl _) (h5 _)
  have h3 := fun Q => (Pbe.run_did { e with port := Q } [.delay .tAS] (bad := e.ReadStopped) hb).andThen
    (f := Pbe.cycleLines (.read rs) [.four, .five, .six, .seven, .eight]) (.refl _) (h4 _)
  have h2 := fun Q => (Pbe.run_did { e with port := Q } [drive .rw .high] (bad := e.ReadStopped) hb).andThen
    (f := Pbe.cycleLines (.read rs) [.three, .four, .five, .six, .seven, .eight]) (.refl _) (h3 _)
  have h1 := (Pbe.vector_did e dbInMode (bad := e.ReadStopped) hb).andThen (f := Pbe.cycleLines (.read rs) [.two, .three, .four, .five, .six, .seven, .eight]) (.orderTaken _) (h2 _)
  have hs : e.port.didReadRaw.sample = (e.port.ran (dbInMode (e.port.peekOrder 0) ++ ([drive .rw .high] ++ ([.delay .tAS] ++
      ([drive .e .high] ++ ([.delay .tDS] ++ dbSample (e.port.peekOrder 1))))))).sample := by
    have : readCycle (e.port.peekOrder 0) (e.port.peekOrder 1) = (dbInMode (e.port.peekOrder 0) ++ ([drive .rw .high] ++
        ([.delay .tAS] ++ ([drive .e .high] ++ ([.delay .tDS] ++ dbSample (e.port.peekOrder 1)))))) ++
          ([drive .e .low] ++ [.delay .tEND]) := by simp [readCycle]
    rw [Port.didReadRaw, this, Port.orderTaken_sample, Port.orderTaken_sample, Port.ran_append,
      Port.ran_sample_noRead _ _ (by simp [drive])]
  rw [hs]
  simp only [Port.ran_orderTaken, Port.peekOrder_ran, Port.peekOrder_orderTaken, ← Port.ran_append, List.append_assoc,
    Port.orderTaken_sample] at h1
  exact h1

/-- A write transaction completes or stops at its first failing call; either way CFG, TXT, RDR, POLLCNT and RESULT stay. -/
theorem Pbe.writeSteps_cases (e : Pbe) (rs : Level) (b : Byte) :
    (e.port.noFail 20 ∧ e.writeSteps rs b = .done { e with wdr := b, port := e.port.wrote rs b }) ∨
      ∃ e' p, e.writeSteps rs b = .failed e' p ∧
        e.port.StoppedAt (drive .rs rs :: writeCycle (e.port.peekOrder 0) (e.port.peekOrder 1) b) e'.port p ∧
        (e' = { e with port := e'.port } ∨ e' = { e with wdr := b, port := e'.port }) := by
  have h := (Pbe.run_did e [drive .rs rs]
    (bad := fun e' => e' = { e with port := e'.port } ∨ e' = { e with wdr := b, port := e'.port }) (fun _ => .inl rfl)).andThen
      (.refl _) ((Pbe.rawWrite_did { e with port := e.port.ran [drive .rs rs] } rs b).weaken (fun _ h => .inr h))
  simp only [Port.peekOrder_ran] at h
  rcases h with ⟨hn, hr⟩ | ⟨e', p, hr, hst, hb⟩
  · refine .inl ⟨?_, hr⟩
    simpa using hn
  · exact .inr ⟨e', p, hr, hst, hb⟩

/-- A read transaction completes or stops at its first failing call; a read that stops writes no register but RDR, and RDR only
once all eight pins are read (R121, R125). -/
theorem Pbe.readSteps_cases (e : Pbe) (rs : Level) :
    (e.port.noFail 20 ∧ e.readSteps rs =
        .done { e with rdr := (e.port.didRead rs).sample, result := (e.port.didRead rs).sample, port := e.port.didRead rs }) ∨
      ∃ e' p, e.readSteps rs = .failed e' p ∧
        e.port.StoppedAt (drive .rs rs :: readCycle (e.port.peekOrder 0) (e.port.peekOrder 1)) e'.port p ∧
        e.ReadStopped e' := by
  have h := (Pbe.run_did e [drive .rs rs] (bad := e.ReadStopped) (fun _ => .inl rfl)).andThen (.refl _) (Pbe.rawRead_did { e with port := e.port.ran [drive .rs rs] } rs)
  simp only [Port.peekOrder_ran] at h
  have hs : e.readSteps rs = ((e.run [drive .rs rs]).andThen (Pbe.cycleLines (.read rs) rawSteps)).andThen
      (fun e' => .done e'.keepResult) := rfl
  rcases h with ⟨hn, hr⟩ | ⟨e', p, hr, hst, hb⟩
  · refine .inl ⟨?_, by rw [hs, hr]; rfl⟩
    simpa using hn
  · exact .inr ⟨e', p, by rw [hs, hr]; rfl, hst, hb⟩

/-- A write transaction in which no pin call fails (R120, R122, R133, R134). -/
theorem Pbe.writeSteps_noFail (e : Pbe) (rs : Level) (b : Byte) (h : e.port.noFail 20) :
    e.writeSteps rs b = .done { e with wdr := b, port := e.port.wrote rs b } := by
  rcases e.writeSteps_cases rs b with ⟨-, hr⟩ | ⟨e', p, -, hst, -⟩
  · exact hr
  · exact (hst.not_noFail (by simpa using h)).elim

/-- A read transaction in which no pin call fails (R121, R122, R130, R132). -/
theorem Pbe.readSteps_noFail (e : Pbe) (rs : Level) (h : e.port.noFail 20) :
    e.readSteps rs =
      .done { e with rdr := (e.port.didRead rs).sample, result := (e.port.didRead rs).sample, port := e.port.didRead rs } := by
  rcases e.readSteps_cases rs with ⟨-, hr⟩ | ⟨e', p, -, hst, -⟩
  · exact hr
  · exact (hst.not_noFail (by simpa using h)).elim

/-- A raw write cycle by itself in which no pin call fails (R120). -/
theorem Pbe.rawWrite_noFail (e : Pbe) (b : Byte) (h : e.port.noFail 19) :
    e.rawWrite b = .done { e with wdr := b, port := e.port.wroteRaw b } := by
  rcases e.rawWrite_did .low b with ⟨-, hr⟩ | ⟨e', p, -, hst, -⟩
  · exact hr
  · exact (hst.not_noFail (by simpa using h)).elim

/-- A raw read cycle by itself in which no pin call fails (R121). -/
theorem Pbe.rawRead_noFail (e : Pbe) (h : e.port.noFail 19) :
    e.rawRead = .done { e with rdr := e.port.didReadRaw.sample, port := e.port.didReadRaw } := by
  rcases e.rawRead_did .low with ⟨-, hr⟩ | ⟨e', p, -, hst, -⟩
  · exact hr
  · exact (hst.not_noFail (by simpa using h)).elim

theorem Port.wroteRaw_trace (rs : Level) (b : Byte) :
    outEv .rs rs :: eventsOf P (writeCycle (P.peekOrder 0) (P.peekOrder 1) b) = writeGroup (P.peekOrder 0) (P.peekOrder 1) rs b :=
  eventsOf_writeCycle P _ _ rs b

theorem Port.wrote_trace (rs : Level) (b : Byte) :
    (P.wrote rs b).trace = P.trace ++ writeGroup (P.peekOrder 0) (P.peekOrder 1) rs b := by
  rw [← eventsOf_writeCycle (P.ran [drive .rs rs])]
  simp [Port.wrote, Port.wroteRaw, Port.ran_trace, eventsOf, eventOf, drive, outEv]

theorem Port.didRead_trace (rs : Level) :
    (P.didRead rs).trace =
      P.trace ++ readGroup (P.peekOrder 0) (P.peekOrder 1) rs (P.readLevel 0 (P.peekOrder 1)) := by
  have h := eventsOf_readCycle (P.ran [drive .rs rs]) (P.peekOrder 0) (P.peekOrder 1) (nodup_peekOrder P 1) rs
  have hl : (fun i => drawLevel ((P.ran [drive .rs rs]).peek ((P.peekOrder 0).length + 2 + (P.peekOrder 1).idxOf i)))
      = P.readLevel 0 (P.peekOrder 1) := by
    funext i
    simp only [Port.readLevel, Port.peek_ran, length_peekOrder]
    congr 2
    simp; omega
  rw [hl] at h
  rw [← h]
  simp [Port.didRead, Port.didReadRaw, Port.ran_trace, eventsOf, eventOf, drive, outEv]

theorem Port.pin_orderTaken (q : Pin) : P.orderTaken.pin q = P.pin q := rfl

theorem Port.pin_wrote (rs : Level) (b : Byte) (q : Pin) : (P.wrote rs b).pin q = pinsAfterWrite rs b (P.pin q) q := by
  rw [Port.wrote, Port.wroteRaw, Port.pin_orderTaken, Port.pin_orderTaken, Port.pin_ran, Port.pin_ran, ← recordAfter_append,
    show eventsOf P [drive .rs rs] = [outEv .rs rs] from rfl, List.singleton_append, eventsOf_writeCycle]
  exact recordAfter_writeGroup _ _ (by simpa using mem_peekOrder P 1) rs b q _

theorem Port.pin_didRead (rs : Level) (q : Pin) : (P.didRead rs).pin q = pinsAfterRead rs (P.pin q) q := by
  rw [Port.didRead, Port.didReadRaw, Port.pin_orderTaken, Port.pin_orderTaken, Port.pin_ran, Port.pin_ran,
    ← recordAfter_append, show eventsOf P [drive .rs rs] = [outEv .rs rs] from rfl, List.singleton_append,
    eventsOf_readCycle _ _ _ (nodup_peekOrder _ 1)]
  exact recordAfter_readGroup _ _ (by simpa using mem_peekOrder P 0) rs _ q _

/-- The byte a raw read cycle samples, bit by bit: ten calls precede the reads (R52, R121). -/
theorem Port.didReadRaw_sample (i : Fin 8) :
    (P.didReadRaw.sample).getLsbD i.val = (drawLevel (P.peek (10 + (P.peekOrder 1).idxOf i))).toBool := by
  have hc : readCycle (P.peekOrder 0) (P.peekOrder 1) = ((dbInMode (P.peekOrder 0) ++ ([drive .rw .high] ++
      ([.delay .tAS] ++ ([drive .e .high] ++ [.delay .tDS])))) ++ dbSample (P.peekOrder 1)) ++
        ([drive .e .low] ++ [.delay .tEND]) := by simp [readCycle]
  rw [Port.didReadRaw, hc, Port.orderTaken_sample, Port.orderTaken_sample, Port.ran_append,
    Port.ran_sample_noRead _ _ (by simp [drive]), Port.ran_append, sample_ran_dbSample _ _ (nodup_peekOrder P 1)]
  simp only [mem_peekOrder, if_true, Port.peek_ran, callCount_append, callCount_dbInMode, length_peekOrder]
  rfl

/-- Bit i of the byte a read transaction returns is what DB[i] read (R52, R121). -/
theorem Port.didRead_sample (rs : Level) (i : Fin 8) :
    ((P.didRead rs).sample).getLsbD i.val = (P.readLevel 0 (P.peekOrder 1) i).toBool := by
  rw [Port.didRead, Port.didReadRaw_sample, Port.peekOrder_ran, Port.peek_ran, Port.readLevel]
  congr 3
  simp; omega

@[simp] theorem Port.wrote_ph (rs : Level) (b : Byte) : (P.wrote rs b).ph = P.ph := by simp [Port.wrote, Port.wroteRaw]
@[simp] theorem Port.wrote_err (rs : Level) (b : Byte) : (P.wrote rs b).err = P.err := by simp [Port.wrote, Port.wroteRaw]
@[simp] theorem Port.wrote_errPin (rs : Level) (b : Byte) : (P.wrote rs b).errPin = P.errPin := by simp [Port.wrote, Port.wroteRaw]
@[simp] theorem Port.wrote_owner (rs : Level) (b : Byte) : (P.wrote rs b).owner = P.owner := by simp [Port.wrote, Port.wroteRaw]
@[simp] theorem Port.didRead_ph (rs : Level) : (P.didRead rs).ph = P.ph := by simp [Port.didRead, Port.didReadRaw]
@[simp] theorem Port.didRead_err (rs : Level) : (P.didRead rs).err = P.err := by simp [Port.didRead, Port.didReadRaw]
@[simp] theorem Port.didRead_errPin (rs : Level) : (P.didRead rs).errPin = P.errPin := by simp [Port.didRead, Port.didReadRaw]
@[simp] theorem Port.didRead_owner (rs : Level) : (P.didRead rs).owner = P.owner := by simp [Port.didRead, Port.didReadRaw]

@[simp] theorem Port.peek_wrote (rs : Level) (b : Byte) (k : Nat) : (P.wrote rs b).peek k = P.peek (k + 20) := by
  simp [Port.wrote, Port.wroteRaw, Port.peek_ran, Nat.add_comm, Nat.add_left_comm]

@[simp] theorem Port.peek_didRead (rs : Level) (k : Nat) : (P.didRead rs).peek k = P.peek (k + 20) := by
  simp [Port.didRead, Port.didReadRaw, Port.peek_ran, Nat.add_comm, Nat.add_left_comm]

@[simp] theorem Port.peekOrder_wrote (rs : Level) (b : Byte) (k : Nat) : (P.wrote rs b).peekOrder k = P.peekOrder (k + 2) := by
  simp [Port.wrote, Port.wroteRaw]

@[simp] theorem Port.peekOrder_didRead (rs : Level) (k : Nat) : (P.didRead rs).peekOrder k = P.peekOrder (k + 2) := by
  simp [Port.didRead, Port.didReadRaw]

/-- How many answers and orders a transaction takes. -/
@[simp] theorem Port.wrote_draws (rs : Level) (b : Byte) : (P.wrote rs b).draws = P.draws.drop 20 := by
  simp [Port.wrote, Port.wroteRaw, Port.ran_draws]
@[simp] theorem Port.wrote_drawn (rs : Level) (b : Byte) : (P.wrote rs b).drawn = P.drawn + 20 := by
  simp [Port.wrote, Port.wroteRaw, Port.ran_drawn]
@[simp] theorem Port.wrote_orders (rs : Level) (b : Byte) : (P.wrote rs b).orders = P.orders.drop 2 := by simp [Port.wrote, Port.wroteRaw, ← List.drop_one]
@[simp] theorem Port.wrote_ordered (rs : Level) (b : Byte) : (P.wrote rs b).ordered = P.ordered + 2 := by simp [Port.wrote, Port.wroteRaw]
@[simp] theorem Port.didRead_draws (rs : Level) : (P.didRead rs).draws = P.draws.drop 20 := by
  simp [Port.didRead, Port.didReadRaw, Port.ran_draws]
@[simp] theorem Port.didRead_drawn (rs : Level) : (P.didRead rs).drawn = P.drawn + 20 := by
  simp [Port.didRead, Port.didReadRaw, Port.ran_drawn]
@[simp] theorem Port.didRead_orders (rs : Level) : (P.didRead rs).orders = P.orders.drop 2 := by simp [Port.didRead, Port.didReadRaw, ← List.drop_one]
@[simp] theorem Port.didRead_ordered (rs : Level) : (P.didRead rs).ordered = P.ordered + 2 := by simp [Port.didRead, Port.didReadRaw]

@[simp] theorem Port.wrote_sample (rs : Level) (b : Byte) : (P.wrote rs b).sample = P.sample := by
  rw [Port.wrote, Port.wroteRaw, Port.orderTaken_sample, Port.orderTaken_sample, Port.ran_sample_noRead, Port.ran_sample_noRead]
  · simp [drive]
  · simp [writeCycle, dbOutMode, dbDrive, drive, forall_and, or_imp]

/-- The busy flag of a status read is what DB[7] read (R71). -/
theorem Port.statusBF_didRead (rs : Level) :
    statusBF (P.didRead rs).sample = (P.readLevel 0 (P.peekOrder 1) 7).toBool := P.didRead_sample rs 7

/-- One additional poll when no pin call fails (R131). -/
theorem Pbe.pollSteps_noFail (e : Pbe) (h : e.port.noFail 20) :
    e.pollSteps = .done { e with rdr := ((e.port.emit (.delay .tPOLL)).didRead .low).sample,
                                 result := ((e.port.emit (.delay .tPOLL)).didRead .low).sample,
                                 port := (e.port.emit (.delay .tPOLL)).didRead .low } := by
  have h1 : e.run [.delay .tPOLL] = .done { e with port := e.port.emit (.delay .tPOLL) } := rfl
  rw [Pbe.pollSteps, h1]
  exact Pbe.readSteps_noFail { e with port := e.port.emit (.delay .tPOLL) } .low h

end Sys2Proof.Machine
end

