-- ==== Sys2Proof/Laws/Segments.lean ====
section
/-! SUPPORT. What RAWDISP, ENCODE, DISPLAY and CLRALL do: the serial load when no pin call fails, and the character loop of
ENCODE. -/

namespace Sys2Proof.Machine

variable (P : Port)

/-! ### The serial load (R160) -/

/-- The calls of the last `n` bits of a word. -/
def bitsFrom : Nat → Word → List Call
  | 0, _ => []
  | n + 1, w => bitCalls (w.getLsbD (Config.nShift - (n + 1))) ++ bitsFrom n w

/-- The calls of a whole RAWDISP; irreducible, so that no unifier ever lists them. -/
@[irreducible] def serialCalls (w : Word) : List Call := bitsFrom 32 w ++ latchCalls

@[simp] theorem callCount_bitCalls (b : Bool) : callCount (bitCalls b) = 3 := rfl

@[simp] theorem callCount_bitsFrom (n : Nat) (w : Word) : callCount (bitsFrom n w) = 3 * n := by
  induction n with
  | zero => rfl
  | succ n ih => simp only [bitsFrom, callCount_append, callCount_bitCalls, ih]; omega

@[simp] theorem callCount_latchCalls : callCount latchCalls = 2 := rfl

@[simp] theorem callCount_serialCalls (w : Word) : callCount (serialCalls w) = 98 := by simp [serialCalls]

@[simp] theorem eventsOf_bitCalls (b : Bool) : eventsOf P (bitCalls b) = bitGroup b := by
  cases b <;> simp [bitCalls, bitGroup, eventsOf, eventOf, drive, outEv, Level.ofBool]

@[simp] theorem eventsOf_latchCalls :
    eventsOf P latchCalls = [outEv .latch .high, .delay .tSR, outEv .latch .low, .delay .tSR] := rfl

theorem eventsOf_bitsFrom (n : Nat) (hn : n ≤ Config.nShift) (w : Word) :
    eventsOf P (bitsFrom n w) = (List.range n).flatMap (fun k => bitGroup (w.getLsbD (Config.nShift - n + k))) := by
  induction n generalizing P with
  | zero => rfl
  | succ n ih =>
    rw [bitsFrom, eventsOf_append, ih _ (by omega), eventsOf_bitCalls, List.range_succ_eq_map, List.flatMap_cons,
      List.flatMap_map]
    simp only [Nat.add_zero, List.flatMap_def]
    congr 2
    refine List.map_congr_left fun k _ => ?_
    congr 2; omega

/-- A whole RAWDISP emits S(w). -/
theorem eventsOf_serialCalls (w : Word) : eventsOf P (serialCalls w) = serialGroup w := by
  rw [serialCalls, eventsOf_append, eventsOf_bitsFrom _ _ (by decide), eventsOf_latchCalls]
  simp [serialGroup, Config.nShift]

theorem Srl.run_noFail (e : Srl) (cs : List Call) (h : e.port.noFail (callCount cs)) :
    e.run cs = .done { e with port := e.port.ran cs } := by
  simp [Srl.run, Port.run_noFail _ _ h, Ran.map]

theorem Srl.shiftBits_noFail (n : Nat) (e : Srl) (h : e.port.noFail (3 * n)) :
    e.shiftBits n = .done { e with bitcnt := Config.nShift, port := e.port.ran (bitsFrom n e.sr) } := by
  induction n generalizing e with
  | zero => simp [Srl.shiftBits, bitsFrom]
  | succ n ih =>
    have h1 : e.port.noFail (callCount (bitCalls (e.sr.getLsbD (Config.nShift - (n + 1))))) :=
      fun k hk => h k (by simp at hk; omega)
    have h2 := Srl.run_noFail { e with bitcnt := Config.nShift - (n + 1) } _ h1
    rw [Srl.shiftBits, h2]
    simp only [Ran.andThen]
    rw [ih]
    · simp [bitsFrom, Port.ran_append]
    · intro k hk
      have := h (3 + k) (by omega)
      simpa [Port.peek_ran] using this

/-- RAWDISP's steps when no pin call fails: 32 bits, the latch pulse, SR and BITCNT (R160). -/
theorem Srl.rawdispSteps_noFail (e : Srl) (w : Word) (h : e.port.noFail 98) :
    e.rawdispSteps w = .done { e with sr := w, bitcnt := Config.nShift, port := e.port.ran (serialCalls w) } := by
  have h1 : ({ e with sr := w } : Srl).shiftBits Config.nShift =
      .done { e with sr := w, bitcnt := Config.nShift, port := e.port.ran (bitsFrom 32 w) } :=
    Srl.shiftBits_noFail 32 _ (fun k hk => h k (by omega))
  rw [Srl.rawdispSteps, h1]
  simp only [Ran.andThen]
  rw [Srl.run_noFail]
  · simp [serialCalls, Port.ran_append]
  · intro k hk
    simp only [callCount_latchCalls] at hk
    have := h (96 + k) (by omega)
    simpa [Port.peek_ran] using this

/-- A whole RAWDISP appends S(w) to the trace (R160). -/
theorem Port.serial_trace (w : Word) : (P.ran (serialCalls w)).trace = P.trace ++ serialGroup w := by
  rw [Port.ran_trace, eventsOf_serialCalls]

theorem recordAfter_serialGroup (q : Pin) (r : Option PinRec) (w : Word) :
    recordAfter q r (serialGroup w) = pinsAfterSerial w r q := by
  have hrange : List.range 32 = (List.range 31) ++ [31] := rfl
  rw [serialGroup, hrange, List.flatMap_append, recordAfter_append, recordAfter_append]
  have hkeep : ∀ (l : List Nat) (r : Option PinRec), q ≠ .din → q ≠ .clk →
      recordAfter q r (l.flatMap (fun i => bitGroup (w.getLsbD i))) = r := by
    intro l
    induction l with
    | nil => intros; rfl
    | cons a l ih =>
      intro r h1 h2
      rw [List.flatMap_cons, recordAfter_append, ih _ h1 h2]
      simp [bitGroup, recordAfter, outEv, Ne.symm h1, Ne.symm h2]
  cases q with
  | din => cases w.getLsbD 31 <;> simp [bitGroup, recordAfter, outEv, pinsAfterSerial]
  | clk => cases w.getLsbD 31 <;> simp [bitGroup, recordAfter, outEv, pinsAfterSerial]
  | _ =>
    rw [hkeep _ _ (by simp) (by simp), hkeep _ _ (by simp) (by simp)]
    simp [recordAfter, outEv, pinsAfterSerial]

theorem noRead_bitsFrom (n : Nat) (w : Word) : ∀ c ∈ bitsFrom n w, ∀ p, c ≠ .read p := by
  induction n with
  | zero => simp [bitsFrom]
  | succ n ih =>
    intro c hc
    rcases List.mem_append.1 hc with h | h
    · simp [bitCalls, drive] at h; rcases h with rfl | rfl | rfl | rfl | rfl <;> simp
    · exact ih c h

/-- RAWDISP reads nothing (R23). -/
@[simp] theorem Port.sample_serial (w : Word) : (P.ran (serialCalls w)).sample = P.sample := by
  refine P.ran_sample_noRead _ fun c hc => ?_
  rw [serialCalls] at hc
  rcases List.mem_append.1 hc with h | h
  · exact noRead_bitsFrom 32 w c h
  · simp [latchCalls, drive] at h; rcases h with rfl | rfl | rfl | rfl <;> simp

/-- The pins after a whole RAWDISP (R160). -/
theorem Port.pin_serial (w : Word) (q : Pin) : (P.ran (serialCalls w)).pin q = pinsAfterSerial w (P.pin q) q := by
  rw [Port.pin_ran, eventsOf_serialCalls, recordAfter_serialGroup]

/-! ### ENCODE (R161) -/

@[simp] theorem Srl.takeDot_port (e : Srl) : e.takeDot.port = e.port := by rw [Srl.takeDot]; split <;> rfl
@[simp] theorem Srl.takeDot_cfg (e : Srl) : e.takeDot.cfg = e.cfg := by rw [Srl.takeDot]; split <;> rfl
@[simp] theorem Srl.takeDot_txt (e : Srl) : e.takeDot.txt = e.txt := by rw [Srl.takeDot]; split <;> rfl

@[simp] theorem Srl.encodeChar_port (e : Srl) (c : Byte) : (e.encodeChar c).port = e.port := by
  rw [Srl.encodeChar]; split <;> simp

@[simp] theorem Srl.encodeChar_cfg (e : Srl) (c : Byte) : (e.encodeChar c).cfg = e.cfg := by
  rw [Srl.encodeChar]; split <;> simp

/-- The dot sets DPF and takes no digit (R161). -/
theorem Srl.encodeChar_dot (e : Srl) :
    (e.encodeChar dot).acc = e.acc ∧ (e.encodeChar dot).dpf = true := by simp [Srl.encodeChar]

/-- Any other character is shifted in and takes a pending dot (R161). -/
theorem Srl.encodeChar_other (e : Srl) {c : Byte} (h : c ≠ dot) :
    (e.encodeChar c).acc = (e.acc <<< 8) + (e.cfg.pattern c).zeroExtend 32 + (if e.dpf then 1 else 0) ∧
      (e.encodeChar c).dpf = false := by
  cases hd : e.dpf <;> simp [Srl.encodeChar, h, Srl.takeDot, hd]

theorem Srl.foldl_encodeChar_port (cs : List Byte) (e : Srl) : (cs.foldl Srl.encodeChar e).port = e.port := by
  induction cs generalizing e with
  | nil => rfl
  | cons c cs ih => simp [ih]

theorem Srl.foldl_encodeChar_cfg (cs : List Byte) (e : Srl) : (cs.foldl Srl.encodeChar e).cfg = e.cfg := by
  induction cs generalizing e with
  | nil => rfl
  | cons c cs ih => simp [ih]

/-- ENCODE makes no pin call and emits no event (R161). -/
@[simp] theorem Srl.encodeSteps_port (cs : List Byte) (e : Srl) : (e.encodeSteps cs).port = e.port :=
  Srl.foldl_encodeChar_port cs.reverse _

@[simp] theorem Srl.encodeSteps_cfg (cs : List Byte) (e : Srl) : (e.encodeSteps cs).cfg = e.cfg :=
  Srl.foldl_encodeChar_cfg cs.reverse _

@[simp] theorem Srl.encodeSteps_result (cs : List Byte) (e : Srl) : (e.encodeSteps cs).result = (e.encodeSteps cs).acc := rfl

/-- DISPLAY's steps when no pin call fails: the word of ENCODE, sent as RAWDISP sends it (R162). -/
theorem Srl.displaySteps_noFail (e : Srl) (cs : List Byte) (h : e.port.noFail 98) :
    e.displaySteps cs =
      .done { e.encodeSteps cs with sr := (e.encodeSteps cs).acc, bitcnt := Config.nShift,
                                    port := e.port.ran (serialCalls (e.encodeSteps cs).acc) } := by
  rw [Srl.displaySteps, Srl.rawdispSteps_noFail _ _ (by simpa using h)]
  simp

/-! ### The indicators of CLRALL (R163, R107) -/

theorem callCount_clearIndicators (cfg : SrlCfg) :
    callCount (clearIndicators cfg) = cfg.hasCur.toNat + cfg.hasCol.toNat + cfg.hasDeg.toNat := by
  obtain ⟨d, c, u, -, -, -⟩ := cfg
  cases d <;> cases c <;> cases u <;> rfl

/-- Each indicator that is wired gets its call, in the order Cursor, Colon, Degree; an absent one gets none. -/
theorem eventsOf_clearIndicators (cfg : SrlCfg) :
    eventsOf P (clearIndicators cfg) =
      (if cfg.hasCur then [outEv .cur .low] else []) ++ (if cfg.hasCol then [outEv .col .low] else []) ++
        (if cfg.hasDeg then [outEv .deg .low] else []) := by
  obtain ⟨d, c, u, -, -, -⟩ := cfg
  cases d <;> cases c <;> cases u <;> rfl

theorem noRead_clearIndicators (cfg : SrlCfg) : ∀ c ∈ clearIndicators cfg, ∀ p, c ≠ .read p := by
  obtain ⟨d, c, u, -, -, -⟩ := cfg
  cases d <;> cases c <;> cases u <;> simp [clearIndicators, pinOutOpt, drive]

end Sys2Proof.Machine
end

