-- ==== Sys2Proof/Laws/Failures.lean ====
section
/-! SUPPORT. What a serial load of SRL can do: complete (Segments.lean), or stop at the first failing call with exactly the calls
before it done (R105, R160, R188). -/

namespace Sys2Proof.Machine

variable (P : Port)

/-- The bit loop with `n` bits to send completes or stops at its first failing call, BITCNT at the bit it was sending (R160). -/
theorem Srl.shiftBits_cases (n : Nat) (e : Srl) :
    (e.port.noFail (3 * n) ∧
        e.shiftBits n = .done { e with bitcnt := Config.nShift, port := e.port.ran (bitsFrom n e.sr) }) ∨
      ∃ k Q p, k < Config.nShift ∧ e.shiftBits n = .failed { e with bitcnt := k, port := Q } p ∧
        e.port.StoppedAt (bitsFrom n e.sr) Q p := by
  induction n generalizing e with
  | zero => exact .inl ⟨fun k hk => by omega, by simp [Srl.shiftBits, bitsFrom]⟩
  | succ n ih =>
    rcases hb : e.port.run (bitCalls (e.sr.getLsbD (Config.nShift - (n + 1)))) with R | ⟨R, p⟩
    · obtain ⟨rfl, hn⟩ := e.port.run_done hb
      have hs : e.shiftBits (n + 1) = Srl.shiftBits n
          { e with
            bitcnt := Config.nShift - (n + 1)
            port := e.port.ran (bitCalls (e.sr.getLsbD (Config.nShift - (n + 1)))) } := by
        simp [Srl.shiftBits, Srl.run, hb, Ran.map, Ran.andThen]
      rcases ih
          { e with
            bitcnt := Config.nShift - (n + 1)
            port := e.port.ran (bitCalls (e.sr.getLsbD (Config.nShift - (n + 1)))) } with ⟨hm, hr⟩ | ⟨k, Q, p, hk, hr, hst⟩
      · refine .inl ⟨?_, by rw [hs, hr]; simp [bitsFrom, Port.ran_append]⟩
        rw [Nat.mul_succ, Nat.add_comm, Port.noFail_add]
        exact ⟨hn, fun k hk => by simpa [Port.peek_ran] using hm k hk⟩
      · exact .inr ⟨k, Q, p, hk, by rw [hs, hr], Port.StoppedAt.right hn (.refl _) hst⟩
    · refine .inr ⟨Config.nShift - (n + 1), R, p, by simp [Config.nShift]; omega, ?_, (Port.stoppedAt_of_run _ hb).left _⟩
      simp [Srl.shiftBits, Srl.run, hb, Ran.map, Ran.andThen]

/-- RAWDISP's steps complete or stop at their first failing call (R160, R188). -/
theorem Srl.rawdispSteps_cases (e : Srl) (w : Word) :
    (e.port.noFail 98 ∧
        e.rawdispSteps w = .done { e with sr := w, bitcnt := Config.nShift, port := e.port.ran (serialCalls w) }) ∨
      ∃ k Q p, k ≤ Config.nShift ∧ e.rawdispSteps w = .failed { e with sr := w, bitcnt := k, port := Q } p ∧
        e.port.StoppedAt (serialCalls w) Q p := by
  have hs : serialCalls w = bitsFrom 32 w ++ latchCalls := by rw [serialCalls]
  rcases Srl.shiftBits_cases Config.nShift { e with sr := w } with ⟨hm, hr⟩ | ⟨k, Q, p, hk, hr, hst⟩
  · rcases hl : (e.port.ran (bitsFrom 32 w)).run latchCalls with R | ⟨R, p⟩
    · obtain ⟨-, hn⟩ := Port.run_done _ hl
      refine .inl ⟨?h, Srl.rawdispSteps_noFail e w ?h⟩
      rw [show (98 : Nat) = 96 + 2 from rfl, Port.noFail_add]
      exact ⟨hm, fun k hk => by simpa [Port.peek_ran] using hn k hk⟩
    · refine .inr ⟨Config.nShift, R, p, Nat.le_refl _, ?_,
        hs ▸ Port.StoppedAt.right (by simpa [Config.nShift] using hm) (.refl _) (Port.stoppedAt_of_run _ hl)⟩
      simp only [Srl.rawdispSteps, hr, Ran.andThen]
      show Ran.map _ ((e.port.ran (bitsFrom 32 w)).run latchCalls) = _
      rw [hl]; rfl
  · exact .inr ⟨k, Q, p, Nat.le_of_lt hk, by simp [Srl.rawdispSteps, hr, Ran.andThen], hs ▸ hst.left _⟩

end Sys2Proof.Machine
end

