-- ==== Sys2Proof/Laws/Requests.lean ====
section
/-! SUPPORT. Which shared operation a meaning is: every one-transaction operation of PBE as a request with one write or one
read transaction, and the step of an engine that stands at a loop's head. -/

namespace Sys2Proof.Machine

theorem setcgByte_bits (a : Byte) : setcgByte a = 0b01#2 ++ a.extractLsb' 0 6 := by revert a; decide

theorem setddByte_bits (a : Byte) : setddByte a = 0b1#1 ++ a.extractLsb' 0 7 := by revert a; decide

/-- WRDATA, CMD and the eight named commands are one write transaction each (R133 to R142). -/
theorem exec_busWrite {i : Instr} {rs : Level} {b : Byte} (h : busWrite i = some (rs, b)) (s : State) :
    exec i s = pbeRequest i (fun e => Pbe.conclude (fun _ => .none) (e.writeSteps rs b)) s := by
  cases i with
  | entry x y => cases x <;> cases y <;> (cases h; rfl)
  | dispmode x y z => cases x <;> cases y <;> cases z <;> (cases h; rfl)
  | shift x y => cases x <;> cases y <;> (cases h; rfl)
  | func x y z => cases x <;> cases y <;> cases z <;> (cases h; rfl)
  | setcg a => cases h; rw [← setcgByte_bits]; rfl
  | setdd a => cases h; rw [← setddByte_bits]; rfl
  | _ => cases h <;> rfl

/-- RDBF and RDDATA are one read transaction each (R130, R132). -/
theorem exec_busRead {i : Instr} {rs : Level} (h : busRead i = some rs) (s : State) :
    exec i s = pbeRequest i (fun e => Pbe.conclude (fun e' => .byte e'.result) (e.readSteps rs)) s := by
  cases i <;> cases h <;> rfl

theorem exec_waitrdy (s : State) : exec .waitrdy s = pbeRequest .waitrdy (fun e => Pbe.settle e.firstPoll) s := rfl

theorem exec_puts {t : List Nat} {cs : List Byte} (h : textBytes t = some cs) (s : State) :
    exec (.puts t) s = pbeRequest (.puts t) (fun e => Pbe.settle (Pbe.putsFrom cs { e with txt := ⟨cs, 0⟩ })) s := by
  show execPuts t s = _
  rw [execPuts, h]

theorem exec_rawdisp (w : Word) (s : State) :
    exec (.rawdisp w) s = srlRequest (.rawdisp w) (fun e => Srl.conclude (fun _ => .none) (e.rawdispSteps w)) s := rfl

theorem exec_encode {t : List Nat} {cs : List Byte} (h : textBytes t = some cs) (s : State) :
    exec (.encode t) s =
      srlRequest (.encode t) (fun e => Srl.conclude (fun e' => .word e'.result) (.done (e.encodeSteps cs))) s := by
  show execEncode t s = _
  rw [execEncode, h]

theorem exec_display {t : List Nat} {cs : List Byte} (h : textBytes t = some cs) (s : State) :
    exec (.display t) s = srlRequest (.display t) (fun e => Srl.conclude (fun _ => .none) (e.displaySteps cs)) s := by
  show execDisplay t s = _
  rw [execDisplay, h]

theorem exec_clrall (s : State) :
    exec .clrall s = srlRequest .clrall (fun e => Srl.conclude (fun _ => .none) e.clearAllSteps) s := rfl

theorem exec_demo {s : State} (h : s.srl.cfg.hasDemo = true) (c : Bool) :
    exec (.demo c) s = srlRequest (.demo c) (fun e => Srl.settle (Srl.tick { e with win := 0, cancel := c })) s := by
  show execDemo c s = _
  rw [execDemo, if_pos h]

/-- PBE's turn in the poll loop of WAITRDY (R131). -/
theorem step_waitrdy {s : State} (ha : s.nextAgent = .pbe)
    (hp : s.pbe.port.ph = .busy .waitrdy .pollLoop) : step s = .next { s.turnTaken with pbe := Pbe.settle s.pbe.nextPoll } := by
  have hg : s.pbe.goOn = Pbe.settle s.pbe.nextPoll := by rw [Pbe.goOn, Pbe.loopTurn, hp]; rfl
  simp [step, ha, pbeTurn, State.turnTaken, hg]

/-- PBE's turn in the poll loop of PUTS (R131, R143). -/
theorem step_puts {s : State} {t : List Nat} (ha : s.nextAgent = .pbe) (hp : s.pbe.port.ph = .busy (.puts t) .pollLoop) :
    step s = .next { s.turnTaken with pbe := Pbe.settle s.pbe.putsResume } := by
  have hg : s.pbe.goOn = Pbe.settle s.pbe.putsResume := by rw [Pbe.goOn, Pbe.loopTurn, hp]; rfl
  simp [step, ha, pbeTurn, State.turnTaken, hg]

/-- SRL's turn in the loop of DEMO (R164). -/
theorem step_demo {s : State} {c : Bool} (ha : s.nextAgent = .srl) (hp : s.srl.port.ph = .busy (.demo c) .tickLoop) :
    step s = .next { s.turnTaken with srl := Srl.settle s.srl.tick } := by
  have hg : s.srl.goOn = Srl.settle s.srl.tick := by rw [Srl.goOn, Srl.loopTurn, hp]; rfl
  simp [step, ha, srlTurn, State.turnTaken, hg]

end Sys2Proof.Machine
end

