-- ==== Sys2Proof/Laws/Waits.lean ====
section
/-! SUPPORT. What the polls of WAITRDY and the characters of PUTS do when no pin call fails: a poll is ready or busy as DB[7]
read, and a character is written after its poll. -/

namespace Sys2Proof.Machine

/-- PBE after a completed read transaction: RDR and STATUS.RESULT hold the sampled byte. -/
def Pbe.afterRead (e : Pbe) (rs : Level) : Pbe :=
  { e with rdr := (e.port.didRead rs).sample, result := (e.port.didRead rs).sample, port := e.port.didRead rs }

/-- PBE after the delay before an additional poll. -/
def Pbe.delayed (e : Pbe) : Pbe := { e with port := e.port.emit (.delay .tPOLL) }

@[simp] theorem Pbe.afterRead_port (e : Pbe) (rs : Level) : (e.afterRead rs).port = e.port.didRead rs := rfl
@[simp] theorem Pbe.afterRead_txt (e : Pbe) (rs : Level) : (e.afterRead rs).txt = e.txt := rfl
@[simp] theorem Pbe.afterRead_cfg (e : Pbe) (rs : Level) : (e.afterRead rs).cfg = e.cfg := rfl
@[simp] theorem Pbe.afterRead_wdr (e : Pbe) (rs : Level) : (e.afterRead rs).wdr = e.wdr := rfl
@[simp] theorem Pbe.delayed_port (e : Pbe) : e.delayed.port = e.port.emit (.delay .tPOLL) := rfl
@[simp] theorem Pbe.delayed_txt (e : Pbe) : e.delayed.txt = e.txt := rfl
@[simp] theorem Pbe.delayed_cfg (e : Pbe) : e.delayed.cfg = e.cfg := rfl

/-- A completed status read found the module ready exactly if DB[7] read low. -/
theorem Pbe.afterRead_ready (e : Pbe) :
    (e.afterRead .low).ready = !(e.port.readLevel 0 (e.port.peekOrder 1) 7).toBool := by
  rw [Pbe.ready, ← Port.statusBF_didRead]; rfl

/-- A ready first poll ends the wait (R131). -/
theorem Pbe.firstPoll_ready (e : Pbe) (h : e.port.noFail 20) (hr : e.port.readLevel 0 (e.port.peekOrder 1) 7 = .low) :
    e.firstPoll = .ready (e.afterRead .low) := by
  have hb := e.afterRead_ready
  rw [hr] at hb
  rw [Pbe.firstPoll, Pbe.readSteps_noFail e .low h]
  exact if_pos hb

/-- A busy first poll enters the loop with POLLCNT 0 (R131). -/
theorem Pbe.firstPoll_busy (e : Pbe) (h : e.port.noFail 20) (hr : e.port.readLevel 0 (e.port.peekOrder 1) 7 = .high) :
    e.firstPoll = .polling { e.afterRead .low with pollcnt := 0 } := by
  have hb := e.afterRead_ready
  rw [hr] at hb
  rw [Pbe.firstPoll, Pbe.readSteps_noFail e .low h]
  exact if_neg (fun ht => absurd (hb.symm.trans ht) (by decide))

/-- A ready additional poll ends the wait, whatever the bound (R131). -/
theorem Pbe.nextPoll_ready (e : Pbe) (h : e.port.noFail 20) (hr : e.port.readLevel 0 (e.port.peekOrder 1) 7 = .low) :
    e.nextPoll = .ready { e.delayed.afterRead .low with pollcnt := e.pollcnt + 1 } := by
  have hb := e.delayed.afterRead_ready
  rw [show e.delayed.port.readLevel 0 (e.delayed.port.peekOrder 1) 7 = .low from hr] at hb
  rw [Pbe.nextPoll, Pbe.pollSteps_noFail e h]
  exact if_pos hb

/-- A busy additional poll ends the wait at the bound and goes on below it (R131, R182). -/
theorem Pbe.nextPoll_busy (e : Pbe) (h : e.port.noFail 20) (hr : e.port.readLevel 0 (e.port.peekOrder 1) 7 = .high) :
    e.nextPoll =
      if ({ e with pollcnt := e.pollcnt + 1 } : Pbe).limitReached then
        .timeout { e.delayed.afterRead .low with pollcnt := e.pollcnt + 1 }
      else .polling { e.delayed.afterRead .low with pollcnt := e.pollcnt + 1 } := by
  have hb := e.delayed.afterRead_ready
  rw [show e.delayed.port.readLevel 0 (e.delayed.port.peekOrder 1) 7 = .high from hr] at hb
  rw [Pbe.nextPoll, Pbe.pollSteps_noFail e h]
  exact if_neg (fun ht => absurd (hb.symm.trans ht) (by decide))

/-- A character of PUTS when no pin call fails (R143). -/
theorem Pbe.putChar_noFail (e : Pbe) (c : Byte) (h : e.port.noFail 20) :
    e.putChar c = .done { e with wdr := c, port := e.port.wrote .high c, txt := ⟨e.txt.chars, e.txt.pos + 1⟩ } := by
  rw [Pbe.putChar, Pbe.writeSteps_noFail e .high c h]; rfl

/-! ### What a wait can come to -/

/-- A wait entered with a legal bound has polled a busy module and stands below its bound (R10, R131). -/
theorem Pbe.firstPoll_polling {e e' : Pbe} (hl : e.cfg.pollLimit ≠ some 0) (h : e.firstPoll = .polling e') :
    statusBF e'.rdr = true ∧ e'.limitReached = false ∧ e'.txt = e.txt ∧ e'.cfg = e.cfg := by
  rcases e.readSteps_cases .low with ⟨-, hr⟩ | ⟨e1, p, hr, -, -⟩ <;> rw [Pbe.firstPoll, hr] at h
  · dsimp only at h
    split at h
    · cases h
    · next hb =>
      cases h
      refine ⟨by simpa [Pbe.ready] using hb, ?_, rfl, rfl⟩
      simp only [Pbe.limitReached]
      cases hp : e.cfg.pollLimit with
      | none => rfl
      | some n => simpa using fun hn : n = 0 => hl (hn ▸ hp)
  · cases h

theorem Pbe.firstPoll_ready_frame {e e' : Pbe} (h : e.firstPoll = .ready e') : e'.txt = e.txt ∧ e'.cfg = e.cfg := by
  rcases e.readSteps_cases .low with ⟨-, hr⟩ | ⟨e1, p, hr, -, -⟩ <;> rw [Pbe.firstPoll, hr] at h
  · dsimp only at h; split at h <;> cases h; exact ⟨rfl, rfl⟩
  · cases h

theorem Pbe.pollSteps_frame {e e' : Pbe} (h : e.pollSteps = .done e') : e'.txt = e.txt ∧ e'.cfg = e.cfg := by
  have h1 : e.run [.delay .tPOLL] = .done e.delayed := rfl
  rw [Pbe.pollSteps, h1] at h
  simp only [Ran.andThen] at h
  rcases e.delayed.readSteps_cases .low with ⟨-, hr⟩ | ⟨e1, p, hr, -, -⟩ <;> rw [hr] at h <;> cases h
  exact ⟨rfl, rfl⟩

theorem Pbe.nextPoll_polling {e e' : Pbe} (h : e.nextPoll = .polling e') :
    statusBF e'.rdr = true ∧ e'.limitReached = false ∧ e'.txt = e.txt ∧ e'.cfg = e.cfg := by
  rw [Pbe.nextPoll] at h
  cases h1 : e.pollSteps with
  | failed e1 p => rw [h1] at h; cases h
  | done e1 =>
    rw [h1] at h; dsimp only at h
    split at h
    · cases h
    · next hb =>
      split at h
      · cases h
      · next hn =>
        cases h
        exact ⟨by simpa [Pbe.ready] using hb, by simpa using hn, (Pbe.pollSteps_frame h1).1, (Pbe.pollSteps_frame h1).2⟩

theorem Pbe.nextPoll_ready_frame {e e' : Pbe} (h : e.nextPoll = .ready e') : e'.txt = e.txt ∧ e'.cfg = e.cfg := by
  rw [Pbe.nextPoll] at h
  cases h1 : e.pollSteps with
  | failed e1 p => rw [h1] at h; cases h
  | done e1 =>
    rw [h1] at h; dsimp only at h
    split at h
    · cases h; exact Pbe.pollSteps_frame (e' := e1) h1
    · split at h <;> cases h

theorem Pbe.putChar_frame {e e' : Pbe} {c : Byte} (h : e.putChar c = .done e') :
    e'.txt = ⟨e.txt.chars, e.txt.pos + 1⟩ ∧ e'.cfg = e.cfg := by
  rcases e.writeSteps_cases .high c with ⟨-, hr⟩ | ⟨e1, p, hr, -, -⟩ <;> rw [Pbe.putChar, hr] at h <;> cases h
  exact ⟨rfl, rfl⟩

/-- A PUTS that writes the characters `cs` still to come and is left at a poll loop is so for a busy poll, below the bound, with a
character still to write (R131, R143). -/
theorem Pbe.putsFrom_polling {cs : List Byte} {e e' : Pbe} (hl : e.cfg.pollLimit ≠ some 0)
    (hd : e.txt.chars.drop e.txt.pos = cs) (h : Pbe.putsFrom cs e = .polling e') :
    statusBF e'.rdr = true ∧ e'.limitReached = false ∧ e'.txt.chars = e.txt.chars ∧ e'.txt.pos < e.txt.chars.length := by
  induction cs generalizing e with
  | nil => cases h
  | cons c cs ih =>
    rw [Pbe.putsFrom] at h
    cases hf : e.firstPoll with
    | polling x =>
      rw [hf] at h; cases h
      obtain ⟨h1, h2, h3, -⟩ := Pbe.firstPoll_polling hl hf
      refine ⟨h1, h2, by rw [h3], ?_⟩
      rw [h3]
      have := congrArg List.length hd
      simp at this; omega
    | timeout x => rw [hf] at h; cases h
    | failed x p => rw [hf] at h; cases h
    | ready x =>
      rw [hf] at h
      obtain ⟨h3, h4⟩ := Pbe.firstPoll_ready_frame hf
      simp only [Waited.andThen, Pbe.putThen] at h
      cases hp : x.putChar c with
      | failed y p => rw [hp] at h; cases h
      | done y =>
        rw [hp] at h
        obtain ⟨h5, h6⟩ := Pbe.putChar_frame hp
        have := ih (e := y) (by rw [h6, h4]; exact hl) (by
          rw [h5, h3]
          have : e.txt.chars.drop (e.txt.pos + 1) = (e.txt.chars.drop e.txt.pos).tail := by rw [List.tail_drop]
          simp [this, hd]) h
        rw [h5, h3] at this; exact this

/-- The same of a PUTS taken up at its poll loop. -/
theorem Pbe.putsResume_polling {e e' : Pbe} (hl : e.cfg.pollLimit ≠ some 0) (hlt : e.txt.pos < e.txt.chars.length)
    (h : e.putsResume = .polling e') :
    statusBF e'.rdr = true ∧ e'.limitReached = false ∧ e'.txt.chars = e.txt.chars ∧ e'.txt.pos < e.txt.chars.length := by
  rw [Pbe.putsResume] at h
  cases hf : e.nextPoll with
  | polling x =>
    rw [hf] at h; cases h
    obtain ⟨h1, h2, h3, -⟩ := Pbe.nextPoll_polling hf
    exact ⟨h1, h2, by rw [h3], by rw [h3]; exact hlt⟩
  | timeout x => rw [hf] at h; cases h
  | failed x p => rw [hf] at h; cases h
  | ready x =>
    rw [hf] at h
    obtain ⟨h3, h4⟩ := Pbe.nextPoll_ready_frame hf
    simp only [Waited.andThen, Pbe.putsReady] at h
    split at h
    · cases h
    · next c cs hd =>
      simp only [Pbe.putThen] at h
      cases hp : x.putChar c with
      | failed y p => rw [hp] at h; cases h
      | done y =>
        rw [hp] at h
        obtain ⟨h5, h6⟩ := Pbe.putChar_frame hp
        have := Pbe.putsFrom_polling (e := y) (by rw [h6, h4]; exact hl) (by
          rw [h5]
          have : x.txt.chars.drop (x.txt.pos + 1) = (x.txt.chars.drop x.txt.pos).tail := by rw [List.tail_drop]
          simp [this, hd]) h
        rw [h5, h3] at this; exact this

/-! ### The events of PUTS -/

/-- Read levels counted from a later answer. -/
theorem Port.readLevel_shift {P Q : Port} {n : Nat} (h : ∀ k, Q.peek k = P.peek (k + n)) (a : Nat) (o : List (Fin 8)) :
    Q.readLevel a o = P.readLevel (n + a) o := by
  funext i; simp only [Port.readLevel, h]; congr 2; omega

/-- The events of PUTS are those of its first character, then those of the rest, 40 answers and 4 orders later. -/
theorem Port.putsEvents_cons {P Q : Port} (h1 : ∀ k, Q.peek k = P.peek (k + 40)) (h2 : ∀ k, Q.peekOrder k = P.peekOrder (k + 4))
    (c : Byte) (cs : List Byte) :
    P.putsEvents (c :: cs) =
      readGroup (P.peekOrder 0) (P.peekOrder 1) .low (P.readLevel 0 (P.peekOrder 1)) ++
        writeGroup (P.peekOrder 2) (P.peekOrder 3) .high c ++ Q.putsEvents cs := by
  simp only [Port.putsEvents, List.zipIdx_cons', List.flatMap_cons, List.flatMap_map]
  congr 1
  congr 1
  funext ⟨x, k⟩
  simp only [Prod.map, id, h2, Port.readLevel_shift h1]
  congr 1
  all_goals (congr 1; all_goals try (congr 1; omega))

end Sys2Proof.Machine
end

