-- ==== Sys2Proof/Laws/Steps.lean ====
section
/-! SUPPORT. What a step can do to a port, said once: it makes calls that are allowed to its engine and takes orders, and then
ends normally, stays at a loop's head, or takes an exception right after the failing call or the last poll. Every statement
over all operations follows from this. -/

namespace Sys2Proof.Machine

/-- The calls PBE may make: RS, RW and E are only driven, the data pins also turned and read (R20, R101, R102). -/
def Call.okPbe : Call → Prop
  | .out p _ => p.engine = .pbe
  | .inp p => ∃ i, p = .db i
  | .read p => ∃ i, p = .db i
  | .delay _ => True

/-- The calls SRL may make: its present pins are driven, nothing else (R23, R24, R107). -/
def Call.okSrl (cfg : SrlCfg) : Call → Prop
  | .out p v => p ∈ srlPins cfg ∧ v ≠ .unknown
  | .inp _ => False
  | .read _ => False
  | .delay _ => True

/-- `Q` is reached from `P` by calls that succeed and by taking orders. -/
inductive Port.Reach (ok : Call → Prop) (P : Port) : Port → Prop where
  | refl : Port.Reach ok P P
  | call {Q : Port} (c : Call) : Port.Reach ok P Q → ok c → Port.Reach ok P (Q.applied c)
  | orders {Q : Port} : Port.Reach ok P Q → Port.Reach ok P Q.orderTaken

theorem Port.Reach.trans {ok : Call → Prop} {P Q R : Port} (h : Port.Reach ok P Q) (k : Port.Reach ok Q R) :
    Port.Reach ok P R := by
  induction k with
  | refl => exact h
  | call c _ hc ih => exact .call c ih hc
  | orders _ ih => exact .orders ih

theorem Port.Reach.ran {ok : Call → Prop} (P : Port) (cs : List Call) (h : ∀ c ∈ cs, ok c) : Port.Reach ok P (P.ran cs) := by
  induction cs generalizing P with
  | nil => rw [Port.ran_nil]; exact .refl
  | cons c cs ih =>
    rw [Port.ran_cons]
    exact (Port.Reach.call c .refl (h c (by simp))).trans (ih _ (fun d hd => h d (by simp [hd])))

/-- Neither a call nor taking orders touches PH or STATUS. -/
theorem Port.Reach.ph {ok : Call → Prop} {P Q : Port} (h : Port.Reach ok P Q) : Q.ph = P.ph := by
  induction h with
  | refl => rfl
  | call c _ _ ih => simpa using ih
  | orders _ ih => simpa using ih

theorem Port.Reach.err {ok : Call → Prop} {P Q : Port} (h : Port.Reach ok P Q) : Q.err = P.err := by
  induction h with
  | refl => rfl
  | call c _ _ ih => simpa using ih
  | orders _ ih => simpa using ih

theorem Port.Reach.errPin {ok : Call → Prop} {P Q : Port} (h : Port.Reach ok P Q) : Q.errPin = P.errPin := by
  induction h with
  | refl => rfl
  | call c _ _ ih => simpa using ih
  | orders _ ih => simpa using ih

theorem Port.Reach.owner {ok : Call → Prop} {P Q : Port} (h : Port.Reach ok P Q) : Q.owner = P.owner := by
  induction h with
  | refl => rfl
  | call c _ _ ih => simpa using ih
  | orders _ ih => simpa using ih

/-- The pin of an allowed call is one of the engine's. -/
theorem Call.okPbe_pin {c : Call} {p : Pin} (h : c.okPbe) (hp : c.pin? = some p) : p.engine = .pbe := by
  cases c with
  | out q v => cases hp; exact h
  | inp q => cases hp; obtain ⟨i, rfl⟩ := h; rfl
  | read q => cases hp; obtain ⟨i, rfl⟩ := h; rfl
  | delay d => cases hp

theorem Call.okSrl_pin {cfg : SrlCfg} {c : Call} {p : Pin} (h : c.okSrl cfg) (hp : c.pin? = some p) : p ∈ srlPins cfg := by
  cases c with
  | out q v => cases hp; exact h.1
  | inp q => exact h.elim
  | read q => exact h.elim
  | delay d => cases hp

/-- A run done from `P` on, seen through the engine's port: what it reached, or the call that failed. -/
def Ran.Follows {α : Type} (ok : Call → Prop) (port : α → Port) (P : Port) : Ran α → Prop
  | .done a => Port.Reach ok P (port a)
  | .failed a p => ∃ Q c, Port.Reach ok P Q ∧ ok c ∧ c.pin? = some p ∧ port a = Q.refusedBy p

theorem Ran.Follows.andThen {α : Type} {ok : Call → Prop} {port : α → Port} {P : Port} {r : Ran α} {f : α → Ran α}
    (h : r.Follows ok port P) (k : ∀ a, r = .done a → (f a).Follows ok port (port a)) :
    (r.andThen f).Follows ok port P := by
  cases r with
  | failed a p => exact h
  | done a =>
    have hk := k a rfl
    show (f a).Follows ok port P
    cases hf : f a with
    | done b => rw [hf] at hk; exact Port.Reach.trans h hk
    | failed b p =>
      rw [hf] at hk
      obtain ⟨Q, c, hq, hc, hp, he⟩ := hk
      exact ⟨Q, c, Port.Reach.trans h hq, hc, hp, he⟩

theorem Port.run_follows {ok : Call → Prop} (P : Port) (cs : List Call) (h : ∀ c ∈ cs, ok c) :
    (P.run cs).Follows ok id P := by
  rcases P.run_cases cs with ⟨-, hr⟩ | ⟨pre, c, post, p, rfl, hc, -, hr⟩ <;> rw [hr]
  · exact .ran P cs h
  · exact ⟨P.ran pre, c, .ran P pre (fun d hd => h d (by simp [hd])), h c (by simp), hc, rfl⟩

theorem Pbe.run_follows (e : Pbe) (cs : List Call) (h : ∀ c ∈ cs, c.okPbe) :
    (e.run cs).Follows Call.okPbe Pbe.port e.port := by
  have := Port.run_follows e.port cs h
  rw [Pbe.run]
  cases hr : e.port.run cs with
  | done Q => rw [hr] at this; exact this
  | failed Q p => rw [hr] at this; exact this

theorem Srl.run_follows {cfg : SrlCfg} (e : Srl) (cs : List Call) (h : ∀ c ∈ cs, c.okSrl cfg) :
    (e.run cs).Follows (Call.okSrl cfg) Srl.port e.port := by
  have := Port.run_follows e.port cs h
  rw [Srl.run]
  cases hr : e.port.run cs with
  | done Q => rw [hr] at this; exact this
  | failed Q p => rw [hr] at this; exact this

/-! ### The cycles and transactions of PBE -/

theorem Ran.Follows.from {α : Type} {ok : Call → Prop} {port : α → Port} {P Q : Port} {r : Ran α}
    (h : Port.Reach ok P Q) (k : r.Follows ok port Q) : r.Follows ok port P := by
  cases r with
  | done a => exact h.trans k
  | failed a p =>
    obtain ⟨R, c, hr, hc, hp, he⟩ := k
    exact ⟨R, c, h.trans hr, hc, hp, he⟩

/-- The calls of a vector step are on data pins (R106). -/
theorem Pbe.vector_follows (e : Pbe) (f : List (Fin 8) → List Call) (h : ∀ o, ∀ c ∈ f o, c.okPbe) :
    (e.vector f).Follows Call.okPbe Pbe.port e.port :=
  (Pbe.run_follows { e with port := e.port.orderTaken } _ (h _)).from (.orders .refl)

theorem okPbe_dbOutMode (o : List (Fin 8)) : ∀ c ∈ dbOutMode o, c.okPbe := by
  intro c hc; obtain ⟨i, -, rfl⟩ := List.mem_map.1 hc; rfl

theorem okPbe_dbDrive (b : Byte) (o : List (Fin 8)) : ∀ c ∈ dbDrive o b, c.okPbe := by
  intro c hc; obtain ⟨i, -, rfl⟩ := List.mem_map.1 hc; rfl

theorem okPbe_dbInMode (o : List (Fin 8)) : ∀ c ∈ dbInMode o, c.okPbe := by
  intro c hc; obtain ⟨i, -, rfl⟩ := List.mem_map.1 hc; exact ⟨i, rfl⟩

theorem okPbe_dbSample (o : List (Fin 8)) : ∀ c ∈ dbSample o, c.okPbe := by
  intro c hc; obtain ⟨i, -, rfl⟩ := List.mem_map.1 hc; exact ⟨i, rfl⟩

/-- A line of a transaction makes only calls PBE may make. -/
theorem Pbe.cycleLine_follows (t : Transfer) (c : CyStep) (e : Pbe) :
    (e.cycleLine t c).Follows Call.okPbe Pbe.port e.port := by
  have hr : ∀ cs : List Call, (∀ c ∈ cs, c.okPbe) → (e.run cs).Follows Call.okPbe Pbe.port e.port := e.run_follows
  cases c with
  | wdr => cases t <;> exact .refl
  | one => cases t <;> first | exact e.vector_follows _ okPbe_dbOutMode | exact e.vector_follows _ okPbe_dbInMode
  | six =>
    cases t with
    | write rs b => exact e.vector_follows _ (okPbe_dbDrive e.wdr)
    | read rs => exact (e.vector_follows _ okPbe_dbSample).andThen (fun _ _ => .refl)
  | two => cases t <;> exact hr _ (by simp [drive, Call.okPbe, Pin.engine])
  | _ => exact hr _ (by simp [drive, Call.okPbe, Pin.engine])

theorem Pbe.cycleLines_follows (t : Transfer) (cs : List CyStep) (e : Pbe) :
    (Pbe.cycleLines t cs e).Follows Call.okPbe Pbe.port e.port := by
  induction cs generalizing e with
  | nil => exact .refl
  | cons c cs ih => exact (e.cycleLine_follows t c).andThen (fun a _ => ih a)

theorem Pbe.rawWrite_follows (e : Pbe) (b : Byte) : (e.rawWrite b).Follows Call.okPbe Pbe.port e.port :=
  Pbe.cycleLines_follows _ _ e

theorem Pbe.rawRead_follows (e : Pbe) : e.rawRead.Follows Call.okPbe Pbe.port e.port := Pbe.cycleLines_follows _ _ e

theorem Pbe.writeSteps_follows (e : Pbe) (rs : Level) (b : Byte) :
    (e.writeSteps rs b).Follows Call.okPbe Pbe.port e.port := Pbe.cycleLines_follows _ _ e

theorem Pbe.readSteps_follows (e : Pbe) (rs : Level) : (e.readSteps rs).Follows Call.okPbe Pbe.port e.port :=
  (Pbe.cycleLines_follows _ _ e).andThen (fun _ _ => .refl)

theorem Pbe.pollSteps_follows (e : Pbe) : e.pollSteps.Follows Call.okPbe Pbe.port e.port :=
  (Pbe.run_follows e _ (by simp [Call.okPbe])).andThen (fun a _ => a.readSteps_follows .low)

theorem Pbe.putChar_follows (e : Pbe) (c : Byte) : (e.putChar c).Follows Call.okPbe Pbe.port e.port :=
  (e.writeSteps_follows .high c).andThen (fun _ _ => .refl)

/-! ### The serial load of SRL -/

theorem okSrl_fixed (cfg : SrlCfg) : Pin.latch ∈ srlPins cfg ∧ Pin.clk ∈ srlPins cfg ∧ Pin.din ∈ srlPins cfg := by
  simp [srlPins]

theorem okSrl_bitCalls (cfg : SrlCfg) (b : Bool) : ∀ c ∈ bitCalls b, c.okSrl cfg := by
  simp [bitCalls, drive, Call.okSrl, okSrl_fixed]

theorem okSrl_latchCalls (cfg : SrlCfg) : ∀ c ∈ latchCalls, c.okSrl cfg := by
  simp [latchCalls, drive, Call.okSrl, okSrl_fixed]

theorem okSrl_clearIndicators (cfg : SrlCfg) : ∀ c ∈ clearIndicators cfg, c.okSrl cfg := by
  obtain ⟨d, c, u, -, -, -⟩ := cfg
  cases d <;> cases c <;> cases u <;> simp [clearIndicators, pinOutOpt, drive, Call.okSrl, srlPins]

theorem Srl.shiftBits_follows (cfg : SrlCfg) (n : Nat) (e : Srl) :
    (e.shiftBits n).Follows (Call.okSrl cfg) Srl.port e.port := by
  induction n generalizing e with
  | zero => exact .refl
  | succ n ih =>
    have h := Srl.run_follows { e with bitcnt := Config.nShift - (n + 1) }
      (bitCalls (e.sr.getLsbD (Config.nShift - (n + 1)))) (okSrl_bitCalls cfg _)
    exact h.andThen (fun a _ => ih a)

theorem Srl.rawdispSteps_follows (cfg : SrlCfg) (e : Srl) (w : Word) :
    (e.rawdispSteps w).Follows (Call.okSrl cfg) Srl.port e.port :=
  (Srl.shiftBits_follows cfg _ { e with sr := w }).andThen (fun a _ => a.run_follows _ (okSrl_latchCalls cfg))

theorem Srl.displaySteps_follows (cfg : SrlCfg) (e : Srl) (cs : List Byte) :
    (e.displaySteps cs).Follows (Call.okSrl cfg) Srl.port e.port := by
  have h := Srl.rawdispSteps_follows cfg (e.encodeSteps cs) (e.encodeSteps cs).acc
  rwa [Srl.encodeSteps_port] at h

end Sys2Proof.Machine
end

