-- ==== Sys2Proof/Laws/Outcomes.lean ====
section
/-! SUPPORT. How an operation leaves its engine: the four ways a port can be left (ended, waiting, faulted, timed out), that
the configuration stays, and what exec and step make of it. -/

namespace Sys2Proof.Machine

/-- How an operation that stands at port `P` leaves the port: ended OK, waiting at a loop's head, ended by the pin fault of
the call just refused, or ended by a protocol timeout (R184, R188, R189). -/
inductive Port.Left (ok : Call → Prop) (P : Port) : Port → Prop where
  | ended {Q : Port} (r : OpResult) : Port.Reach ok P Q → Port.Left ok P (Q.finish r)
  | waits {Q : Port} (a : PhStep) : Port.Reach ok P Q → Port.Left ok P (Q.stayAt a)
  | faulted {Q : Port} (c : Call) (p : Pin) : Port.Reach ok P Q → ok c → c.pin? = some p →
      Port.Left ok P ((Q.refusedBy p).raise (.pinFault p))
  | timedOut {Q : Port} : Port.Reach ok P Q → Port.Left ok P (Q.raise .protocolTimeout)

/-- What a run holds, done or stopped. -/
def Ran.val {α : Type} : Ran α → α
  | .done a => a
  | .failed a _ => a

theorem Ran.val_andThen {α β : Type} (g : α → β) (r : Ran α) (f : α → Ran α) (h : ∀ a, g (f a).val = g a) :
    g (r.andThen f).val = g r.val := by
  cases r with
  | done a => exact h a
  | failed a p => rfl

/-- What a wait holds. -/
def Waited.val : Waited → Pbe
  | .ready e => e
  | .polling e => e
  | .timeout e => e
  | .failed e _ => e

theorem Waited.val_andThen {β : Type} (g : Pbe → β) (w : Waited) (f : Pbe → Waited) (h : ∀ e, g (f e).val = g e) :
    g (w.andThen f).val = g w.val := by
  cases w with
  | ready e => exact h e
  | polling e => rfl
  | timeout e => rfl
  | failed e p => rfl

/-! ### The configuration stays (R17, R31, R115) -/

@[simp] theorem Pbe.run_cfg (e : Pbe) (cs : List Call) : (e.run cs).val.cfg = e.cfg := by
  rw [Pbe.run]; cases e.port.run cs <;> rfl

@[simp] theorem Srl.run_cfg (e : Srl) (cs : List Call) : (e.run cs).val.cfg = e.cfg := by
  rw [Srl.run]; cases e.port.run cs <;> rfl

@[simp] theorem Pbe.vector_cfg (e : Pbe) (f : List (Fin 8) → List Call) : (e.vector f).val.cfg = e.cfg := by
  rw [Pbe.vector, Pbe.run_cfg]

@[simp] theorem Pbe.cycleLine_cfg (t : Transfer) (c : CyStep) (e : Pbe) : (e.cycleLine t c).val.cfg = e.cfg := by
  cases c <;> cases t <;> simp only [Pbe.cycleLine, Pbe.run_cfg, Pbe.vector_cfg]
  case six.read => rw [Pbe.sampleStep, Ran.val_andThen Pbe.cfg _ _ (fun _ => rfl), Pbe.vector_cfg]
  all_goals rfl

@[simp] theorem Pbe.cycleLines_cfg (t : Transfer) (cs : List CyStep) (e : Pbe) : (Pbe.cycleLines t cs e).val.cfg = e.cfg := by
  induction cs generalizing e with
  | nil => rfl
  | cons c cs ih => rw [Pbe.cycleLines, Ran.val_andThen Pbe.cfg _ _ ih, Pbe.cycleLine_cfg]

@[simp] theorem Pbe.rawWrite_cfg (e : Pbe) (b : Byte) : (e.rawWrite b).val.cfg = e.cfg := by rw [Pbe.rawWrite, Pbe.cycleLines_cfg]

@[simp] theorem Pbe.rawRead_cfg (e : Pbe) : e.rawRead.val.cfg = e.cfg := by rw [Pbe.rawRead, Pbe.cycleLines_cfg]

@[simp] theorem Pbe.writeSteps_cfg (e : Pbe) (rs : Level) (b : Byte) : (e.writeSteps rs b).val.cfg = e.cfg := by
  rw [Pbe.writeSteps, Pbe.cycleLines_cfg]

@[simp] theorem Pbe.readSteps_cfg (e : Pbe) (rs : Level) : (e.readSteps rs).val.cfg = e.cfg := by
  rw [Pbe.readSteps, Ran.val_andThen Pbe.cfg _ _ (fun _ => rfl), Pbe.cycleLines_cfg]

@[simp] theorem Pbe.firstPoll_cfg (e : Pbe) : e.firstPoll.val.cfg = e.cfg := by
  have h := e.readSteps_cfg .low
  rw [Pbe.firstPoll]
  cases hr : e.readSteps .low with
  | failed a p => rw [hr] at h; exact h
  | done a => rw [hr] at h; dsimp only; split <;> exact h

@[simp] theorem Pbe.pollSteps_cfg (e : Pbe) : e.pollSteps.val.cfg = e.cfg := by
  rw [Pbe.pollSteps, Ran.val_andThen Pbe.cfg _ _ (fun a => a.readSteps_cfg .low), Pbe.run_cfg]

@[simp] theorem Pbe.nextPoll_cfg (e : Pbe) : e.nextPoll.val.cfg = e.cfg := by
  have h := e.pollSteps_cfg
  rw [Pbe.nextPoll]
  cases hr : e.pollSteps with
  | failed a p => rw [hr] at h; exact h
  | done a =>
    rw [hr] at h; dsimp only
    split
    · exact h
    · split <;> exact h

@[simp] theorem Pbe.putChar_cfg (e : Pbe) (c : Byte) : (e.putChar c).val.cfg = e.cfg := by
  rw [Pbe.putChar, Ran.val_andThen Pbe.cfg _ _ (fun _ => rfl), Pbe.writeSteps_cfg]

theorem Pbe.putThen_cfg (c : Byte) (f : Pbe → Waited) (h : ∀ e, (f e).val.cfg = e.cfg) (e : Pbe) :
    (Pbe.putThen c f e).val.cfg = e.cfg := by
  have hp := e.putChar_cfg c
  rw [Pbe.putThen]
  cases hr : e.putChar c with
  | failed a p => rw [hr] at hp; exact hp
  | done a => rw [hr] at hp; exact (h a).trans hp

@[simp] theorem Pbe.putsFrom_cfg (cs : List Byte) (e : Pbe) : (Pbe.putsFrom cs e).val.cfg = e.cfg := by
  induction cs generalizing e with
  | nil => rfl
  | cons c cs ih =>
    rw [Pbe.putsFrom, Waited.val_andThen Pbe.cfg _ _ (Pbe.putThen_cfg c _ ih), Pbe.firstPoll_cfg]

@[simp] theorem Pbe.putsReady_cfg (e : Pbe) : e.putsReady.val.cfg = e.cfg := by
  rw [Pbe.putsReady]
  split
  · rfl
  · exact Pbe.putThen_cfg _ _ (Pbe.putsFrom_cfg _) e

@[simp] theorem Pbe.putsResume_cfg (e : Pbe) : e.putsResume.val.cfg = e.cfg := by
  rw [Pbe.putsResume, Waited.val_andThen Pbe.cfg _ _ Pbe.putsReady_cfg, Pbe.nextPoll_cfg]

@[simp] theorem Pbe.conclude_cfg (f : Pbe → OpResult) (r : Ran Pbe) : (Pbe.conclude f r).cfg = r.val.cfg := by cases r <;> rfl

@[simp] theorem Pbe.internal_cfg (r : Ran Pbe) : (Pbe.internal r).cfg = r.val.cfg := by cases r <;> rfl

@[simp] theorem Pbe.settle_cfg (w : Waited) : (Pbe.settle w).cfg = w.val.cfg := by cases w <;> rfl

@[simp] theorem Srl.shiftBits_cfg (n : Nat) (e : Srl) : (e.shiftBits n).val.cfg = e.cfg := by
  induction n generalizing e with
  | zero => rfl
  | succ n ih => rw [Srl.shiftBits, Ran.val_andThen Srl.cfg _ _ ih, Srl.run_cfg]

@[simp] theorem Srl.rawdispSteps_cfg (e : Srl) (w : Word) : (e.rawdispSteps w).val.cfg = e.cfg := by
  rw [Srl.rawdispSteps, Ran.val_andThen Srl.cfg _ _ (fun a => a.run_cfg _), Srl.shiftBits_cfg]

@[simp] theorem Srl.displaySteps_cfg (e : Srl) (cs : List Byte) : (e.displaySteps cs).val.cfg = e.cfg := by
  rw [Srl.displaySteps, Srl.rawdispSteps_cfg, Srl.encodeSteps_cfg]

@[simp] theorem Srl.clearAllSteps_cfg (e : Srl) : e.clearAllSteps.val.cfg = e.cfg := by
  rw [Srl.clearAllSteps, Ran.val_andThen Srl.cfg _ _ (fun a => a.run_cfg _), Srl.rawdispSteps_cfg]

@[simp] theorem Srl.tickSteps_cfg (e : Srl) : e.tickSteps.val.cfg = e.cfg := by
  rw [Srl.tickSteps, Ran.val_andThen Srl.cfg _ _ (fun a => a.run_cfg _), Srl.displaySteps_cfg]

@[simp] theorem Srl.conclude_cfg (f : Srl → OpResult) (r : Ran Srl) : (Srl.conclude f r).cfg = r.val.cfg := by cases r <;> rfl

@[simp] theorem Srl.settle_tick_cfg (e : Srl) : (Srl.settle e.tick).cfg = e.cfg := by
  have h := e.tickSteps_cfg
  rw [Srl.tick]
  cases hr : e.tickSteps with
  | failed a p => rw [hr] at h; exact h
  | done a => rw [hr] at h; dsimp only; split <;> exact h

/-! ### How each shared operation leaves the port -/

theorem Pbe.conclude_left (f : Pbe → OpResult) {P : Port} {r : Ran Pbe} (h : r.Follows Call.okPbe Pbe.port P) :
    Port.Left Call.okPbe P (Pbe.conclude f r).port := by
  cases r with
  | done e => exact .ended _ h
  | failed e p =>
    obtain ⟨Q, c, hq, hc, hp, he⟩ := h
    show Port.Left _ P (e.port.raise _)
    rw [he]; exact .faulted c p hq hc hp

theorem Srl.conclude_left (f : Srl → OpResult) {cfg : SrlCfg} {P : Port} {r : Ran Srl}
    (h : r.Follows (Call.okSrl cfg) Srl.port P) : Port.Left (Call.okSrl cfg) P (Srl.conclude f r).port := by
  cases r with
  | done e => exact .ended _ h
  | failed e p =>
    obtain ⟨Q, c, hq, hc, hp, he⟩ := h
    show Port.Left _ P (e.port.raise _)
    rw [he]; exact .faulted c p hq hc hp

/-- A wait done from `P` on, seen through the port. -/
def Waited.Follows (P : Port) : Waited → Prop
  | .ready e => Port.Reach Call.okPbe P e.port
  | .polling e => Port.Reach Call.okPbe P e.port
  | .timeout e => Port.Reach Call.okPbe P e.port
  | .failed e p => (Ran.failed e p).Follows Call.okPbe Pbe.port P

theorem Waited.Follows.andThen {P : Port} {w : Waited} {f : Pbe → Waited} (h : w.Follows P)
    (k : ∀ e, (f e).Follows e.port) : (w.andThen f).Follows P := by
  cases w with
  | ready e =>
    have hk := k e
    show (f e).Follows P
    cases hf : f e with
    | failed a p => rw [hf] at hk; exact Ran.Follows.from (r := .failed a p) h hk
    | ready a => rw [hf] at hk; exact Port.Reach.trans h hk
    | polling a => rw [hf] at hk; exact Port.Reach.trans h hk
    | timeout a => rw [hf] at hk; exact Port.Reach.trans h hk
  | polling e => exact h
  | timeout e => exact h
  | failed e p => exact h

theorem Pbe.firstPoll_follows (e : Pbe) : e.firstPoll.Follows e.port := by
  have h := e.readSteps_follows .low
  rw [Pbe.firstPoll]
  cases hr : e.readSteps .low with
  | failed a p => rw [hr] at h; exact h
  | done a => rw [hr] at h; dsimp only; split <;> exact h

theorem Pbe.nextPoll_follows (e : Pbe) : e.nextPoll.Follows e.port := by
  have h := e.pollSteps_follows
  rw [Pbe.nextPoll]
  cases hr : e.pollSteps with
  | failed a p => rw [hr] at h; exact h
  | done a =>
    rw [hr] at h; dsimp only
    split
    · exact h
    · split <;> exact h

theorem Pbe.putThen_follows (c : Byte) (f : Pbe → Waited) (k : ∀ e, (f e).Follows e.port) (e : Pbe) :
    (Pbe.putThen c f e).Follows e.port := by
  have hp := e.putChar_follows c
  rw [Pbe.putThen]
  cases hr : e.putChar c with
  | failed a p => rw [hr] at hp; exact hp
  | done a => rw [hr] at hp; exact Waited.Follows.andThen (w := .ready a) hp k

theorem Pbe.putsFrom_follows (cs : List Byte) (e : Pbe) : (Pbe.putsFrom cs e).Follows e.port := by
  induction cs generalizing e with
  | nil => exact .refl
  | cons c cs ih => exact e.firstPoll_follows.andThen (Pbe.putThen_follows c _ ih)

theorem Pbe.putsResume_follows (e : Pbe) : e.putsResume.Follows e.port := by
  refine e.nextPoll_follows.andThen fun a => ?_
  rw [Pbe.putsReady]
  split
  · exact .refl
  · exact Pbe.putThen_follows _ _ (Pbe.putsFrom_follows _) a

theorem Pbe.settle_left {P : Port} {w : Waited} (h : w.Follows P) : Port.Left Call.okPbe P (Pbe.settle w).port := by
  cases w with
  | ready e => exact .ended _ h
  | polling e => exact .waits _ h
  | timeout e => exact .timedOut h
  | failed e p =>
    obtain ⟨Q, c, hq, hc, hp, he⟩ := h
    show Port.Left _ P (e.port.raise _)
    rw [he]; exact .faulted c p hq hc hp

theorem Srl.clearAllSteps_follows (e : Srl) : e.clearAllSteps.Follows (Call.okSrl e.cfg) Srl.port e.port := by
  refine (Srl.rawdispSteps_follows e.cfg e 0).andThen fun a ha => ?_
  have hc := e.rawdispSteps_cfg 0
  rw [ha] at hc
  have hc : a.cfg = e.cfg := hc
  rw [hc]
  exact a.run_follows _ (okSrl_clearIndicators e.cfg)

theorem Srl.tickSteps_follows (cfg : SrlCfg) (e : Srl) : e.tickSteps.Follows (Call.okSrl cfg) Srl.port e.port :=
  (Srl.displaySteps_follows cfg e _).andThen (fun a _ => a.run_follows _ (by simp [Call.okSrl]))

theorem Srl.settle_tick_left (cfg : SrlCfg) (e : Srl) : Port.Left (Call.okSrl cfg) e.port (Srl.settle e.tick).port := by
  have h := Srl.tickSteps_follows cfg e
  rw [Srl.tick]
  cases hr : e.tickSteps with
  | failed a p =>
    rw [hr] at h
    obtain ⟨Q, c, hq, hc, hp, he⟩ := h
    show Port.Left _ _ (a.port.raise _)
    rw [he]; exact .faulted c p hq hc hp
  | done a => rw [hr] at h; dsimp only; split <;> first | exact .ended _ h | exact .waits _ h

/-! ### What exec and step make of it -/

/-- A host operation of PBE runs on an idle engine, touches nothing else, keeps the configuration and leaves the port in one
of the four ways. -/
theorem pbeRequest_left {i : Instr} {body : Pbe → Pbe} {s t : State} (h : pbeRequest i body s = .next t)
    (hb : Port.Left Call.okPbe (s.pbe.port.beginOp i) (body (s.pbe.begun i)).port)
    (hc : (body (s.pbe.begun i)).cfg = s.pbe.cfg) :
    s.pbe.port.ph = .idle ∧ t = { s with pbe := t.pbe } ∧ t.pbe.cfg = s.pbe.cfg ∧
      Port.Left Call.okPbe (s.pbe.port.beginOp i) t.pbe.port := by
  by_cases hi : s.pbe.port.ph = .idle
  · rw [pbeRequest_idle hi] at h; cases h; exact ⟨hi, rfl, hc, hb⟩
  · simp [pbeRequest, hi] at h

/-- A host operation of SRL, likewise. -/
theorem srlRequest_left {i : Instr} {body : Srl → Srl} {s t : State} (h : srlRequest i body s = .next t)
    (hb : Port.Left (Call.okSrl s.srl.cfg) (s.srl.port.beginOp i) (body (s.srl.begun i)).port)
    (hc : (body (s.srl.begun i)).cfg = s.srl.cfg) :
    s.srl.port.ph = .idle ∧ t = { s with srl := t.srl } ∧ t.srl.cfg = s.srl.cfg ∧
      Port.Left (Call.okSrl s.srl.cfg) (s.srl.port.beginOp i) t.srl.port := by
  by_cases hi : s.srl.port.ph = .idle
  · rw [srlRequest_idle hi] at h; cases h; exact ⟨hi, rfl, hc, hb⟩
  · simp [srlRequest, hi] at h

/-- Every host operation of PBE (R85). -/
theorem exec_pbe {i : Instr} {s t : State} (hr : i.requestable = true) (he : i.engine = .pbe) (h : exec i s = .next t) :
    s.pbe.port.ph = .idle ∧ t = { s with pbe := t.pbe } ∧ t.pbe.cfg = s.pbe.cfg ∧
      Port.Left Call.okPbe (s.pbe.port.beginOp i) t.pbe.port := by
  have hw : ∀ rs b, busWrite i = some (rs, b) → _ := fun rs b hb =>
    pbeRequest_left ((exec_busWrite hb s).symm.trans h)
      (Pbe.conclude_left _ (Pbe.writeSteps_follows (s.pbe.begun i) rs b)) (by simp)
  have hd : ∀ rs, busRead i = some rs → _ := fun rs hb =>
    pbeRequest_left ((exec_busRead hb s).symm.trans h)
      (Pbe.conclude_left _ (Pbe.readSteps_follows (s.pbe.begun i) rs)) (by simp)
  cases i with
  | rdbf => exact hd _ rfl
  | rddata => exact hd _ rfl
  | waitrdy => exact pbeRequest_left ((exec_waitrdy s).symm.trans h) (Pbe.settle_left (Pbe.firstPoll_follows (s.pbe.begun .waitrdy))) (by simp)
  | puts t =>
    have h : execPuts t s = _ := h
    rw [execPuts] at h
    cases ht : textBytes t with
    | none => rw [ht] at h; cases h
    | some cs =>
      rw [ht] at h
      exact pbeRequest_left h (Pbe.settle_left (Pbe.putsFrom_follows cs { s.pbe.begun (.puts t) with txt := ⟨cs, 0⟩ })) (by simp)
  | wrdata b => exact hw _ _ rfl
  | cmd b => exact hw _ _ rfl
  | clear => exact hw _ _ rfl
  | home => exact hw _ _ rfl
  | entry _ _ => exact hw _ _ rfl
  | dispmode _ _ _ => exact hw _ _ rfl
  | shift _ _ => exact hw _ _ rfl
  | func _ _ _ => exact hw _ _ rfl
  | setcg _ => exact hw _ _ rfl
  | setdd _ => exact hw _ _ rfl
  | clrall => cases he
  | encode _ => cases he
  | display _ => cases he
  | rawdisp _ => cases he
  | demo _ => cases he
  | rawwr _ => cases hr
  | rawrd => cases hr
  | lookup _ => cases hr

/-- Every host operation of SRL (R85). -/
theorem exec_srl {i : Instr} {s t : State} (hr : i.requestable = true) (he : i.engine = .srl) (h : exec i s = .next t) :
    s.srl.port.ph = .idle ∧ t = { s with srl := t.srl } ∧ t.srl.cfg = s.srl.cfg ∧
      Port.Left (Call.okSrl s.srl.cfg) (s.srl.port.beginOp i) t.srl.port := by
  cases i with
  | clrall =>
    exact srlRequest_left ((exec_clrall s).symm.trans h)
      (Srl.conclude_left _ (Srl.clearAllSteps_follows (s.srl.begun .clrall))) (by simp)
  | rawdisp w =>
    exact srlRequest_left ((exec_rawdisp w s).symm.trans h)
      (Srl.conclude_left _ (Srl.rawdispSteps_follows s.srl.cfg (s.srl.begun (.rawdisp w)) w)) (by simp)
  | encode t =>
    have h : execEncode t s = _ := h
    rw [execEncode] at h
    cases ht : textBytes t with
    | none => rw [ht] at h; cases h
    | some cs =>
      rw [ht] at h
      refine srlRequest_left h (Srl.conclude_left _ ?_) (by simp [Ran.val])
      show Port.Reach _ _ ((s.srl.begun (.encode t)).encodeSteps cs).port
      rw [Srl.encodeSteps_port]; exact .refl
  | display t =>
    have h : execDisplay t s = _ := h
    rw [execDisplay] at h
    cases ht : textBytes t with
    | none => rw [ht] at h; cases h
    | some cs =>
      rw [ht] at h
      exact srlRequest_left h (Srl.conclude_left _ (Srl.displaySteps_follows s.srl.cfg (s.srl.begun (.display t)) cs)) (by simp)
  | demo c =>
    have h : execDemo c s = _ := h
    rw [execDemo] at h
    cases hd : s.srl.cfg.hasDemo with
    | false => simp [hd] at h
    | true =>
      rw [if_pos hd] at h
      exact srlRequest_left h
        (Srl.settle_tick_left s.srl.cfg { s.srl.begun (.demo c) with win := 0, cancel := c }) (by simp)
  | lookup _ => cases hr
  | _ => cases he

/-! ### What a line of pseudocode can do (R28) -/

/-- What a line holds. -/
def Lined.val {α : Type} : Lined α → α
  | .at_ _ x => x
  | .ret _ x => x
  | .raise _ x => x

theorem Ran.val_goto {α β : Type} (g : α → β) (r : Ran α) (f : α → Lined α) (h : ∀ x, g (f x).val = g x) :
    g (r.goto f).val = g r.val := by
  cases r with
  | done x => exact h x
  | failed x p => rfl

@[simp] theorem Pbe.transferLine_cfg (t : Transfer) (pos : CyStep → PhStep) (last : Pbe → Lined Pbe)
    (h : ∀ x, (last x).val.cfg = x.cfg) (c : CyStep) (e : Pbe) : (e.transferLine t pos last c).val.cfg = e.cfg := by
  rw [Pbe.transferLine, Ran.val_goto Pbe.cfg, Pbe.cycleLine_cfg]
  intro x
  cases t.next c with
  | none => exact h x
  | some c' => rfl

theorem Transfer.last_cfg (t : Transfer) (x : Pbe) : (t.last x).val.cfg = x.cfg := by cases t <;> rfl

theorem Pbe.waited_cfg (i : Instr) (x : Pbe) : (x.waited i).val.cfg = x.cfg := by cases i <;> rfl

@[simp] theorem Pbe.line_cfg (i : Instr) (a : PhStep) (e : Pbe) : (e.line i a).val.cfg = e.cfg := by
  cases a <;> simp only [Pbe.line]
  case cycle c =>
    split
    · exact Pbe.transferLine_cfg _ _ _ (Transfer.last_cfg _) c e
    · rfl
  case firstPoll c => exact Pbe.transferLine_cfg _ _ _ (fun _ => rfl) c e
  case poll c => exact Pbe.transferLine_cfg _ _ _ (fun _ => rfl) c e
  case char c =>
    split
    · exact Pbe.transferLine_cfg _ _ _ (fun _ => rfl) c e
    · rfl
  case pollLoop => rw [Ran.val_goto Pbe.cfg _ _ (fun _ => rfl), Pbe.run_cfg]
  case nextChar => split <;> rfl
  case firstTest => split <;> first | exact Pbe.waited_cfg i e | rfl
  case test => split <;> first | exact Pbe.waited_cfg i e | rfl
  case bound => split <;> rfl
  all_goals rfl

@[simp] theorem Pbe.afterLine_cfg (l : Lined Pbe) : (Pbe.afterLine l).cfg = l.val.cfg := by
  cases l with
  | raise c x => cases c <;> rfl
  | _ => rfl

@[simp] theorem Pbe.lineOn_cfg (e : Pbe) : e.lineOn.cfg = e.cfg := by
  rw [Pbe.lineOn]; split
  · rfl
  · simp

theorem Srl.encoded_cfg (i : Instr) (x : Srl) : (x.encoded i).val.cfg = x.cfg := by cases i <;> rfl

theorem Srl.loaded_cfg (i : Instr) (x : Srl) : (x.loaded i).val.cfg = x.cfg := by cases i <;> rfl

@[simp] theorem Srl.line_cfg (i : Instr) (a : PhStep) (e : Srl) : (e.line i a).val.cfg = e.cfg := by
  have hr : ∀ (cs : List Call) (f : Srl → Lined Srl), (∀ x, (f x).val.cfg = x.cfg) → ((e.run cs).goto f).val.cfg = e.cfg :=
    fun cs f h => by rw [Ran.val_goto Srl.cfg _ _ h, Srl.run_cfg]
  cases a <;> simp only [Srl.line]
  case result => exact Srl.encoded_cfg i _
  case latchLowDelay => exact hr _ _ (Srl.loaded_cfg i)
  case nextChar => split <;> rfl
  case isDot => split <;> rfl
  case isDpf => split <;> rfl
  case bitLoop => split <;> rfl
  case checkCancel => split <;> rfl
  all_goals first | exact hr _ _ (fun _ => rfl) | rfl

@[simp] theorem Srl.afterLine_cfg (l : Lined Srl) : (Srl.afterLine l).cfg = l.val.cfg := by cases l <;> rfl

@[simp] theorem Srl.lineOn_cfg (e : Srl) : e.lineOn.cfg = e.cfg := by
  rw [Srl.lineOn]; split
  · rfl
  · simp

/-- A line done from `P` on, seen through the engine's port. -/
def Lined.Follows {α : Type} (ok : Call → Prop) (port : α → Port) (P : Port) : Lined α → Prop
  | .at_ _ x => Port.Reach ok P (port x)
  | .ret _ x => Port.Reach ok P (port x)
  | .raise (.pinFault p) x => (Ran.failed x p).Follows ok port P
  | .raise .protocolTimeout x => Port.Reach ok P (port x)

theorem Lined.Follows.from {α : Type} {ok : Call → Prop} {port : α → Port} {P Q : Port} {l : Lined α}
    (h : Port.Reach ok P Q) (k : l.Follows ok port Q) : l.Follows ok port P := by
  cases l with
  | at_ a x => exact h.trans k
  | ret r x => exact h.trans k
  | raise c x =>
    cases c with
    | pinFault p => exact Ran.Follows.from (r := .failed x p) h k
    | protocolTimeout => exact h.trans k

theorem Ran.Follows.goto {α : Type} {ok : Call → Prop} {port : α → Port} {P : Port} {r : Ran α} {f : α → Lined α}
    (h : r.Follows ok port P) (k : ∀ x, (f x).Follows ok port (port x)) : (r.goto f).Follows ok port P := by
  cases r with
  | done x => exact (k x).from h
  | failed x p => exact h

theorem Pbe.transferLine_follows (t : Transfer) (pos : CyStep → PhStep) (last : Pbe → Lined Pbe)
    (h : ∀ x, (last x).Follows Call.okPbe Pbe.port x.port) (c : CyStep) (e : Pbe) :
    (e.transferLine t pos last c).Follows Call.okPbe Pbe.port e.port := by
  rw [Pbe.transferLine]
  refine (e.cycleLine_follows t c).goto fun x => ?_
  cases t.next c with
  | none => exact h x
  | some c' => exact .refl

theorem Pbe.waited_follows (i : Instr) (x : Pbe) : (x.waited i).Follows Call.okPbe Pbe.port x.port := by
  cases i <;> exact .refl

/-- A line of a PBE operation makes only calls PBE may make. -/
theorem Pbe.line_follows (i : Instr) (a : PhStep) (e : Pbe) : (e.line i a).Follows Call.okPbe Pbe.port e.port := by
  cases a <;> simp only [Pbe.line]
  case cycle c =>
    split
    · next t _ => exact Pbe.transferLine_follows _ _ _ (fun x => by cases t <;> exact .refl) c e
    · exact .refl
  case firstPoll c => refine Pbe.transferLine_follows _ _ _ ?_ c e; exact fun _ => Port.Reach.refl
  case poll c => refine Pbe.transferLine_follows _ _ _ ?_ c e; exact fun _ => Port.Reach.refl
  case char c =>
    split
    · refine Pbe.transferLine_follows _ _ _ ?_ c e; exact fun _ => Port.Reach.refl
    · exact .refl
  case pollLoop => exact (e.run_follows _ (by simp [Call.okPbe])).goto (fun _ => Port.Reach.refl)
  case nextChar => split <;> exact .refl
  case firstTest => split <;> first | exact Pbe.waited_follows i e | exact .refl
  case test => split <;> first | exact Pbe.waited_follows i e | exact .refl
  case bound => split <;> exact .refl
  all_goals exact .refl

theorem Srl.encoded_follows (ok : Call → Prop) (i : Instr) (x : Srl) : (x.encoded i).Follows ok Srl.port x.port := by
  cases i <;> exact .refl

theorem Srl.loaded_follows (ok : Call → Prop) (i : Instr) (x : Srl) : (x.loaded i).Follows ok Srl.port x.port := by
  cases i <;> exact .refl

theorem okSrl_pinOutOpt (cfg : SrlCfg) (present : Bool) (p : Pin) (l : Level) (h : present = true → p ∈ srlPins cfg) :
    ∀ c ∈ pinOutOpt present p l, c.okSrl cfg := by
  cases present <;> simp_all [pinOutOpt, drive, Call.okSrl]

/-- A line of an SRL operation makes only calls SRL may make. -/
theorem Srl.line_follows (i : Instr) (a : PhStep) (e : Srl) : (e.line i a).Follows (Call.okSrl e.cfg) Srl.port e.port := by
  have hr : ∀ (cs : List Call) (f : Srl → Lined Srl), (∀ c ∈ cs, c.okSrl e.cfg) →
      (∀ x, (f x).Follows (Call.okSrl e.cfg) Srl.port x.port) →
      ((e.run cs).goto f).Follows (Call.okSrl e.cfg) Srl.port e.port := fun cs f h k => (e.run_follows cs h).goto k
  have hd : ∀ (p : Pin) (l : Level), p ∈ srlPins e.cfg → ∀ c ∈ [drive p l], c.okSrl e.cfg := by
    intro p l h; simp [drive, Call.okSrl, h]
  have ht : ∀ d : Delay, ∀ c ∈ [Call.delay d], c.okSrl e.cfg := by simp [Call.okSrl]
  have hf := okSrl_fixed e.cfg
  cases a <;> simp only [Srl.line]
  case result => exact Srl.encoded_follows _ i _
  case latchLowDelay => exact hr _ _ (ht _) (Srl.loaded_follows _ i)
  case nextChar => split <;> exact .refl
  case isDot => split <;> exact .refl
  case isDpf => split <;> exact .refl
  case bitLoop => split <;> exact .refl
  case checkCancel => split <;> exact .refl
  case cur => exact hr _ _ (okSrl_pinOutOpt _ _ _ _ (fun h => by simp [srlPins, h])) (fun _ => .refl)
  case col => exact hr _ _ (okSrl_pinOutOpt _ _ _ _ (fun h => by simp [srlPins, h])) (fun _ => .refl)
  case deg => exact hr _ _ (okSrl_pinOutOpt _ _ _ _ (fun h => by simp [srlPins, h])) (fun _ => .refl)
  case din => exact hr _ _ (hd _ _ hf.2.2) (fun _ => .refl)
  case clkHigh => exact hr _ _ (hd _ _ hf.2.1) (fun _ => .refl)
  case clkLow => exact hr _ _ (hd _ _ hf.2.1) (fun _ => .refl)
  case latchHigh => exact hr _ _ (hd _ _ hf.1) (fun _ => .refl)
  case latchLow => exact hr _ _ (hd _ _ hf.1) (fun _ => .refl)
  all_goals first | exact hr _ _ (ht _) (fun _ => .refl) | exact .refl

/-- A line leaves its operation in progress at the next line, or ended (R28, R184, R188, R189). -/
theorem Pbe.afterLine_left {P : Port} {l : Lined Pbe} (h : l.Follows Call.okPbe Pbe.port P) :
    Port.Left Call.okPbe P (Pbe.afterLine l).port := by
  cases l with
  | at_ a e => exact .waits _ h
  | ret r e => exact .ended _ h
  | raise c e =>
    cases c with
    | pinFault p =>
      obtain ⟨Q, c, hq, hc, hp, he⟩ := h
      show Port.Left _ P (e.port.raise _)
      rw [he]; exact .faulted c p hq hc hp
    | protocolTimeout => exact .timedOut h

theorem Srl.line_noTimeout (i : Instr) (a : PhStep) (e x : Srl) : e.line i a ≠ .raise .protocolTimeout x := by
  have hr : ∀ (cs : List Call) (f : Srl → Lined Srl), (∀ y, f y ≠ .raise .protocolTimeout x) →
      (e.run cs).goto f ≠ .raise .protocolTimeout x := by
    intro cs f h
    cases e.run cs with
    | done y => exact h y
    | failed y p => intro h; cases h
  have he : ∀ y : Srl, y.encoded i ≠ .raise .protocolTimeout x := by intro y; cases i <;> (intro h; cases h)
  have hl : ∀ y : Srl, y.loaded i ≠ .raise .protocolTimeout x := by intro y; cases i <;> (intro h; cases h)
  cases a <;> simp only [Srl.line]
  case result => exact he _
  case latchLowDelay => exact hr _ _ hl
  all_goals first
    | (split <;> (intro h; cases h))
    | exact hr _ _ (fun y => by intro h; cases h)
    | (intro h; cases h)

theorem Srl.afterLine_left {ok : Call → Prop} {P : Port} {l : Lined Srl} (h : l.Follows ok Srl.port P) :
    Port.Left ok P (Srl.afterLine l).port := by
  cases l with
  | at_ a e => exact .waits _ h
  | ret r e => exact .ended _ h
  | raise c e =>
    cases c with
    | pinFault p =>
      obtain ⟨Q, c, hq, hc, hp, he⟩ := h
      show Port.Left _ P (e.port.raise _)
      rw [he]; exact .faulted c p hq hc hp
    | protocolTimeout => exact .timedOut h

/-! ### What an engine's own turn does -/

/-- PBE executing one line. -/
theorem Pbe.lineOn_left (e : Pbe) : e.lineOn.cfg = e.cfg ∧
    (e.lineOn = e ∨ (∃ i a, e.port.ph = .busy i a) ∧ Port.Left Call.okPbe e.port e.lineOn.port) := by
  refine ⟨by simp, ?_⟩
  cases h : e.port.ph with
  | idle => exact .inl (by rw [Pbe.lineOn, h])
  | busy i a =>
    have : e.lineOn = Pbe.afterLine (e.line i a) := by rw [Pbe.lineOn, h]
    exact .inr ⟨⟨i, a, rfl⟩, this ▸ Pbe.afterLine_left (e.line_follows i a)⟩

/-- SRL executing one line. -/
theorem Srl.lineOn_left (e : Srl) : e.lineOn.cfg = e.cfg ∧
    (e.lineOn = e ∨ (∃ i a, e.port.ph = .busy i a) ∧ Port.Left (Call.okSrl e.cfg) e.port e.lineOn.port) := by
  refine ⟨by simp, ?_⟩
  cases h : e.port.ph with
  | idle => exact .inl (by rw [Srl.lineOn, h])
  | busy i a =>
    have : e.lineOn = Srl.afterLine (e.line i a) := by rw [Srl.lineOn, h]
    exact .inr ⟨⟨i, a, rfl⟩, this ▸ Srl.afterLine_left (e.line_follows i a)⟩

/-- PBE's own turn leaves it as it is, or carries its operation on (R131). -/
theorem Pbe.goOn_left (e : Pbe) : e.goOn.cfg = e.cfg ∧
    (e.goOn = e ∨ (∃ i a, e.port.ph = .busy i a) ∧ Port.Left Call.okPbe e.port e.goOn.port) := by
  cases hl : e.loopTurn with
  | none =>
    have : e.goOn = e.lineOn := by rw [Pbe.goOn, hl]; rfl
    rw [this]; exact e.lineOn_left
  | some e' =>
    have : e.goOn = e' := by rw [Pbe.goOn, hl]; rfl
    rw [this]
    rw [Pbe.loopTurn] at hl
    split at hl
    · next h => cases hl; exact ⟨by simp, .inr ⟨⟨_, _, h⟩, Pbe.settle_left e.nextPoll_follows⟩⟩
    · next h => cases hl; exact ⟨by simp, .inr ⟨⟨_, _, h⟩, Pbe.settle_left e.putsResume_follows⟩⟩
    · cases hl

/-- SRL's own turn, likewise (R164). -/
theorem Srl.goOn_left (e : Srl) : e.goOn.cfg = e.cfg ∧
    (e.goOn = e ∨ (∃ i a, e.port.ph = .busy i a) ∧ Port.Left (Call.okSrl e.cfg) e.port e.goOn.port) := by
  cases hl : e.loopTurn with
  | none =>
    have : e.goOn = e.lineOn := by rw [Srl.goOn, hl]; rfl
    rw [this]; exact e.lineOn_left
  | some e' =>
    have : e.goOn = e' := by rw [Srl.goOn, hl]; rfl
    rw [this]
    rw [Srl.loopTurn] at hl
    split at hl
    · next h => cases hl; exact ⟨by simp, .inr ⟨⟨_, _, h⟩, Srl.settle_tick_left e.cfg e⟩⟩
    · cases hl

/-! ### What accepting a request does -/

/-- An operation accepted stands at its first step (R28). -/
theorem Port.beginOp_waits (ok : Call → Prop) (P : Port) (i : Instr) : Port.Left ok (P.beginOp i) (P.beginOp i) :=
  .waits (firstStep i) .refl

theorem issue_pbe {i : Instr} {s t : State} (he : i.engine = .pbe) (h : issue i s = .next t) :
    s.pbe.port.ph = .idle ∧ t = { s with pbe := t.pbe } ∧ t.pbe.cfg = s.pbe.cfg ∧
      Port.Left Call.okPbe (s.pbe.port.beginOp i) t.pbe.port := by
  have hp : (Pbe.entered i (s.pbe.begun i)).port = s.pbe.port.beginOp i := by cases i <;> rfl
  have hc : (Pbe.entered i (s.pbe.begun i)).cfg = s.pbe.cfg := by cases i <;> rfl
  rw [issue] at h
  split at h
  · split at h
    · cases h
    · rw [he] at h
      exact pbeRequest_left h (by rw [hp]; exact Port.beginOp_waits _ _ _) hc
  · cases h

theorem issue_srl {i : Instr} {s t : State} (he : i.engine = .srl) (h : issue i s = .next t) :
    s.srl.port.ph = .idle ∧ t = { s with srl := t.srl } ∧ t.srl.cfg = s.srl.cfg ∧
      Port.Left (Call.okSrl s.srl.cfg) (s.srl.port.beginOp i) t.srl.port := by
  have hp : (Srl.entered i (s.srl.begun i)).port = s.srl.port.beginOp i := by cases i <;> rfl
  have hc : (Srl.entered i (s.srl.begun i)).cfg = s.srl.cfg := by cases i <;> rfl
  rw [issue] at h
  split at h
  · split at h
    · cases h
    · rw [he] at h
      exact srlRequest_left h (by rw [hp]; exact Port.beginOp_waits _ _ _) hc
  · cases h

end Sys2Proof.Machine
end

