-- ==== Sys2Proof/Laws/Turns.lean ====
section
/-! SUPPORT. What one step can do to the two ports, said once: nothing, an operation begun on an idle engine, or an operation
carried on from its loop's head; and what that appends to the trace. -/

namespace Sys2Proof.Machine

/-! ### Only host operations are decoded -/

theorem decodeCommand_requestable {b : Byte} {i : Instr} (h : decodeCommand b = some i) : i.requestable = true := by
  unfold decodeCommand at h
  repeat' split at h
  all_goals cases h
  all_goals rfl

theorem withByte_requestable {f : Byte → Except DecodeError Instr} (hf : ∀ b i, f b = .ok i → i.requestable = true)
    {bytes : List Byte} {i : Instr} {r : List Byte} (h : withByte f bytes = .ok i r) : i.requestable = true := by
  unfold withByte at h
  split at h
  · split at h
    · next hb => cases h; exact hf _ _ hb
    · cases h
  · cases h

theorem withFlags_requestable {m : Byte} {f : Byte → Instr} (hf : ∀ b, (f b).requestable = true) {bytes : List Byte}
    {i : Instr} {r : List Byte} (h : withFlags m f bytes = .ok i r) : i.requestable = true := by
  refine withByte_requestable (fun b j hb => ?_) h
  split at hb
  · cases hb; exact hf b
  · cases hb

theorem withText_requestable {f : List Nat → Instr} (hf : ∀ t, (f t).requestable = true) {bytes : List Byte} {i : Instr}
    {r : List Byte} (h : withText f bytes = .ok i r) : i.requestable = true := by
  unfold withText at h
  split at h
  · cases h; exact hf _
  · cases h

theorem decodeOpsel_requestable {n : Nat} {bytes : List Byte} {i : Instr} {r : List Byte}
    (h : decodeOpsel n bytes = .ok i r) : i.requestable = true := by
  unfold decodeOpsel at h
  split at h
  all_goals first
    | (cases h; rfl)
    | exact withFlags_requestable (fun _ => rfl) h
    | exact withText_requestable (fun _ => rfl) h
    | exact withByte_requestable (fun _ _ hb => by cases hb; rfl) h
    | skip
  · unfold withWord at h
    split at h
    · cases h; rfl
    · cases h
  · cases h

/-- The host can request only operations that have an OPSEL (R85, R193). -/
theorem decode_requestable {bytes : List Byte} {i : Instr} {r : List Byte} (h : decode bytes = .ok i r) :
    i.requestable = true := by
  unfold decode at h
  split at h
  · cases h
  · split at h
    · exact decodeOpsel_requestable h
    · split at h
      · next hb => cases h; exact decodeCommand_requestable hb
      · cases h

/-! ### One step -/

/-- What a step may do to a port with calls `ok`. -/
def Port.Moved (ok : Call → Prop) (P Q : Port) : Prop :=
  Q = P ∨ (∃ i, P.ph = .idle ∧ Port.Left ok (P.beginOp i) Q) ∨ ((∃ i a, P.ph = .busy i a) ∧ Port.Left ok P Q)

/-- What handing a request over does, whole or its acceptance alone. -/
theorem hostTurn_moved {take : Instr → State → Host.Outcome State Fault Refusal} {s t : State}
    (hp : ∀ {i : Instr} {s t : State}, i.requestable = true → i.engine = .pbe → take i s = .next t →
      s.pbe.port.ph = .idle ∧ t = { s with pbe := t.pbe } ∧ t.pbe.cfg = s.pbe.cfg ∧
        Port.Left Call.okPbe (s.pbe.port.beginOp i) t.pbe.port)
    (hs : ∀ {i : Instr} {s t : State}, i.requestable = true → i.engine = .srl → take i s = .next t →
      s.srl.port.ph = .idle ∧ t = { s with srl := t.srl } ∧ t.srl.cfg = s.srl.cfg ∧
        Port.Left (Call.okSrl s.srl.cfg) (s.srl.port.beginOp i) t.srl.port)
    (h : hostTurn take s = .next t) :
    t.pbe.cfg = s.pbe.cfg ∧ Port.Moved Call.okPbe s.pbe.port t.pbe.port ∧
      t.srl.cfg = s.srl.cfg ∧ Port.Moved (Call.okSrl s.srl.cfg) s.srl.port t.srl.port := by
  unfold hostTurn at h
  split at h
  · cases h; simp [Port.Moved]
  · split at h
    · next i rest hd =>
      have hr := decode_requestable hd
      cases he : i.engine with
      | pbe =>
        obtain ⟨a, b, c, d⟩ := hp hr he h
        simp only [State.supplied_pbe] at a c d
        rw [b]; exact ⟨c, .inr (.inl ⟨i, a, d⟩), by simp, .inl (by simp)⟩
      | srl =>
        obtain ⟨a, b, c, d⟩ := hs hr he h
        simp only [State.supplied_srl] at a c d
        rw [b]; exact ⟨by simp, .inl (by simp), c, .inr (.inl ⟨i, a, d⟩)⟩
    · cases h

/-- One step moves each port in one of these ways and keeps both configurations. -/
theorem step_moved {s t : State} (h : step s = .next t) :
    t.pbe.cfg = s.pbe.cfg ∧ Port.Moved Call.okPbe s.pbe.port t.pbe.port ∧
      t.srl.cfg = s.srl.cfg ∧ Port.Moved (Call.okSrl s.srl.cfg) s.srl.port t.srl.port := by
  have hpbe : ∀ e : Pbe, e.cfg = s.pbe.cfg → (e = s.pbe ∨ (∃ i a, s.pbe.port.ph = .busy i a) ∧
      Port.Left Call.okPbe s.pbe.port e.port) → e.cfg = s.pbe.cfg ∧ Port.Moved Call.okPbe s.pbe.port e.port := by
    rintro e hc (rfl | h)
    · exact ⟨rfl, .inl rfl⟩
    · exact ⟨hc, .inr (.inr h)⟩
  have hsrl : ∀ e : Srl, e.cfg = s.srl.cfg → (e = s.srl ∨ (∃ i a, s.srl.port.ph = .busy i a) ∧
      Port.Left (Call.okSrl s.srl.cfg) s.srl.port e.port) →
        e.cfg = s.srl.cfg ∧ Port.Moved (Call.okSrl s.srl.cfg) s.srl.port e.port := by
    rintro e hc (rfl | h)
    · exact ⟨rfl, .inl rfl⟩
    · exact ⟨hc, .inr (.inr h)⟩
  unfold step at h
  split at h
  · exact hostTurn_moved (s := s.turnTaken) exec_pbe exec_srl h
  · exact hostTurn_moved (s := s.turnTaken) (fun _ => issue_pbe) (fun _ => issue_srl) h
  · cases h
    obtain ⟨a, b⟩ := hpbe _ s.pbe.goOn_left.1 s.pbe.goOn_left.2
    exact ⟨a, b, rfl, .inl rfl⟩
  · cases h
    obtain ⟨a, b⟩ := hsrl _ s.srl.goOn_left.1 s.srl.goOn_left.2
    exact ⟨rfl, .inl rfl, a, b⟩
  · cases h
    obtain ⟨a, b⟩ := hpbe _ s.pbe.lineOn_left.1 s.pbe.lineOn_left.2
    exact ⟨a, b, rfl, .inl rfl⟩
  · cases h
    obtain ⟨a, b⟩ := hsrl _ s.srl.lineOn_left.1 s.srl.lineOn_left.2
    exact ⟨rfl, .inl rfl, a, b⟩

/-! ### What it appends to the trace -/

/-- An event of a call that is allowed and succeeded. -/
def Event.fromCall (ok : Call → Prop) (ev : Event) : Prop := ∃ c P, ok c ∧ ev = eventOf P c

/-- Reaching a port appends events of allowed calls, and the pins follow them (R21). -/
theorem Port.Reach.trace {ok : Call → Prop} {P Q : Port} (h : Port.Reach ok P Q) :
    ∃ new, Q.trace = P.trace ++ new ∧ (∀ p, Q.pin p = recordAfter p (P.pin p) new) ∧ ∀ ev ∈ new, ev.fromCall ok := by
  induction h with
  | refl => exact ⟨[], by simp, by simp [recordAfter], by simp⟩
  | @call Q c _ hc ih =>
    obtain ⟨new, h1, h2, h3⟩ := ih
    refine ⟨new ++ [eventOf Q c], by simp [h1], fun p => ?_, fun ev hev => ?_⟩
    · rw [Port.pin_applied, h2, recordAfter_append]
    · rcases List.mem_append.1 hev with h | h
      · exact h3 ev h
      · exact ⟨c, Q, hc, by simpa using h⟩
  | orders _ ih => exact ih

/-- An operation in progress is left with the events of its calls and then: its `End`; nothing, when it waits; `Fail` and
`End`; or `End` with the timeout. STATUS and PH are as that says (R184, R188, R189). -/
theorem Port.Left.trace {ok : Call → Prop} {P Q : Port} {i : Instr} {a : PhStep} (hp : P.ph = .busy i a)
    (h : Port.Left ok P Q) :
    ∃ body tail, Q.trace = P.trace ++ body ++ tail ∧ (∀ p, Q.pin p = recordAfter p (P.pin p) body) ∧
      (∀ ev ∈ body, ev.fromCall ok) ∧
      ((∃ r, tail = [.endOp i .ok r] ∧ Q.err = .ok ∧ Q.errPin = P.errPin ∧ Q.ph = .idle) ∨
        (∃ b, tail = [] ∧ Q.err = P.err ∧ Q.errPin = P.errPin ∧ Q.ph = .busy i b) ∨
        (∃ c p, ok c ∧ c.pin? = some p ∧ tail = [.fail p, .endOp i .pinFault .none] ∧ Q.err = .pinFault ∧ Q.errPin = p ∧
          Q.ph = .idle) ∨
        (tail = [.endOp i .protocolTimeout .none] ∧ Q.err = .protocolTimeout ∧ Q.errPin = P.errPin ∧ Q.ph = .idle)) := by
  cases h with
  | @ended R r h =>
    obtain ⟨body, h1, h2, h3⟩ := h.trace
    rw [Port.finish_busy R (h.ph.trans hp)]
    exact ⟨body, _, by simp [h1], h2, h3, .inl ⟨r, rfl, rfl, h.errPin, rfl⟩⟩
  | @waits R b h =>
    obtain ⟨body, h1, h2, h3⟩ := h.trace
    rw [Port.stayAt_busy R (h.ph.trans hp)]
    exact ⟨body, _, by simp [h1], h2, h3, .inr (.inl ⟨b, rfl, h.err, h.errPin, rfl⟩)⟩
  | @faulted R c p h hc hcp =>
    obtain ⟨body, h1, h2, h3⟩ := h.trace
    rw [Port.raise_busy (R.refusedBy p) (i := i) (a := a) (h.ph.trans hp)]
    exact ⟨body, [.fail p, .endOp i .pinFault .none], by simp [h1, Port.refusedBy, Cause.err], h2, h3,
      .inr (.inr (.inl ⟨c, p, hc, hcp, rfl, rfl, rfl, rfl⟩))⟩
  | @timedOut R h =>
    obtain ⟨body, h1, h2, h3⟩ := h.trace
    rw [Port.raise_busy R (h.ph.trans hp)]
    exact ⟨body, _, by simp [h1, Cause.err], h2, h3, .inr (.inr (.inr ⟨rfl, rfl, h.errPin, rfl⟩))⟩

end Sys2Proof.Machine
end

