-- ==== Sys2Proof/Laws/Lines.lean ====
section
/-! SUPPORT. The lines of pseudocode as PH moves through them (R28, R167): where the pseudocode can go from a line, what a line
leaves of its engine, and what a line executed where the invariant allows it comes to. -/

namespace Sys2Proof.Machine

/-! ### The text of the pseudocode -/

/-- The pseudocode of an operation stays in it, and goes forward in the text or back to the head of one of the five loops (R28,
R167). -/
theorem stepsAfter_forward {i : Instr} {a b : PhStep} (h : hasStep i a = true) (hb : b ∈ stepsAfter i a) :
    hasStep i b = true ∧ (place a < place b ∨ (a, b) ∈ loopBacks) := by
  cases i <;> cases a <;> first
    | (cases h; done)
    | (simp [stepsAfter, Instr.engine, Instr.opsel] at hb; done)
    | (simp [stepsAfter, Instr.engine, Instr.opsel] at hb; subst hb; exact ⟨rfl, by decide⟩)
    | (simp [stepsAfter, Instr.engine] at hb; rcases hb with rfl | rfl <;> exact ⟨rfl, by decide⟩)
    | (rename_i c; cases c <;> first
        | (cases h; done)
        | (simp [stepsAfter, cyAfter, isWrite, busWrite] at hb; done)
        | (simp [stepsAfter, cyAfter, isWrite, busWrite] at hb; subst hb; exact ⟨rfl, by decide⟩))

/-! ### What a line leaves -/

/-- What a completed line of a transaction leaves of the registers. -/
theorem Pbe.run_frame {e x : Pbe} {cs : List Call} (h : e.run cs = .done x) : x = { e with port := e.port.ran cs } := by
  rw [Pbe.run] at h
  cases hr : e.port.run cs with
  | failed Q p => rw [hr] at h; cases h
  | done Q => rw [hr] at h; cases h; rw [(e.port.run_done hr).1]

theorem Pbe.vector_frame {e x : Pbe} {f : List (Fin 8) → List Call} (h : e.vector f = .done x) :
    x = { e with port := (e.port.ran (f (e.port.peekOrder 0))).orderTaken } := by
  rw [Pbe.vector] at h; rw [Pbe.run_frame h, Port.ran_orderTaken]

theorem Pbe.cycleLine_frame {e x : Pbe} {t : Transfer} {c : CyStep} (h : e.cycleLine t c = .done x) :
    x = { e with wdr := x.wdr, rdr := x.rdr, port := x.port } ∧ x.port.ph = e.port.ph := by
  have hr : ∀ cs, e.run cs = .done x →
      x = { e with wdr := x.wdr, rdr := x.rdr, port := x.port } ∧ x.port.ph = e.port.ph := by
    intro cs h; rw [Pbe.run_frame h]; exact ⟨rfl, by simp⟩
  have hv : ∀ f, e.vector f = .done x →
      x = { e with wdr := x.wdr, rdr := x.rdr, port := x.port } ∧ x.port.ph = e.port.ph := by
    intro f h; rw [Pbe.vector_frame h]; exact ⟨rfl, by simp⟩
  cases c <;> cases t <;> simp only [Pbe.cycleLine] at h
  case six.read =>
    rw [Pbe.sampleStep] at h
    cases hs : e.vector dbSample with
    | failed y p => rw [hs] at h; cases h
    | done y => rw [hs] at h; cases h; rw [Pbe.vector_frame hs]; exact ⟨rfl, by simp⟩
  case wdr.write => cases h; exact ⟨rfl, rfl⟩
  case wdr.read => cases h; exact ⟨rfl, rfl⟩
  all_goals first | exact hr _ h | exact hv _ h

/-- Which direction a transaction has. -/
def Transfer.isWrite : Transfer → Bool
  | .write _ _ => true
  | .read _ => false

theorem Transfer.next_cyAfter (t : Transfer) (c : CyStep) : t.next c = cyAfter t.isWrite c := by
  cases t <;> cases c <;> rfl

/-- A line of a transaction before Enable rises leaves the pins as the next line needs them (R22). -/
theorem Pbe.cycleLine_ready {e x : Pbe} {t : Transfer} {c d : CyStep} (h : e.cycleLine t c = .done x) (hd : t.next c = some d)
    (hb : e.port.busReady t.isWrite c) : x.port.busReady t.isWrite d := by
  cases c <;> cases t <;> cases hd <;> try trivial
  case one.write l b =>
    rw [Pbe.vector_frame h]
    intro i
    refine ⟨.unknown, ?_⟩
    rw [Port.pin_orderTaken, Port.pin_ran, eventsOf_dbOutMode]
    exact recordAfter_map_db i _ _ _ _ (fun r => by simp [recordAfter]) (fun j hj r => by simp [recordAfter, hj])
      (mem_peekOrder _ 0 i)
  case one.read l =>
    rw [Pbe.vector_frame h]
    intro i
    show _ = _
    rw [Port.pin_orderTaken, Port.pin_ran, eventsOf_dbInMode]
    exact recordAfter_map_db i _ _ _ _ (fun r => by simp [recordAfter]) (fun j hj r => by simp [recordAfter, hj])
      (mem_peekOrder _ 0 i)
  case two.write l b =>
    rw [Pbe.run_frame h]
    constructor
    · intro i
      obtain ⟨v, hv⟩ := hb i
      exact ⟨v, by rw [Port.pin_ran]; exact hv⟩
    · show Port.pin _ _ = _; rw [Port.pin_ran]; rfl
  case two.read l =>
    rw [Pbe.run_frame h]
    constructor
    · intro i
      have hv := hb i
      show Port.pin _ _ = _; rw [Port.pin_ran]; exact hv
    · show Port.pin _ _ = _; rw [Port.pin_ran]; rfl
  case three.write l b =>
    rw [Pbe.run_frame h]
    constructor
    · intro i
      obtain ⟨v, hv⟩ := hb.1 i
      exact ⟨v, by rw [Port.pin_ran]; exact hv⟩
    · show Port.pin _ _ = _; rw [Port.pin_ran]; exact hb.2
  case three.read l =>
    rw [Pbe.run_frame h]
    constructor
    · intro i
      have hv := hb.1 i
      show Port.pin _ _ = _; rw [Port.pin_ran]; exact hv
    · show Port.pin _ _ = _; rw [Port.pin_ran]; exact hb.2

theorem transferOf_isWrite {i : Instr} {t : Transfer} (h : transferOf i = some t) : t.isWrite = isWrite i := by
  cases i <;> cases h <;> rfl

/-- An operation with a line of a transaction is one. -/
theorem hasStep_transfer {i : Instr} {c : CyStep} (h : hasStep i (.cycle c) = true) : ∃ t, transferOf i = some t := by
  cases i <;> first | (cases h; done) | exact ⟨_, rfl⟩

/-- A completed or failed line of a transaction whose lines stand at `pos` (R120 to R122). -/
theorem Pbe.transferLine_moves {e : Pbe} {t : Transfer} {c : CyStep} (pos : CyStep → PhStep) (last : Pbe → Lined Pbe)
    (hb : e.port.busReady t.isWrite c) :
    (∃ x, x = { e with wdr := x.wdr, rdr := x.rdr, port := x.port } ∧ x.port.ph = e.port.ph ∧
      ((∃ d, e.transferLine t pos last c = .at_ (pos d) x ∧ cyAfter t.isWrite c = some d ∧ x.port.busReady t.isWrite d) ∨
        (e.transferLine t pos last c = last x ∧ cyAfter t.isWrite c = none))) ∨
      ∃ p x, e.transferLine t pos last c = .raise (.pinFault p) x := by
  rw [Pbe.transferLine]
  cases hr : e.cycleLine t c with
  | failed x p => exact .inr ⟨p, x, rfl⟩
  | done x =>
    obtain ⟨hx, hp⟩ := Pbe.cycleLine_frame hr
    refine .inl ⟨x, hx, hp, ?_⟩
    cases hn : t.next c with
    | none => exact .inr ⟨rfl, by rw [← t.next_cyAfter, hn]⟩
    | some d => exact .inl ⟨d, rfl, by rw [← t.next_cyAfter, hn], Pbe.cycleLine_ready hr hn hb⟩

/-- A completed run of calls changes the port alone. -/
theorem Srl.run_frame {e x : Srl} {cs : List Call} (h : e.run cs = .done x) : x = { e with port := e.port.ran cs } := by
  rw [Srl.run] at h
  cases hr : e.port.run cs with
  | failed Q p => rw [hr] at h; cases h
  | done Q => rw [hr] at h; cases h; rw [(e.port.run_done hr).1]

/-- So does one that stops. -/
theorem Srl.run_failed_frame {e x : Srl} {p : Pin} {cs : List Call} (h : e.run cs = .failed x p) :
    x = { e with port := x.port } := by
  rw [Srl.run] at h
  cases hr : e.port.run cs with
  | failed Q p => rw [hr] at h; cases h; rfl
  | done Q => rw [hr] at h; cases h

/-! ### An engine that is in an operation executes the line PH names -/

theorem Pbe.lineOn_busy {e : Pbe} {i : Instr} {a : PhStep} (h : e.port.ph = .busy i a) :
    e.lineOn = Pbe.afterLine (e.line i a) := by rw [Pbe.lineOn, h]

theorem Srl.lineOn_busy {e : Srl} {i : Instr} {a : PhStep} (h : e.port.ph = .busy i a) :
    e.lineOn = Srl.afterLine (e.line i a) := by rw [Srl.lineOn, h]

/-! ### What a line comes to -/

/-- What a line of PBE that is executed where the engine stands comes to (R28, R131, R143): the next line, which the pseudocode
allows, with what that line needs; the end, where the operation may return; or an exception. -/
def Pbe.Moves (e : Pbe) (i : Instr) (a : PhStep) (l : Lined Pbe) : Prop :=
  (∃ b x, l = .at_ b x ∧ b ∈ stepsAfter i a ∧ x.standsAt i b ∧ x.port.ph = e.port.ph) ∨
    (∃ r x, l = .ret r x ∧ mayReturn i a = true) ∨
    (∃ p x, l = .raise (.pinFault p) x) ∨ (∃ x, l = .raise .protocolTimeout x ∧ a = .bound)

theorem Pbe.waited_moves {e : Pbe} {i : Instr} {a : PhStep} (ha : a = .firstTest ∨ a = .test) (h : e.standsAt i a) :
    e.Moves i a (e.waited i) := by
  obtain ⟨h1, h2, -, -, -⟩ := h
  have hi : i = .waitrdy ∨ ∃ t, i = .puts t := by
    rcases ha with rfl | rfl <;> cases i <;> first | (cases h1; done) | exact .inl rfl | exact .inr ⟨_, rfl⟩
  rcases hi with rfl | ⟨t, rfl⟩
  · exact .inr (.inl ⟨_, _, rfl, by rcases ha with rfl | rfl <;> rfl⟩)
  · refine .inl ⟨_, _, rfl, by rcases ha with rfl | rfl <;> simp [stepsAfter], ⟨rfl, ?_, by simp, by simp, trivial⟩, rfl⟩
    intro u hu; have := h2 u hu; rcases ha with rfl | rfl <;> simpa using this

theorem Pbe.line_moves {e : Pbe} {i : Instr} {a : PhStep} (hp : i.engine = .pbe) (hl : e.cfg.pollLimit ≠ some 0)
    (h : e.standsAt i a) : e.Moves i a (e.line i a) := by
  have h0 := h
  obtain ⟨h1, h2, h3, h4, h5⟩ := h
  -- to a line with TXT as it was
  have stay : ∀ (b : PhStep) (x : Pbe), b ∈ stepsAfter i a → (a ≠ .nextChar ∧ b ≠ .nextChar) → x.txt = e.txt →
      x.port.ph = e.port.ph → (b = .clearCount ∨ b = .bound ∨ b = .pollLoop → statusBF x.rdr = true) →
      (b = .pollLoop → x.limitReached = false) → x.port.cycleOk i b → e.Moves i a (.at_ b x) := by
    intro b x hb hn hx hph h6 h7 h8
    refine .inl ⟨b, x, rfl, hb, ⟨(stepsAfter_forward h1 hb).1, fun t ht => ?_, h6, h7, h8⟩, hph⟩
    have := h2 t ht
    rw [hx]; simpa [hn.1, hn.2] using this
  -- to a line that asks for nothing more
  have plain : ∀ (b : PhStep) (x : Pbe), b ∈ stepsAfter i a →
      (a ≠ .nextChar ∧ b ≠ .nextChar) ∧ b ≠ .clearCount ∧ b ≠ .bound ∧ b ≠ .pollLoop → x.txt = e.txt →
      x.port.ph = e.port.ph → x.port.cycleOk i b → e.Moves i a (.at_ b x) := fun b x hb hn hx hph h8 =>
    stay b x hb hn.1 hx hph (by simp [hn.2]) (by simp [hn.2]) h8
  -- through a status read whose lines stand at `pos`
  have poll : ∀ (pos : CyStep → PhStep) (last : PhStep) (c : CyStep),
      stepsAfter i a = (match cyAfter false c with | some d => [pos d] | none => [last]) → e.port.busReady false c →
      (a ≠ .nextChar ∧ last ≠ .nextChar ∧ last ≠ .clearCount ∧ last ≠ .bound ∧ last ≠ .pollLoop) →
      (∀ d, pos d ≠ .nextChar ∧ pos d ≠ .clearCount ∧ pos d ≠ .bound ∧ pos d ≠ .pollLoop) →
      (∀ (P : Port) d, P.busReady false d → P.cycleOk i (pos d)) → (∀ P : Port, P.cycleOk i last) →
      e.Moves i a (e.transferLine (.read .low) pos (.at_ last) c) := by
    intro pos last c hs hb ha hn hk hq
    rcases Pbe.transferLine_moves pos (.at_ last) (t := .read .low) (c := c) hb with
      ⟨x, hx, hph, ⟨d, h, hd, hb⟩ | ⟨h, hd⟩⟩ | h
    · rw [h]
      simp only [Transfer.isWrite] at hd
      exact plain _ x (by rw [hs, hd]; simp) ⟨⟨ha.1, (hn d).1⟩, (hn d).2⟩ (by rw [hx]) hph (hk _ _ hb)
    · rw [h]
      simp only [Transfer.isWrite] at hd
      exact plain _ x (by rw [hs, hd]; simp) ⟨⟨ha.1, ha.2.1⟩, ha.2.2⟩ (by rw [hx]) hph (hq _)
    · exact .inr (.inr (.inl h))
  cases a
  case cycle c =>
    obtain ⟨t, ht⟩ := hasStep_transfer h1
    have hw := transferOf_isWrite ht
    simp only [Pbe.line, ht]
    rcases Pbe.transferLine_moves .cycle t.last (t := t) (c := c) (by rw [hw]; exact h5) with
      ⟨x, hx, hph, ⟨d, h, hd, hb⟩ | ⟨h, hd⟩⟩ | h
    · rw [h]
      rw [hw] at hb hd
      exact plain _ x (by simp [stepsAfter, hd]) (by simp) (by rw [hx]) hph hb
    · rw [h]
      cases t with
      | write l b =>
        have hi : isWrite i = true := hw.symm
        refine .inr (.inl ⟨_, x, rfl, ?_⟩)
        cases c <;> simp [mayReturn, hi, cyAfter, Transfer.isWrite] at hd ⊢
      | read l =>
        have hi : isWrite i = false := hw.symm
        rw [hw, hi] at hd
        exact plain _ x (by simp [stepsAfter, hd, hi]) (by simp) (by rw [hx]) hph trivial
    · exact .inr (.inr (.inl h))
  case result =>
    refine .inr (.inl ⟨_, _, rfl, ?_⟩)
    cases i <;> first | rfl | cases hp
  case nextChar =>
    simp only [Pbe.line]
    cases hc : e.txt.chars[e.txt.pos]? with
    | none => exact .inr (.inl ⟨_, _, rfl, by simp [mayReturn, hp]⟩)
    | some b =>
      have hb : PhStep.firstPoll .rs ∈ stepsAfter i .nextChar := by simp [stepsAfter, hp]
      refine .inl ⟨_, _, rfl, hb, ⟨(stepsAfter_forward h1 hb).1, fun t ht => ?_, by simp, by simp, trivial⟩, rfl⟩
      obtain ⟨hlt, -⟩ := List.getElem?_eq_some_iff.1 hc
      exact ⟨(h2 _ ht).1, by simpa using hlt⟩
  case firstPoll c => exact poll .firstPoll .firstResult c rfl h5 (by simp) (by simp) (fun _ _ h => h) (fun _ => trivial)
  case poll c => exact poll .poll .pollResult c rfl h5 (by simp) (by simp) (fun _ _ h => h) (fun _ => trivial)
  case firstResult => exact plain _ _ (by simp [stepsAfter]) (by simp) rfl rfl trivial
  case firstTest =>
    simp only [Pbe.line]
    split
    · exact Pbe.waited_moves (.inl rfl) h0
    · next hr =>
      exact stay _ _ (by simp only [stepsAfter]; split <;> simp) (by simp) rfl rfl
        (fun _ => by simpa [Pbe.ready] using hr) (by simp) trivial
  case clearCount =>
    refine stay _ _ (by simp [stepsAfter]) (by simp) rfl rfl (fun _ => h3 (.inl rfl)) (fun _ => ?_) trivial
    simp only [Pbe.limitReached]
    cases hq : e.cfg.pollLimit with
    | none => rfl
    | some n => simpa using fun hn : n = 0 => hl (hn ▸ hq)
  case pollLoop =>
    exact plain _ { e with port := e.port.emit (.delay .tPOLL) } (by simp [stepsAfter]) (by simp) rfl rfl trivial
  case pollResult => exact plain _ _ (by simp [stepsAfter]) (by simp) rfl rfl trivial
  case count => exact plain _ _ (by simp [stepsAfter]) (by simp) rfl rfl trivial
  case test =>
    simp only [Pbe.line]
    split
    · exact Pbe.waited_moves (.inr rfl) h0
    · next hr =>
      exact stay _ _ (by simp only [stepsAfter]; split <;> simp) (by simp) rfl rfl
        (fun _ => by simpa [Pbe.ready] using hr) (by simp) trivial
  case bound =>
    simp only [Pbe.line]
    split
    · exact .inr (.inr (.inr ⟨_, rfl, rfl⟩))
    · next hr =>
      exact stay _ _ (by simp [stepsAfter]) (by simp) rfl rfl (fun _ => h3 (.inr (.inl rfl)))
        (fun _ => by simpa using hr) trivial
  case char c =>
    have hi : ∃ t, i = .puts t := by cases i <;> first | (cases h1; done) | exact ⟨_, rfl⟩
    obtain ⟨t, rfl⟩ := hi
    have hlt : e.txt.pos < e.txt.chars.length := by simpa using (h2 _ rfl).2
    simp only [Pbe.line, List.getElem?_eq_getElem hlt]
    rcases Pbe.transferLine_moves .char (fun e' => .at_ .nextChar e'.passChar) (t := .write .high e.txt.chars[e.txt.pos])
        (c := c) h5 with ⟨x, hx, hph, ⟨d, h, hd, hb⟩ | ⟨h, hd⟩⟩ | h
    · rw [h]
      simp only [Transfer.isWrite] at hd
      exact plain _ x (by simp [stepsAfter, hd]) (by simp) (by rw [hx]) hph hb
    · rw [h]
      simp only [Transfer.isWrite] at hd
      refine .inl ⟨_, x.passChar, rfl, by simp [stepsAfter, hd], ⟨rfl, fun t ht => ?_, by simp, by simp, trivial⟩, hph⟩
      have := h2 t ht
      rw [hx]; simp at this ⊢; exact ⟨this.1, by omega⟩
    · exact .inr (.inr (.inl h))
  all_goals (cases i <;> first | (cases hp; done) | cases h1)

/-- What a line of SRL that is executed where the engine stands comes to, likewise (R28, R160 to R164). -/
def Srl.Moves (e : Srl) (i : Instr) (a : PhStep) (l : Lined Srl) : Prop :=
  (∃ b x, l = .at_ b x ∧ b ∈ stepsAfter i a ∧ x.standsAt i b ∧ x.port.ph = e.port.ph ∧ x.bitcnt ≤ Config.nShift) ∨
    (∃ r x, l = .ret r x ∧ mayReturn i a = true ∧ x.bitcnt ≤ Config.nShift) ∨
    (∃ p x, l = .raise (.pinFault p) x ∧ x.bitcnt ≤ Config.nShift)

theorem Srl.line_moves {e : Srl} {i : Instr} {a : PhStep} (hp : i.engine = .srl) (hc : e.bitcnt ≤ Config.nShift)
    (h : e.standsAt i a) : e.Moves i a (e.line i a) := by
  obtain ⟨h1, h2, h3, h4, h5, h6⟩ := h
  have go : ∀ (b : PhStep) (x : Srl), b ∈ stepsAfter i a → x.port.ph = e.port.ph → x.cfg = e.cfg →
      x.bitcnt ≤ Config.nShift → (isEncodeStep b = true → x.txt.pos ≤ x.txt.chars.length) →
      (isCharStep b = true → x.txt.pos < x.txt.chars.length) → (isBitStep b = true → x.bitcnt < Config.nShift) →
      (b = .nextWindow → x.cancel = false) → e.Moves i a (.at_ b x) := fun b x hb hph hx hn h7 h8 h9 h10 =>
    .inl ⟨b, x, rfl, hb, ⟨(stepsAfter_forward h1 hb).1, h7, h8, h9, fun c hc => hx ▸ h5 c hc, h10⟩, hph, hn⟩
  -- to a line that asks for nothing
  have free : ∀ (b : PhStep) (x : Srl), b ∈ stepsAfter i a → (isEncodeStep b || isBitStep b || b == .nextWindow) = false →
      x.port.ph = e.port.ph → x.cfg = e.cfg → x.bitcnt ≤ Config.nShift → e.Moves i a (.at_ b x) := by
    intro b x hb hf hph hx hn
    simp only [Bool.or_eq_false_iff] at hf
    have hch : isCharStep b = false := by have := hf.1.1; simp only [isEncodeStep, Bool.or_eq_false_iff] at this; exact this.1.1.1
    refine go b x hb hph hx hn ?_ ?_ ?_ ?_
    · rw [hf.1.1]; intro h; cases h
    · rw [hch]; intro h; cases h
    · rw [hf.1.2]; intro h; cases h
    · rintro rfl; simp at hf
  -- to a line of ENCODE, with TXT as it was
  have enc : ∀ (b : PhStep) (x : Srl), isEncodeStep a = true → (isCharStep b = true → isCharStep a = true) →
      b ∈ stepsAfter i a → isBitStep b = false → b ≠ .nextWindow → x.port.ph = e.port.ph → x.cfg = e.cfg →
      x.bitcnt = e.bitcnt → x.txt = e.txt → e.Moves i a (.at_ b x) := by
    intro b x ha hab hb hbit hw hph hx hn ht
    refine go b x hb hph hx (hn ▸ hc) (fun _ => ht ▸ h2 ha) (fun h => ht ▸ h3 (hab h)) ?_ (fun h => absurd h hw)
    rw [hbit]; intro h; cases h
  -- calls first
  have run : ∀ (cs : List Call) (f : Srl → Lined Srl),
      (∀ x, x = { e with port := x.port } → x.port.ph = e.port.ph → e.Moves i a (f x)) →
      e.Moves i a ((e.run cs).goto f) := by
    intro cs f hf
    cases hr : e.run cs with
    | failed x p => exact .inr (.inr ⟨p, x, rfl, by rw [Srl.run_failed_frame hr]; exact hc⟩)
    | done x => exact hf x (by rw [Srl.run_frame hr]) (by rw [Srl.run_frame hr]; simp)
  have bit : ∀ (b : PhStep) (cs : List Call), isBitStep a = true → isBitStep b = true → b ∈ stepsAfter i a →
      e.Moves i a ((e.run cs).goto (.at_ b)) := fun b cs ha hb hm => run _ _ fun x hx hph =>
    go b x hm hph (by rw [hx]) (by rw [hx]; exact hc) (fun h => by cases b <;> first | (cases h; done) | cases hb)
      (fun h => by cases b <;> first | (cases h; done) | cases hb) (fun _ => by rw [hx]; exact h4 ha) (by rintro rfl; cases hb)
  have calls : ∀ (b : PhStep) (cs : List Call), (isEncodeStep b || isBitStep b || b == .nextWindow) = false →
      b ∈ stepsAfter i a → e.Moves i a ((e.run cs).goto (.at_ b)) := fun b cs hf hm => run _ _ fun x hx hph =>
    free b x hm hf hph (by rw [hx]) (by rw [hx]; exact hc)
  cases a <;> simp only [Srl.line]
  case clearAcc => exact enc _ _ rfl (fun h => h) (by simp [stepsAfter]) rfl (by simp) rfl rfl rfl rfl
  case nextChar =>
    split
    · exact enc _ _ rfl (fun h => h) (by simp [stepsAfter, hp]) rfl (by simp) rfl rfl rfl rfl
    · have := h2 rfl
      exact go _ _ (by simp [stepsAfter, hp]) rfl rfl hc (fun _ => by simp; omega) (fun _ => by simp; omega)
        (fun h => by cases h) (by simp)
  case isDot => split <;> exact enc _ _ rfl (fun h => h) (by simp [stepsAfter]) rfl (by simp) rfl rfl rfl rfl
  case setDpf => exact enc _ _ rfl (fun _ => rfl) (by simp [stepsAfter]) rfl (by simp) rfl rfl rfl rfl
  case addPattern => exact enc _ _ rfl (fun _ => rfl) (by simp [stepsAfter]) rfl (by simp) rfl rfl rfl rfl
  case isDpf => split <;> exact enc _ _ rfl (fun _ => rfl) (by simp [stepsAfter]) rfl (by simp) rfl rfl rfl rfl
  case addOne => exact enc _ _ rfl (fun _ => rfl) (by simp [stepsAfter]) rfl (by simp) rfl rfl rfl rfl
  case clearDpf => exact enc _ _ rfl (fun _ => rfl) (by simp [stepsAfter]) rfl (by simp) rfl rfl rfl rfl
  case result =>
    cases i <;> first | (cases h1; done) | (cases hp; done) | skip
    · exact .inr (.inl ⟨_, _, rfl, rfl, hc⟩)
    all_goals exact free _ _ (by simp [stepsAfter, Instr.engine, Instr.opsel]) rfl rfl rfl hc
  case load => exact free _ _ (by simp [stepsAfter]) rfl rfl rfl (by simp)
  case bitLoop =>
    split
    · next hb =>
      exact go _ _ (by simp [stepsAfter]) rfl rfl hc (fun h => by cases h) (fun h => by cases h) (fun _ => hb) (by simp)
    · exact free _ _ (by simp [stepsAfter]) rfl rfl rfl hc
  case din => exact bit _ _ rfl rfl (by simp [stepsAfter])
  case clkHigh => exact bit _ _ rfl rfl (by simp [stepsAfter])
  case clkHighDelay => exact bit _ _ rfl rfl (by simp [stepsAfter])
  case clkLow => exact bit _ _ rfl rfl (by simp [stepsAfter])
  case clkLowDelay =>
    refine run _ _ fun x hx hph => free _ _ (by simp [stepsAfter]) rfl hph (by rw [hx]) ?_
    have hb : x.bitcnt = e.bitcnt := by rw [hx]
    have := h4 rfl
    simp only [hb]; omega
  case latchLowDelay =>
    refine run _ _ fun x hx hph => ?_
    have hb : x.bitcnt ≤ Config.nShift := by rw [hx]; exact hc
    cases i <;> first | (cases h1; done) | (cases hp; done) | skip
    · exact free _ _ (by simp [stepsAfter]) rfl hph (by rw [hx]) hb
    · exact .inr (.inl ⟨_, _, rfl, rfl, hb⟩)
    · exact .inr (.inl ⟨_, _, rfl, rfl, hb⟩)
    · exact free _ _ (by simp [stepsAfter, Instr.opsel]) rfl hph (by rw [hx]) hb
  case deg => exact run _ _ fun x hx hph => .inr (.inl ⟨_, _, rfl, rfl, by rw [hx]; exact hc⟩)
  case checkCancel =>
    split
    · exact .inr (.inl ⟨_, _, rfl, rfl, hc⟩)
    · next hs =>
      exact go _ _ (by simp [stepsAfter]) rfl rfl hc (fun h => by cases h) (fun h => by cases h) (fun h => by cases h)
        (fun _ => by simpa using hs)
  case firstWindow => exact free _ _ (by simp [stepsAfter]) rfl rfl rfl hc
  case nextWindow => exact free _ _ (by simp [stepsAfter]) rfl rfl rfl hc
  case tickLoop =>
    exact go _ _ (by simp [stepsAfter]) rfl rfl hc (by simp) (fun h => by cases h) (fun h => by cases h) (by simp)
  case latchHigh => exact calls _ _ rfl (by simp [stepsAfter])
  case latchHighDelay => exact calls _ _ rfl (by simp [stepsAfter])
  case latchLow => exact calls _ _ rfl (by simp [stepsAfter])
  case cur => exact calls _ _ rfl (by simp [stepsAfter])
  case col => exact calls _ _ rfl (by simp [stepsAfter])
  case tick => exact calls _ _ rfl (by simp [stepsAfter])
  all_goals (cases i <;> first | (cases hp; done) | cases h1)

end Sys2Proof.Machine
end

