-- ==== Sys2Proof/Laws/Memory.lean ====
section
/-! SUPPORT. The laws of the ROM's cells: reading what was written, leaving the other characters alone, and that building a
table keeps the canonical form. -/

namespace Sys2Proof.Machine

theorem Memory.read_erase_self (m : Memory) (c : Nat) : (m.erase c).read c = Memory.unlisted := by
  induction m with
  | nil => rfl
  | cons x m ih => obtain ⟨a, v⟩ := x; by_cases h : a = c <;> simp [Memory.erase, Memory.read, h, ih]

theorem Memory.read_erase_other (m : Memory) {c d : Nat} (hd : d ≠ c) : (m.erase c).read d = m.read d := by
  induction m with
  | nil => rfl
  | cons x m ih =>
    obtain ⟨a, v⟩ := x
    by_cases h : a = c
    · subst h; simp [Memory.erase, Memory.read, hd.symm, ih]
    · simp [Memory.erase, Memory.read, h, ih]

/-- No cell of `m` is for character `c`. -/
def Memory.Lacks (m : Memory) (c : Nat) : Prop := ∀ x ∈ m, x.1 ≠ c

theorem Memory.lacks_erase (m : Memory) (c : Nat) : (m.erase c).Lacks c := by
  induction m with
  | nil => intro x hx; simp [Memory.erase] at hx
  | cons x m ih =>
    obtain ⟨a, v⟩ := x
    intro y hy
    by_cases h : a = c
    · simp [Memory.erase, h] at hy; exact ih y hy
    · simp [Memory.erase, h] at hy
      rcases hy with rfl | hy
      · exact h
      · exact ih y hy

theorem Memory.read_insert_self (m : Memory) (c : Nat) (v : Byte) (h : m.Lacks c) : (m.insert c v).read c = v := by
  induction m with
  | nil => simp [Memory.insert, Memory.read]
  | cons x m ih =>
    obtain ⟨a, w⟩ := x
    have ha : a ≠ c := h (a, w) (by simp)
    have hm : Memory.Lacks m c := fun y hy => h y (by simp [hy])
    by_cases hl : c < a <;> simp [Memory.insert, Memory.read, hl, ha, ih hm]

theorem Memory.read_insert_other (m : Memory) {c d : Nat} (v : Byte) (hd : d ≠ c) : (m.insert c v).read d = m.read d := by
  induction m with
  | nil => simp [Memory.insert, Memory.read, hd.symm]
  | cons x m ih =>
    obtain ⟨a, w⟩ := x
    by_cases hl : c < a
    · simp [Memory.insert, Memory.read, hl, hd.symm]
    · by_cases ha : a = d
      · subst ha; simp [Memory.insert, Memory.read, hl]
      · simp [Memory.insert, Memory.read, hl, ha, ih]

/-- A character reads what was written for it. -/
theorem Memory.read_write_self (m : Memory) (c : Nat) (v : Byte) : (m.write c v).read c = v := by
  by_cases h : v = Memory.unlisted
  · simp [Memory.write, h, Memory.read_erase_self]
  · simp [Memory.write, h, Memory.read_insert_self _ _ _ (Memory.lacks_erase m c)]

/-- Writing one character leaves every other alone. -/
theorem Memory.read_write_other (m : Memory) {c d : Nat} (v : Byte) (hd : d ≠ c) : (m.write c v).read d = m.read d := by
  by_cases h : v = Memory.unlisted
  · simp [Memory.write, h, Memory.read_erase_other _ hd]
  · simp [Memory.write, h, Memory.read_insert_other _ _ hd, Memory.read_erase_other _ hd]

/-- `lo` is below `a`. -/
def Memory.above (lo : Option Nat) (a : Nat) : Prop := ∀ l, lo = some l → l < a

theorem Memory.wfAbove_cons (a : Nat) (v : Byte) (m : Memory) (lo : Option Nat) :
    Memory.wfAbove ((a, v) :: m) lo = true ↔
      Memory.above lo a ∧ a < 256 ∧ v ≠ Memory.unlisted ∧ m.wfAbove (some a) = true := by
  cases lo <;> simp [Memory.wfAbove, Memory.above, and_assoc]

theorem Memory.wfAbove_weaken {m : Memory} {lo : Option Nat} {a : Nat} (ha : Memory.above lo a)
    (h : m.wfAbove (some a) = true) : m.wfAbove lo = true := by
  cases m with
  | nil => rfl
  | cons x m =>
    obtain ⟨b, v⟩ := x
    rw [Memory.wfAbove_cons] at h ⊢
    refine ⟨fun l hl => ?_, h.2⟩
    exact Nat.lt_trans (ha l hl) (h.1 a rfl)

theorem Memory.wfAbove_erase {m : Memory} {lo : Option Nat} (c : Nat) (h : m.wfAbove lo = true) :
    (m.erase c).wfAbove lo = true := by
  induction m generalizing lo with
  | nil => rfl
  | cons x m ih =>
    obtain ⟨a, v⟩ := x
    rw [Memory.wfAbove_cons] at h
    by_cases hc : a = c
    · simp only [Memory.erase, hc, if_true]
      exact Memory.wfAbove_weaken (hc ▸ h.1) (ih (hc ▸ h.2.2.2))
    · simp only [Memory.erase, hc, if_false]
      exact (Memory.wfAbove_cons ..).2 ⟨h.1, h.2.1, h.2.2.1, ih h.2.2.2⟩

theorem Memory.wfAbove_insert {m : Memory} {lo : Option Nat} {c : Nat} {v : Byte} (h : m.wfAbove lo = true)
    (hl : Memory.above lo c) (hc : c < 256) (hv : v ≠ Memory.unlisted) (hn : m.Lacks c) :
    (m.insert c v).wfAbove lo = true := by
  induction m generalizing lo with
  | nil => exact (Memory.wfAbove_cons ..).2 ⟨hl, hc, hv, rfl⟩
  | cons x m ih =>
    obtain ⟨a, w⟩ := x
    have hcons := (Memory.wfAbove_cons ..).1 h
    have ha : a ≠ c := hn (a, w) (by simp)
    by_cases hca : c < a
    · simp only [Memory.insert, hca, if_true]
      refine (Memory.wfAbove_cons ..).2 ⟨hl, hc, hv, (Memory.wfAbove_cons ..).2 ⟨?_, hcons.2⟩⟩
      intro l hl'; cases hl'; exact hca
    · simp only [Memory.insert, hca, if_false]
      refine (Memory.wfAbove_cons ..).2 ⟨hcons.1, hcons.2.1, hcons.2.2.1, ih hcons.2.2.2 ?_ ?_⟩
      · intro l hl'; cases hl'; omega
      · exact fun y hy => hn y (by simp [hy])

/-- Writing a character keeps the canonical form. -/
theorem Memory.wf_write {m : Memory} (h : m.wf = true) {c : Nat} (hc : c < 256) (v : Byte) : (m.write c v).wf = true := by
  by_cases hv : v = Memory.unlisted
  · simp only [Memory.write, hv, if_true]; exact Memory.wfAbove_erase c h
  · simp only [Memory.write, hv, if_false]
    exact Memory.wfAbove_insert (Memory.wfAbove_erase c h) (by intro l hl; cases hl) hc hv (Memory.lacks_erase m c)

/-- A table built from pairs has the canonical form. -/
theorem Memory.wf_ofPairs (pairs : List (Byte × Byte)) : (Memory.ofPairs pairs).wf = true := by
  suffices h : ∀ m : Memory, m.wf = true →
      Memory.wf (pairs.foldl (fun m p => m.write p.1.toNat p.2) m) = true from h [] rfl
  induction pairs with
  | nil => exact fun m hm => hm
  | cons p pairs ih => exact fun m hm => ih _ (Memory.wf_write hm p.1.isLt p.2)

end Sys2Proof.Machine
end

