-- ==== Sys2Proof/Laws/PerInstr.lean ====
section
/-! SUPPORT. Laws made per instruction, about the instruction as syntax. EncodeOpsel: the first byte of a request is its OPSEL,
and bit 4 of it selects the engine (R85); the internal operations have no request bytes. -/

namespace Sys2Proof.Laws.EncodeOpsel

/-- A request's first byte is the operation's OPSEL, whose bit 4 is 1 exactly for SRL; no OPSEL, no bytes (R85). -/
def Statement (i : Instr) : Prop :=
  match i.opsel with
  | some n => ((Sys2Proof.encode i).head?.map BitVec.toNat) = some n ∧ n < 32 ∧ i.engine = (if n.testBit 4 then .srl else .pbe)
  | none => Sys2Proof.encode i = []

theorem rdbf : Statement .rdbf := ⟨rfl, by decide, rfl⟩
theorem waitrdy : Statement .waitrdy := ⟨rfl, by decide, rfl⟩
theorem rddata : Statement .rddata := ⟨rfl, by decide, rfl⟩
theorem wrdata (b : Byte) : Statement (.wrdata b) := ⟨rfl, by decide, rfl⟩
theorem cmd (b : Byte) : Statement (.cmd b) := ⟨rfl, by decide, rfl⟩
theorem clear : Statement .clear := ⟨rfl, by decide, rfl⟩
theorem home : Statement .home := ⟨rfl, by decide, rfl⟩
theorem entry (i s : Bool) : Statement (.entry i s) := ⟨rfl, by decide, rfl⟩
theorem dispmode (d c b : Bool) : Statement (.dispmode d c b) := ⟨rfl, by decide, rfl⟩
theorem shift (s r : Bool) : Statement (.shift s r) := ⟨rfl, by decide, rfl⟩
theorem func (e t l : Bool) : Statement (.func e t l) := ⟨rfl, by decide, rfl⟩
theorem setcg (a : Byte) : Statement (.setcg a) := ⟨rfl, by decide, rfl⟩
theorem setdd (a : Byte) : Statement (.setdd a) := ⟨rfl, by decide, rfl⟩
theorem puts (t : List Nat) : Statement (.puts t) := ⟨rfl, by decide, rfl⟩
theorem clrall : Statement .clrall := ⟨rfl, by decide, rfl⟩
theorem encode (t : List Nat) : Statement (.encode t) := ⟨rfl, by decide, rfl⟩
theorem display (t : List Nat) : Statement (.display t) := ⟨rfl, by decide, rfl⟩
theorem rawdisp (w : Word) : Statement (.rawdisp w) := ⟨rfl, by decide, rfl⟩
theorem demo (c : Bool) : Statement (.demo c) := ⟨rfl, by decide, rfl⟩
theorem rawwr (b : Byte) : Statement (.rawwr b) := rfl
theorem rawrd : Statement .rawrd := rfl
theorem lookup (c : Byte) : Statement (.lookup c) := rfl

end Sys2Proof.Laws.EncodeOpsel
end

