-- ==== Sys2Proof/Tests/Slice0.lean ====
section
/-! SUPPORT. The model's own tests: ill-formed requests, words written out from the encodings of 30_encoding.md, single steps
with the vectors of 95_test_vectors.md, and for every obligation with hypotheses a state and operands that meet them. -/

namespace Sys2Proof.Tests

open Sys2Proof Sys2Proof.Machine

/-! ### Benches -/

/-- A pin call that succeeds (a read of it gives low). -/
def yes : Draw := .ok .low

/-- The answers to one read transaction in which the module answers `b`, the data pins taken in order 0 to 7. -/
def answer (b : Byte) : List Draw :=
  List.replicate 11 yes ++ (List.range 8).map (fun i => .ok (.ofBool (b.getLsbD i))) ++ [yes]

/-- The answers to one write transaction. -/
def quiet : List Draw := List.replicate 20 yes

/-- A machine whose PBE has POLL_LIMIT `limit` and the given answers to come; it is PBE's turn. -/
def pbeBench (limit : Option Nat) (draws : List Draw) : State :=
  { State.fresh ⟨limit⟩ ⟨false, false, false, true, [], none⟩ with
    turns := [.pbe]
    pbe := { Pbe.fresh ⟨limit⟩ with
      port := { Port.fresh .pbe .rs pbePins with draws := draws, orders := List.replicate 8 0 } } }

/-- The same with PBE at the head of its poll loop in operation `i`, the last poll having read busy. -/
def pollBench (limit : Option Nat) (i : Instr) (txt : Txt) (draws : List Draw) : State :=
  { State.fresh ⟨limit⟩ ⟨false, false, false, true, [], none⟩ with
    turns := [.pbe]
    pbe := { Pbe.fresh ⟨limit⟩ with
      rdr := 0x80
      txt := txt
      port := { Port.fresh .pbe .rs pbePins with
        ph := .busy i .pollLoop, draws := draws, orders := List.replicate 8 0 } } }

/-- The sample table REF16 (R114). -/
def ref16 : Memory :=
  Memory.ofPairs
    [(0x30, 0x7E), (0x31, 0x18), (0x32, 0xB6), (0x33, 0xBC), (0x34, 0xD8), (0x35, 0xEC), (0x36, 0xEE), (0x37, 0x38),
     (0x38, 0xFE), (0x39, 0xFC), (0x41, 0xFA), (0x42, 0xCE), (0x43, 0x66), (0x44, 0x9E), (0x45, 0xE6), (0x46, 0xE2)]

/-- A configuration of SRL with table REF16 or another, and the given indicators. -/
def srlCfg (deg col cur : Bool) (table : Memory) : SrlCfg := ⟨deg, col, cur, true, [], some table⟩

/-- A machine whose SRL has that configuration and the given answers and cancel checks to come; it is SRL's turn. -/
def srlBench (cfg : SrlCfg) (cancels : List Bool) (draws : List Draw) : State :=
  { State.fresh ⟨none⟩ cfg with
    turns := [.srl]
    srl := { Srl.fresh cfg with
      cancels := cancels
      port := { Port.fresh .srl .latch (srlPins cfg) with draws := draws } } }

/-- The same with SRL at the head of DEMO's loop, about to show window `k`. -/
def demoBench (k : Fin 16) (cancels : List Bool) (draws : List Draw) : State :=
  { State.fresh ⟨none⟩ (srlCfg false false false ref16) with
    turns := [.srl]
    srl := { Srl.fresh (srlCfg false false false ref16) with
      cancels := cancels
      win := k
      port := { Port.fresh .srl .latch (srlPins (srlCfg false false false ref16)) with
        ph := .busy (.demo false) .tickLoop, draws := draws } } }

/-- A machine on the host's turn with request bytes to come. -/
def hostBench (requests : List Byte) : State :=
  { State.fresh ⟨some 2⟩ (srlCfg true false true ref16) with turns := [.host], requests := requests }

/-- The next state of an outcome. -/
def after : Host.Outcome State Fault Refusal → Option State
  | .next t => some t
  | .fault _ => none
  | .refused _ => none

/-- What a test of PBE looks at. -/
def pbeEnd (o : Host.Outcome State Fault Refusal) : Option (Byte × Err × Phase × Option PinRec × Option PinRec) :=
  (after o).map (fun t => (t.pbe.result, t.pbe.port.err, t.pbe.port.ph, t.pbe.port.pin .rs, t.pbe.port.pin .rw))

/-- What a test of SRL looks at. -/
def srlEnd (o : Host.Outcome State Fault Refusal) : Option (Word × Word × Err × Phase × Option PinRec) :=
  (after o).map (fun t => (t.srl.acc, t.srl.sr, t.srl.port.err, t.srl.port.ph, t.srl.port.pin .din))

/-- The bytes a trace writes while Enable rises and falls: the data pins' last drive of each write cycle, DB[0] first. -/
def driven (tr : List Event) : List (Pin × Level) :=
  tr.filterMap (fun ev =>
    match ev with
    | .out (.db i) (.known l) => some (.db i, l)
    | _ => none)

def outHigh : Option PinRec := some ⟨.output, .known .high⟩
def outLow : Option PinRec := some ⟨.output, .known .low⟩

/-! ### Ill-formed requests (R85, R86) -/

theorem test_rawwr_ill_formed : ¬ WellFormed (.rawwr 0x00) := by decide
theorem test_rawrd_ill_formed : ¬ WellFormed .rawrd := by decide
theorem test_lookup_ill_formed : ¬ WellFormed (.lookup 0x41) := by decide
theorem test_wide_puts_ill_formed : ¬ WellFormed (.puts [0x48, 0x20AC]) := by decide
theorem test_wide_encode_ill_formed : ¬ WellFormed (.encode [0x100]) := by decide
theorem test_wide_display_ill_formed : ¬ WellFormed (.display [0x100]) := by decide
theorem test_longest_code_well_formed : WellFormed (.puts [0x00, 0xFF]) := by decide

/-! ### Words written out from the tables (R72 to R79, R85) -/

theorem test_decode_rdbf : decode [0b00000#8] = .ok .rdbf [] := by decide
theorem test_decode_waitrdy : decode [0b00001#8] = .ok .waitrdy [] := by decide
theorem test_decode_rddata : decode [0b00010#8] = .ok .rddata [] := by decide
theorem test_decode_wrdata : decode [0b00011#8, 0x2E] = .ok (.wrdata 0x2E) [] := by decide
theorem test_decode_cmd : decode [0b00100#8, 0x13] = .ok (.cmd 0x13) [] := by decide
theorem test_decode_clear : decode [0b00101#8] = .ok .clear [] := by decide
theorem test_decode_home : decode [0b00110#8] = .ok .home [] := by decide
theorem test_decode_entry : decode [0b00111#8, 0b10#8] = .ok (.entry true false) [] := by decide
theorem test_decode_dispmode : decode [0b01000#8, 0b100#8] = .ok (.dispmode true false false) [] := by decide
theorem test_decode_shift : decode [0b01001#8, 0b0100#8] = .ok (.shift false true) [] := by decide
theorem test_decode_func : decode [0b01010#8, 0b11000#8] = .ok (.func true true false) [] := by decide
theorem test_decode_setcg : decode [0b01011#8, 0x3F] = .ok (.setcg 0x3F) [] := by decide
theorem test_decode_setdd : decode [0b01100#8, 0x40] = .ok (.setdd 0x40) [] := by decide
theorem test_decode_puts : decode [0b01101#8, 1, 0x48, 1, 0x49, 0] = .ok (.puts [0x48, 0x49]) [] := by decide
theorem test_decode_clrall : decode [0b10000#8] = .ok .clrall [] := by decide
theorem test_decode_encode : decode [0b10001#8, 1, 0x31, 1, 0x2E, 0] = .ok (.encode [0x31, 0x2E]) [] := by decide
theorem test_decode_display : decode [0b10010#8, 0] = .ok (.display []) [] := by decide
theorem test_decode_rawdisp : decode [0b10011#8, 0x19, 0, 0, 0x80] = .ok (.rawdisp 0x80000019) [] := by decide
theorem test_decode_demo : decode [0b10100#8, 1] = .ok (.demo true) [] := by decide

/-- The command bytes of the decoding check of 95_test_vectors.md, 2.4 (R81). -/
theorem test_command_0x38 : decodeCommand 0b00111000 = some (.func true true false) := by decide
theorem test_command_0xC0 : decodeCommand 0b11000000 = some (.setdd 0x40) := by decide
theorem test_command_0x7F : decodeCommand 0b01111111 = some (.setcg 0x3F) := by decide
theorem test_command_0x0C : decodeCommand 0b00001100 = some (.dispmode true false false) := by decide
theorem test_command_0x07 : decodeCommand 0b00000111 = some (.entry true true) := by decide
theorem test_command_0x18 : decodeCommand 0b00011000 = some (.shift true false) := by decide
theorem test_command_0x13 : decodeCommand 0b00010011 = none := by decide
theorem test_command_0x02 : decodeCommand 0b00000010 = some .home := by decide
theorem test_command_0x01 : decodeCommand 0b00000001 = some .clear := by decide

/-- R81's table at both ends of each range: 0x03, 0x13 and 0x23 have the layouts of HOME, SHIFT and FUNC. -/
theorem test_layouts :
    layoutOf 0x00 = none ∧ layoutOf 0x01 = some .clear ∧ layoutOf 0x02 = some .home ∧ layoutOf 0x03 = some .home ∧
      layoutOf 0x04 = some (.entry false false) ∧ layoutOf 0x07 = some (.entry true true) ∧
      layoutOf 0x08 = some (.dispmode false false false) ∧ layoutOf 0x0F = some (.dispmode true true true) ∧
      layoutOf 0x10 = some (.shift false false) ∧ layoutOf 0x13 = some (.shift false false) ∧
      layoutOf 0x1F = some (.shift true true) ∧ layoutOf 0x23 = some (.func false false false) ∧
      layoutOf 0x3F = some (.func true true true) ∧ layoutOf 0x40 = some (.setcg 0x00) ∧ layoutOf 0x7F = some (.setcg 0x3F) ∧
      layoutOf 0x80 = some (.setdd 0x00) ∧ layoutOf 0xFF = some (.setdd 0x7F) := by decide

/-- R83: the pattern 0x18 of REF16's `1` lights B and C, and its decimal point is free for the dot. -/
theorem test_segments :
    Segment.all.filter (fun x => x.lit 0x18) = [.b, .c] ∧ Segment.dp.lit 0x18 = false ∧ Segment.dp.lit 0x19 = true := by decide

/-- A reserved OPSEL, a flag byte with a stray bit and a text without its end are rejected by name. -/
theorem test_reserved_opsel : decode [0x0E] = .reject .reservedOpsel := by decide
theorem test_stray_flag : decode [0x07, 0x04] = .reject .badFlags := by decide
theorem test_open_text : decode [0x0D, 1, 0x48] = .reject .truncated := by decide

/-! ### One step of each operation (95_test_vectors.md) -/

/-- V-R1. -/
theorem test_rdbf : pbeEnd (exec .rdbf (pbeBench none (answer 0x85))) = some (0x85, .ok, .idle, outLow, outHigh) := by
  decide +kernel

/-- R121, R125: Enable fails to fall after the data pins read 0x85; RDR holds the byte, STATUS.RESULT does not. -/
theorem test_rdbf_fault :
    (after (exec .rdbf (pbeBench none ((answer 0x85).take 19 ++ [.fail])))).map (fun t =>
        (t.pbe.rdr, t.pbe.result, t.pbe.port.err, t.pbe.port.errPin)) = some (0x85, 0, .pinFault, .e) := by decide +kernel

/-- R28: acceptance alone, and then the first line, RS set low. -/
theorem test_issue_and_line :
    (after (issue .waitrdy (pbeBench none (answer 0x05)))).map (fun t => (t.pbe.port.ph, t.pbe.lineOn.port.ph,
        t.pbe.lineOn.port.trace)) =
      some (.busy .waitrdy (.firstPoll .rs), .busy .waitrdy (.firstPoll .one), [.beginOp .waitrdy, .out .rs (.known .low)]) := by
  decide +kernel

/-- V-R1: BF and AC of 0x85. -/
theorem test_status_fields : statusBF 0x85 = true ∧ statusAC 0x85 = 0x05 := by decide

/-- V-R3. -/
theorem test_rddata : pbeEnd (exec .rddata (pbeBench none (answer 0x41))) = some (0x41, .ok, .idle, outHigh, outHigh) := by
  decide +kernel

/-- V-W1: one poll, no poll delay. -/
theorem test_waitrdy_ready :
    (after (exec .waitrdy (pbeBench none (answer 0x05)))).map (fun t => (t.pbe.port.ph, requestedNs t.pbe.port.trace)) =
      some (.idle, 1000) := by decide +kernel

/-- V-W5: readiness is tested before the limit. -/
theorem test_waitrdy_last_poll_ready :
    (after (step (pollBench (some 1) .waitrdy ⟨[], 0⟩ (answer 0x00)))).map (fun t => (t.pbe.port.ph, t.pbe.port.err)) =
      some (.idle, .ok) := by decide +kernel

/-- V-W6: a busy poll at the limit. -/
theorem test_waitrdy_timeout :
    (after (step (pollBench (some 1) .waitrdy ⟨[], 0⟩ (answer 0x80)))).map
      (fun t => (t.pbe.port.ph, t.pbe.port.err, t.pbe.port.trace.getLast?)) =
      some (.idle, .protocolTimeout, some (.endOp .waitrdy .protocolTimeout .none)) := by decide +kernel

/-- V-R4: the byte 0x48 on DB[0] to DB[7]. -/
theorem test_wrdata :
    (after (exec (.wrdata 0x48) (pbeBench none quiet))).map (fun t => (t.pbe.port.pin .rs, driven t.pbe.port.trace)) =
      some (outHigh, [(.db 0, .low), (.db 1, .low), (.db 2, .low), (.db 3, .high), (.db 4, .low), (.db 5, .low),
        (.db 6, .high), (.db 7, .low)]) := by decide +kernel

/-- V-F1: E fails in step 4, after RS, eight data pins and RW. -/
theorem test_wrdata_fault :
    (after (exec (.wrdata 0x48) (pbeBench none (List.replicate 10 yes ++ [.fail])))).map (fun t =>
        (t.pbe.port.err, t.pbe.port.errPin, t.pbe.port.pin .e, t.pbe.port.trace.drop 11)) =
      some (.pinFault, .e, some PinRec.fresh,
        [.delay .tAS, .fail .e, .endOp (.wrdata 0x48) .pinFault .none]) := by decide +kernel

/-- The last byte a completed operation put on the bus. -/
def busByte (i : Instr) : Option (Byte × Option PinRec) :=
  (after (exec i (pbeBench none quiet))).map (fun t => (t.pbe.wdr, t.pbe.port.pin .rs))

/-- 95_test_vectors.md, 2.4. -/
theorem test_cmd : busByte (.cmd 0x13) = some (0x13, outLow) := by decide +kernel
theorem test_clear : busByte .clear = some (0x01, outLow) := by decide +kernel
theorem test_home : busByte .home = some (0x02, outLow) := by decide +kernel
theorem test_entry : busByte (.entry true false) = some (0x06, outLow) := by decide +kernel
theorem test_dispmode : busByte (.dispmode false true true) = some (0x0B, outLow) := by decide +kernel
theorem test_shift : busByte (.shift false true) = some (0x14, outLow) := by decide +kernel
theorem test_func : busByte (.func true true false) = some (0x38, outLow) := by decide +kernel
theorem test_setcg : busByte (.setcg 0xFF) = some (0x7F, outLow) := by decide +kernel
theorem test_setdd : busByte (.setdd 0x27) = some (0xA7, outLow) := by decide +kernel

/-- V-S2: PUTS("HI"). -/
theorem test_puts_hi :
    (after (exec (.puts [0x48, 0x49]) (pbeBench none (answer 0x00 ++ quiet ++ answer 0x00 ++ quiet)))).map (fun t =>
        (t.pbe.wdr, t.pbe.port.err, t.pbe.txt.pos, pinCalls t.pbe.port.trace)) = some (0x49, .ok, 2, 80) := by decide +kernel

/-- V-S3, second character: taken up at the poll loop, `.` is written as a byte. -/
theorem test_puts_dot :
    (after (step (pollBench none (.puts [0x41, 0x2E]) ⟨[0x41, 0x2E], 1⟩ (answer 0x00 ++ quiet)))).map (fun t =>
        (t.pbe.wdr, t.pbe.port.ph, requestedNs t.pbe.port.trace)) = some (0x2E, .idle, 42000) := by decide +kernel

/-- V-S3, first operation: `A` is written, and the module is busy before `.`. -/
theorem test_puts_then_busy :
    (after (exec (.puts [0x41, 0x2E]) (pbeBench none (answer 0x00 ++ quiet ++ answer 0x80)))).map (fun t =>
        (t.pbe.wdr, t.pbe.port.ph, t.pbe.txt.pos, pinCalls t.pbe.port.trace)) =
      some (0x41, .busy (.puts [0x41, 0x2E]) .pollLoop, 1, 60) := by decide +kernel

/-- V-C1: Cursor and Degree low, Colon has no record. -/
theorem test_clrall :
    (after (exec .clrall (srlBench (srlCfg true false true ref16) [] (List.replicate 100 yes)))).map (fun t =>
        (t.srl.port.pin .cur, t.srl.port.pin .col, t.srl.port.pin .deg, pinCalls t.srl.port.trace)) =
      some (outLow, none, outLow, 100) := by decide +kernel

/-- V-C4: Colon fails; Degree is not driven. -/
theorem test_clrall_fault :
    (after (exec .clrall (srlBench (srlCfg true true true ref16) [] (List.replicate 99 yes ++ [.fail])))).map (fun t =>
        (t.srl.port.errPin, t.srl.port.pin .cur, t.srl.port.pin .deg)) =
      some (.col, outLow, some PinRec.fresh) := by decide +kernel

/-- The word ENCODE gives for a text under REF16. -/
def encoded (t : List Nat) : Option (Word × OpResult) :=
  (after (exec (.encode t) (srlBench (srlCfg false false false ref16) [] []))).bind (fun u =>
    match u.srl.port.trace.getLast? with
    | some (.endOp _ .ok r) => some (u.srl.acc, r)
    | _ => none)

/-- V-E11: "12.3". -/
theorem test_encode : encoded [0x31, 0x32, 0x2E, 0x33] = some (0x00BCB718, .word 0x00BCB718) := by decide +kernel

/-- V-E16: "1234.5", the fifth character shifted out. -/
theorem test_encode_truncates :
    encoded [0x31, 0x32, 0x33, 0x34, 0x2E, 0x35] = some (0xD9BCB618, .word 0xD9BCB618) := by decide +kernel

/-- V-E6, V-E3, V-E21: a leading dot, dots alone, and the carry out of a pattern with bit 0 set. -/
theorem test_display_word :
    displayWord (srlCfg false false false ref16) [0x2E, 0x31] = 0x18 ∧
      displayWord (srlCfg false false false ref16) [0x2E, 0x2E] = 0 ∧
      displayWord (srlCfg false false false [(0x38, 0xFF)]) [0x38, 0x38, 0x38, 0x38, 0x2E] = 0x00FFFFFF := by decide +kernel

/-- V-X7: DISPLAY("1."). -/
theorem test_display :
    srlEnd (exec (.display [0x31, 0x2E]) (srlBench (srlCfg false false false ref16) [] (List.replicate 98 yes))) =
      some (0x19, 0x19, .ok, .idle, outLow) := by decide +kernel

/-- V-X5: the levels of DIN at the falling edges, bit 0 first. -/
theorem test_rawdisp :
    (after (exec (.rawdisp 0x19) (srlBench (srlCfg false false false ref16) [] (List.replicate 98 yes)))).map (fun t =>
        (clockedBits .unknown t.srl.port.trace).take 8) =
      some (([true, false, false, true, true, false, false, false] : List Bool).map (fun b => .known (Level.ofBool b))) := by
  decide +kernel

/-- V-X10: CLK fails low at bit 5; no latch pulse. -/
theorem test_rawdisp_fault :
    (after (exec (.rawdisp 0xFF) (srlBench (srlCfg false false false ref16) [] (List.replicate 17 yes ++ [.fail])))).map
      (fun t => (t.srl.port.errPin, t.srl.port.pin .clk, t.srl.port.pin .latch, t.srl.port.trace.drop 26)) =
      some (.clk, outHigh, some PinRec.fresh, [.out .din (.known .high), .out .clk (.known .high), .delay .tSR, .fail .clk,
        .endOp (.rawdisp 0xFF) .pinFault .none]) := by decide +kernel

/-- V-D2: cancel already raised at entry: one window and one tick. -/
theorem test_demo_cancelled :
    (after (exec (.demo true) (srlBench (srlCfg false false false ref16) [false] (List.replicate 98 yes)))).map (fun t =>
        (t.srl.sr, t.srl.port.ph, t.srl.port.err)) = some (0xBCB6187E, .idle, .ok) := by decide +kernel

/-- V-D3: window 15 is "F012" and window 0 follows it. -/
theorem test_demo_wraps :
    (after (step (demoBench 15 [false] (List.replicate 98 yes)))).map (fun t =>
        (t.srl.sr, t.srl.win, t.srl.port.ph)) = some (0xB6187EE2, 0, .busy (.demo false) .tickLoop) := by decide +kernel

/-- V-B3. -/
theorem test_rawwr :
    (after (exec (.rawwr 0x48) (pbeBench none quiet))).map (fun t =>
        (t.pbe.port.pin (.db 6), t.pbe.port.pin (.db 7), t.pbe.port.pin .rs, pinCalls t.pbe.port.trace)) =
      some (outHigh, outLow, some PinRec.fresh, 19) := by decide +kernel

/-- V-B4; the first ten answers are to the calls before the reads. -/
theorem test_rawrd :
    (after (exec .rawrd (pbeBench none ((answer 0x85).tail)))).map (fun t => (t.pbe.rdr, t.pbe.port.pin (.db 0))) =
      some (0x85, some ⟨.input, .unknown⟩) := by decide +kernel

/-- V-L4: the custom table replaces the default one whole. -/
theorem test_lookup :
    (after (exec (.lookup 0x2D) (srlBench (srlCfg false false false [(0x2D, 0x80)]) [] []))).map (fun t => t.srl.romOut) =
      some 0x80 ∧
    (after (exec (.lookup 0x31) (srlBench ⟨false, false, false, true, [(0x31, 0x18)], some [(0x2D, 0x80)]⟩ [] []))).map
      (fun t => t.srl.romOut) = some 0 := by decide +kernel

/-- V-P9, in two orders (R106): the order of the pins follows its code. -/
theorem test_orders : pinOrder 0 = [0, 1, 2, 3, 4, 5, 6, 7] ∧ pinOrder 7 = [7, 0, 1, 2, 3, 4, 5, 6] := by decide

/-- The refusal of an outcome. -/
def refusalIn : Host.Outcome State Fault Refusal → Option Refusal
  | .next _ => none
  | .fault _ => none
  | .refused r => some r

/-- V-D5, V-F6, V-F8, V-F5, V-Z4: the refusals. -/
theorem test_refusals :
    refusalIn (exec (.demo false) (srlBench ⟨false, false, false, false, [], none⟩ [] [])) = some .demoAbsent ∧
    refusalIn (exec .clear (pollBench none .waitrdy ⟨[], 0⟩ [])) = some .engineBusy ∧
    refusalIn (exec (.puts [0x20AC]) (pbeBench none [])) = some .wideCharacter ∧
    refusalIn (step (hostBench [0x1F])) = some .reservedOpsel ∧
    refusalIn (construct [true, true, true, true, true, true, true] ⟨none⟩ ⟨false, false, false, true, [], none⟩) =
      some .badPinSet := by decide +kernel

/-- The opcode table's word of a row runs as the first instruction after reset. -/
theorem test_fetch_word : (after (step (State.reset.withFetchWord 8 0x05))).isSome = true := by decide +kernel

/-! ### Witnesses: a state and operands for the hypotheses of each obligation -/

/-- The environment of the benches lets `n` calls succeed. -/
theorem noFail_of_draws (P : Port) (n : Nat) (h : ∀ k < n, P.draws[k]? = some yes ∨ P.draws[k]? = some (.ok .high)) :
    P.noFail n := by
  intro k hk
  rcases h k hk with h | h <;> simp [Port.peek, List.getD, h, yes]

theorem pbeBench_inv : (pbeBench (some 1) (answer 0x80)).Inv := by
  refine ⟨⟨rfl, by decide, by decide, ?_, rfl, by decide, .inl rfl⟩,
    ⟨rfl, by decide, by decide, by decide, rfl, by decide, by simp [pbeBench, State.fresh, Srl.fresh], by decide, .inl rfl⟩⟩
  intro q hq
  have : q.2 = PinRec.fresh := by
    revert q; decide
  rw [this]; intro h; cases h

/-- PBE at the head of WAITRDY's poll loop after one busy poll, one more allowed. -/
theorem pollBench_inv : (pollBench (some 1) .waitrdy ⟨[], 0⟩ (answer 0x80)).Inv := by
  refine ⟨⟨rfl, by decide, by decide, ?_, rfl, by decide, .inr ⟨.waitrdy, .pollLoop, rfl, rfl, rfl, by simp, ?_, ?_, trivial⟩⟩,
    ⟨rfl, by decide, by decide, by decide, rfl, by decide, by simp [pollBench, State.fresh, Srl.fresh], by decide, .inl rfl⟩⟩
  · intro q hq
    have : q.2 = PinRec.fresh := by
      revert q; decide
    rw [this]; intro h; cases h
  · intro _; rfl
  · intro _; rfl

/-- SRL at the head of DEMO's loop. -/
theorem demoBench_inv : (demoBench 15 [true] (List.replicate 98 yes)).Inv := by
  refine ⟨⟨rfl, by decide, by decide, ?_, rfl, by decide, .inl rfl⟩,
    ⟨rfl, by decide, by decide, by decide, rfl, by decide, fun m hm => by cases hm; decide, by decide,
      .inr ⟨.demo false, .tickLoop, rfl, rfl, rfl, fun h => absurd h (by decide), fun h => absurd h (by decide),
        fun h => absurd h (by decide), fun _ _ => rfl, fun h => absurd h (by decide)⟩⟩⟩
  intro q hq
  have : q.2 = PinRec.fresh := by
    revert q; decide
  rw [this]; intro h; cases h

theorem test_witness_LayoutsByHighestBit :
    (∀ b ∈ ([0x02, 0x03] : List Byte), 0x02 ≤ b.toNat ∧ b.toNat ≤ 0x03) ∧
      (∀ b ∈ ([0x10, 0x13, 0x1F] : List Byte), 0x10 ≤ b.toNat ∧ b.toNat ≤ 0x1F) ∧
      (∀ b ∈ ([0x20, 0x23, 0x3F] : List Byte), 0x20 ≤ b.toNat ∧ b.toNat ≤ 0x3F) ∧
      (∀ b ∈ ([0x80, 0xFF] : List Byte), 0x80 ≤ b.toNat ∧ b.toNat ≤ 0xFF) := by decide

theorem test_witness_PatternSegments : Segment.dp.lit 0x00 = false ∧ Segment.dp.lit 0xFE = false := by decide

theorem test_witness_RequestRoundTrip :
    WellFormed (.puts [0x00, 0xFF]) ∧ WellFormed (.func true false true) ∧ WellFormed (.rawdisp 0xFFFFFFFF) := by decide

theorem test_witness_StepRunsDecodedRequest :
    (hostBench [0x13, 1, 2, 3, 4, 0x05]).nextAgent = .host ∧
      ({ hostBench [0x13, 1, 2, 3, 4, 0x05] with turns := [.issue] }).nextAgent = .issue ∧
      decode (hostBench [0x13, 1, 2, 3, 4, 0x05]).requests = .ok (.rawdisp 0x04030201) [0x05] := by decide

theorem test_witness_IdleTurnsChangeNothing :
    (hostBench []).nextAgent = .host ∧ ({ hostBench [] with turns := [.issue] }).nextAgent = .issue ∧
      (hostBench []).requests = [] ∧
      (pbeBench none []).nextAgent = .pbe ∧ ({ pbeBench none [] with turns := [.pbeLine] }).nextAgent = .pbeLine ∧
      (pbeBench none []).pbe.port.ph = .idle ∧
      (srlBench (srlCfg true true true ref16) [] []).nextAgent = .srl ∧
      ({ srlBench (srlCfg true true true ref16) [] [] with turns := [.srlLine] }).nextAgent = .srlLine ∧
      (srlBench (srlCfg true true true ref16) [] []).srl.port.ph = .idle := by decide

theorem test_witness_ConstructionNeedsEightDataPins :
    ([true, true, true, true, true, true, true, true] : List Bool) = List.replicate 8 true ∧
      ([true, true, true, true, true, true, true, false] : List Bool) ≠ List.replicate 8 true ∧
      List.replicate 7 true ≠ List.replicate 8 true ∧ List.replicate 9 true ≠ List.replicate 8 true := by decide

theorem test_witness_StepKeepsInvariant :
    (pbeBench (some 1) (answer 0x80)).Inv ∧ ∃ t, step (pbeBench (some 1) (answer 0x80)) = .next t :=
  ⟨pbeBench_inv, _, rfl⟩

theorem test_witness_ConfigurationNeverChanges :
    (after (step (hostBench [0x00]))).isSome = true ∧ (after (exec (.lookup 0x31) (hostBench []))).isSome = true := by
  decide +kernel

theorem test_witness_OperationsTouchTheirEngineOnly :
    (after (exec .home (pbeBench none quiet))).isSome = true ∧ Instr.home.engine = .pbe ∧
      (after (exec (.encode [0x31]) (hostBench []))).isSome = true ∧ (Instr.encode [0x31]).engine = .srl := by decide +kernel

/-- Also of NothingAfterAFailedCall and LoaderOnlyDrives: a step with `Fail`, a step in which
Enable rises in a write and in a read, and a step of SRL. -/
theorem test_witness_PinRecordsFollowTheTrace :
    (after (step (pollBench none (.puts [0x41]) ⟨[0x41], 0⟩ (answer 0x00 ++ List.replicate 3 yes ++ [.fail])))).map
        (fun t => (t.pbe.port.errPin, t.pbe.port.trace.contains (.fail (.db 2)))) = some (.db 2, true) ∧
      (after (step (pollBench none (.puts [0x41]) ⟨[0x41], 0⟩ (answer 0x00 ++ quiet)))).map
        (fun t => t.pbe.port.trace.count (outEv .e .high)) = some 2 ∧
      (after (step (demoBench 3 [true] (List.replicate 98 yes)))).isSome = true := by decide +kernel

/-- An end in the call's step, and one in a later step of the engine, a timeout. -/
theorem test_witness_EveryEndWritesTheStatus :
    Instr.clear.requestable = true ∧
      (after (exec .clear (pbeBench none [.fail]))).map (fun t => (t.portOf Instr.clear.engine).ph) = some .idle ∧
      ((pollBench (some 1) .waitrdy ⟨[], 0⟩ (answer 0x80)).portOf .pbe).ph = .busy .waitrdy .pollLoop ∧
      (after (step (pollBench (some 1) .waitrdy ⟨[], 0⟩ (answer 0x80)))).map (fun t => (t.portOf .pbe).ph) = some .idle := by
  decide +kernel

theorem test_witness_DataPinsTurnedBeforeEnableRises :
    (pollBench (some 1) .waitrdy ⟨[], 0⟩ (answer 0x80)).Inv ∧
      (after (step (pollBench (some 1) .waitrdy ⟨[], 0⟩ (answer 0x80)))).map
        (fun t => t.pbe.port.trace.count (outEv .e .high)) = some 1 := ⟨pollBench_inv, by decide +kernel⟩

/-- Also of LinesMakeUpTheCall: calls that go on to their end, to a loop's head and to a fault, and a refused one. -/
theorem test_witness_IssueStandsAtTheFirstStep :
    (after (exec .clear (pbeBench none quiet))).isSome = true ∧ (after (issue .clear (pbeBench none quiet))).isSome = true ∧
      Instr.clear.requestable = true ∧
      (after (exec (.puts [0x41]) (pbeBench none (answer 0x80)))).isSome = true ∧ Instr.requestable (.puts [0x41]) = true ∧
      (after (exec (.rawdisp 0x19) (srlBench (srlCfg false false false ref16) [] [.fail]))).isSome = true ∧
      Instr.requestable (.rawdisp 0x19) = true ∧
      refusalIn (exec .clear (pollBench none .waitrdy ⟨[], 0⟩ [])) = some .engineBusy := by decide +kernel

/-- In the poll loop and in the tick loop. -/
theorem test_witness_PhaseMovesAsThePseudocodeSays :
    ({ pollBench (some 1) .waitrdy ⟨[], 0⟩ (answer 0x80) with turns := [.pbeLine] }).Inv ∧
      ({ pollBench (some 1) .waitrdy ⟨[], 0⟩ (answer 0x80) with turns := [.pbeLine] }).nextAgent = .pbeLine ∧
      ((pollBench (some 1) .waitrdy ⟨[], 0⟩ (answer 0x80)).portOf .pbe).ph = .busy .waitrdy .pollLoop ∧
      ({ demoBench 15 [true] (List.replicate 98 yes) with turns := [.srlLine] }).Inv ∧
      ({ demoBench 15 [true] (List.replicate 98 yes) with turns := [.srlLine] }).nextAgent = .srlLine ∧
      ((demoBench 15 [true] (List.replicate 98 yes)).portOf .srl).ph = .busy (.demo false) .tickLoop :=
  ⟨⟨pollBench_inv.pbe, pollBench_inv.srl⟩, rfl, rfl, ⟨demoBench_inv.pbe, demoBench_inv.srl⟩, rfl, rfl⟩

theorem test_witness_LinesMakeUpTheLoopTurn :
    (pollBench (some 1) .waitrdy ⟨[], 0⟩ (answer 0x80)).pbe.Inv ∧
      (∃ i, (pollBench (some 1) .waitrdy ⟨[], 0⟩ (answer 0x80)).pbe.port.ph = .busy i .pollLoop) ∧
      (demoBench 15 [true] (List.replicate 98 yes)).srl.Inv ∧
      (∃ i, (demoBench 15 [true] (List.replicate 98 yes)).srl.port.ph = .busy i .tickLoop) :=
  ⟨pollBench_inv.pbe, ⟨_, rfl⟩, demoBench_inv.srl, ⟨_, rfl⟩⟩

theorem test_witness_BusyEngineRefuses :
    Instr.requestable (.puts [0x41]) = true ∧ Instr.narrow (.puts [0x41]) = true ∧
      ((pollBench none .waitrdy ⟨[], 0⟩ []).portOf (Instr.engine (.puts [0x41]))).ph ≠ .idle ∧
      ((demoBench 0 [] []).portOf (Instr.engine (.demo true))).ph ≠ .idle ∧
      (demoBench 0 [] []).srl.cfg.hasDemo = true := by decide

theorem test_witness_WideCharactersRefused : ∃ c ∈ [0x41, 0x100], 255 < c := by decide

theorem test_witness_ReservedOpselRefused :
    (hostBench [0x0E]).nextAgent = .host ∧ ({ hostBench [0x0E] with turns := [.issue] }).nextAgent = .issue ∧
      (hostBench [0x0E]).requests = 0x0E :: [] ∧
      (0x15 ≤ (0x15 : Byte).toNat ∧ (0x1F : Byte).toNat ≤ 0x1F) := by decide

theorem quiet_noFail (limit : Option Nat) : (pbeBench limit quiet).pbe.port.noFail 20 :=
  noFail_of_draws _ _ (show ∀ k < 20, quiet[k]? = some yes ∨ quiet[k]? = some (.ok .high) by decide)

theorem answer_noFail (limit : Option Nat) : (pbeBench limit (answer 0x85)).pbe.port.noFail 20 :=
  noFail_of_draws _ _ (show ∀ k < 20, (answer 0x85)[k]? = some yes ∨ (answer 0x85)[k]? = some (.ok .high) by decide)

theorem test_witness_WriteTransactionsComplete :
    busWrite (.setdd 0xFF) = some (.low, 0xFF) ∧ (pbeBench none quiet).pbe.port.ph = .idle ∧
      (pbeBench none quiet).pbe.port.noFail 20 := ⟨by decide, rfl, quiet_noFail none⟩

theorem test_witness_ReadTransactionsComplete :
    busRead .rddata = some .high ∧ (pbeBench none (answer 0x85)).pbe.port.ph = .idle ∧
      (pbeBench none (answer 0x85)).pbe.port.noFail 20 := ⟨rfl, rfl, answer_noFail none⟩

theorem test_witness_RawWriteCycleCompletes : (pbeBench none quiet).pbe.port.noFail 19 :=
  fun k hk => quiet_noFail none k (by omega)

theorem test_witness_RawReadCycleCompletes : (pbeBench none (answer 0x85)).pbe.port.noFail 19 :=
  fun k hk => answer_noFail none k (by omega)

/-- The first and the last call fail. -/
theorem test_witness_PinFaultCutsTheTransaction :
    ((pbeBench none [.fail]).pbe.port.transaction .rdbf).isSome = true ∧ (pbeBench none [.fail]).pbe.port.ph = .idle ∧
      (pbeBench none [.fail]).pbe.port.failsAt 0 ∧
      (pbeBench none (List.replicate 19 yes ++ [.fail])).pbe.port.failsAt 19 :=
  ⟨rfl, rfl, ⟨fun k hk => absurd hk (by omega), rfl⟩, noFail_of_draws _ _ (by decide), rfl⟩

/-- The first call fails, the last read fails, and the fall of Enable fails. -/
theorem test_witness_ReadFaultLeavesTheSampledByte :
    busRead .rdbf = some .low ∧ (pbeBench none [.fail]).pbe.port.ph = .idle ∧
      (pbeBench none [.fail]).pbe.port.failsAt 0 ∧
      (pbeBench none ((answer 0x85).take 18 ++ [.fail])).pbe.port.failsAt 18 ∧
      (pbeBench none ((answer 0x85).take 19 ++ [.fail])).pbe.port.failsAt 19 :=
  ⟨rfl, rfl, ⟨fun k hk => absurd hk (by omega), rfl⟩, ⟨noFail_of_draws _ _ (by decide), rfl⟩,
    noFail_of_draws _ _ (by decide), rfl⟩

theorem test_witness_WaitrdyReturnsIfReady :
    (pbeBench none (answer 0x7F)).pbe.port.ph = .idle ∧ (pbeBench none (answer 0x7F)).pbe.port.noFail 20 ∧
      (pbeBench none (answer 0x7F)).pbe.port.readyFor 1 := by
  refine ⟨rfl, noFail_of_draws _ _ (by decide), fun k hk => ?_⟩
  obtain rfl : k = 0 := by omega
  rfl

theorem test_witness_WaitrdyWaitsIfBusy :
    (pbeBench none (answer 0x80)).pbe.port.ph = .idle ∧ (pbeBench none (answer 0x80)).pbe.port.noFail 20 ∧
      (pbeBench none (answer 0x80)).pbe.port.readLevel 0 ((pbeBench none (answer 0x80)).pbe.port.peekOrder 1) 7 = .high :=
  ⟨rfl, noFail_of_draws _ _ (by decide), by decide⟩

/-- Ready at the first poll, and at the last one the bound allows. -/
theorem test_witness_WaitrdyReturnsAtTheFirstReadyPoll :
    ((pbeBench (some 1) (answer 0x7F)).pbe.port.ph = .idle ∧ (pbeBench (some 1) (answer 0x7F)).pbe.cfg.pollLimit = some 1 ∧
      (pbeBench (some 1) (answer 0x7F)).pbe.port.noFail (20 * (0 + 1)) ∧
      (pbeBench (some 1) (answer 0x7F)).pbe.port.readLevel (20 * 0)
        ((pbeBench (some 1) (answer 0x7F)).pbe.port.peekOrder (2 * 0 + 1)) 7 = .low) ∧
    ((pbeBench (some 1) (answer 0x80 ++ answer 0x7F)).pbe.port.noFail (20 * (1 + 1)) ∧
      (∀ k, k < 1 → (pbeBench (some 1) (answer 0x80 ++ answer 0x7F)).pbe.port.readLevel (20 * k)
        ((pbeBench (some 1) (answer 0x80 ++ answer 0x7F)).pbe.port.peekOrder (2 * k + 1)) 7 = .high) ∧
      (pbeBench (some 1) (answer 0x80 ++ answer 0x7F)).pbe.port.readLevel (20 * 1)
        ((pbeBench (some 1) (answer 0x80 ++ answer 0x7F)).pbe.port.peekOrder (2 * 1 + 1)) 7 = .low) :=
  ⟨⟨rfl, rfl, noFail_of_draws _ _ (by decide), by decide⟩, noFail_of_draws _ _ (by decide), by decide, by decide⟩

theorem test_witness_WaitrdyTimesOut :
    (pbeBench (some 1) (answer 0x80 ++ answer 0x80)).pbe.port.ph = .idle ∧
      (pbeBench (some 1) (answer 0x80 ++ answer 0x80)).pbe.cfg.pollLimit = some 1 ∧
      (pbeBench (some 1) (answer 0x80 ++ answer 0x80)).pbe.port.noFail (20 * (1 + 1)) ∧
      (∀ k, k < 2 → (pbeBench (some 1) (answer 0x80 ++ answer 0x80)).pbe.port.readLevel (20 * k)
        ((pbeBench (some 1) (answer 0x80 ++ answer 0x80)).pbe.port.peekOrder (2 * k + 1)) 7 = .high) :=
  ⟨rfl, rfl, noFail_of_draws _ _ (by decide), by decide⟩

theorem test_witness_PollEndsWhenReady :
    (pollBench (some 1) .waitrdy ⟨[], 0⟩ (answer 0x7F)).nextAgent = .pbe ∧
      (pollBench (some 1) .waitrdy ⟨[], 0⟩ (answer 0x7F)).pbe.port.ph = .busy .waitrdy .pollLoop ∧
      (pollBench (some 1) .waitrdy ⟨[], 0⟩ (answer 0x7F)).pbe.port.noFail 20 ∧
      (pollBench (some 1) .waitrdy ⟨[], 0⟩ (answer 0x7F)).pbe.port.readyFor 1 := by
  refine ⟨rfl, rfl, noFail_of_draws _ _ (by decide), fun k hk => ?_⟩
  obtain rfl : k = 0 := by omega
  rfl

/-- At the bound exactly. -/
theorem test_witness_PollLimitRaisesProtocolTimeout :
    (pollBench (some 1) (.puts [0x41]) ⟨[0x41], 0⟩ (answer 0x80)).nextAgent = .pbe ∧
      (pollBench (some 1) (.puts [0x41]) ⟨[0x41], 0⟩ (answer 0x80)).pbe.port.ph = .busy (.puts [0x41]) .pollLoop ∧
      (pollBench (some 1) (.puts [0x41]) ⟨[0x41], 0⟩ (answer 0x80)).pbe.port.noFail 20 ∧
      (pollBench (some 1) (.puts [0x41]) ⟨[0x41], 0⟩ (answer 0x80)).pbe.port.readLevel 0
        ((pollBench (some 1) (.puts [0x41]) ⟨[0x41], 0⟩ (answer 0x80)).pbe.port.peekOrder 1) 7 = .high ∧
      (pollBench (some 1) (.puts [0x41]) ⟨[0x41], 0⟩ (answer 0x80)).pbe.cfg.pollLimit = some 1 ∧
      1 ≤ (pollBench (some 1) (.puts [0x41]) ⟨[0x41], 0⟩ (answer 0x80)).pbe.pollcnt + 1 :=
  ⟨rfl, rfl, noFail_of_draws _ _ (by decide), by decide, rfl, by decide⟩

/-- One below the bound, and with no bound. -/
theorem test_witness_PollGoesOnWhileBusy :
    (pollBench (some 2) .waitrdy ⟨[], 0⟩ (answer 0x80)).nextAgent = .pbe ∧
      (pollBench (some 2) .waitrdy ⟨[], 0⟩ (answer 0x80)).pbe.port.ph = .busy .waitrdy .pollLoop ∧
      (pollBench (some 2) .waitrdy ⟨[], 0⟩ (answer 0x80)).pbe.port.noFail 20 ∧
      (pollBench (some 2) .waitrdy ⟨[], 0⟩ (answer 0x80)).pbe.port.readLevel 0
        ((pollBench (some 2) .waitrdy ⟨[], 0⟩ (answer 0x80)).pbe.port.peekOrder 1) 7 = .high ∧
      (∀ n, (pollBench (some 2) .waitrdy ⟨[], 0⟩ (answer 0x80)).pbe.cfg.pollLimit = some n →
        (pollBench (some 2) .waitrdy ⟨[], 0⟩ (answer 0x80)).pbe.pollcnt + 1 < n) ∧
      (∀ n, (pollBench none .waitrdy ⟨[], 0⟩ (answer 0x80)).pbe.cfg.pollLimit = some n →
        (pollBench none .waitrdy ⟨[], 0⟩ (answer 0x80)).pbe.pollcnt + 1 < n) := by
  refine ⟨rfl, rfl, noFail_of_draws _ _ (by decide), by decide, fun n hn => ?_, fun n hn => ?_⟩
  · cases hn; decide
  · cases hn

/-- One character, and none. -/
theorem test_witness_PutsWritesEveryCharacter :
    textBytes [0xFF] = some [0xFF] ∧ (pbeBench none (answer 0x00 ++ quiet)).pbe.port.ph = .idle ∧
      (pbeBench none (answer 0x00 ++ quiet)).pbe.port.noFail (40 * 1) ∧
      (pbeBench none (answer 0x00 ++ quiet)).pbe.port.readyFor 1 ∧
      textBytes [] = some [] ∧ (pbeBench none []).pbe.port.noFail (40 * 0) := by
  refine ⟨rfl, rfl, noFail_of_draws _ _ (by decide), fun k hk => ?_, rfl, fun k hk => absurd hk (by omega)⟩
  obtain rfl : k = 0 := by omega
  rfl

/-- Busy at the first character, and at the second. -/
theorem test_witness_PutsWaitsIfBusy :
    (textBytes [0x41, 0x2E] = some [0x41, 0x2E] ∧ (pbeBench none (answer 0x80)).pbe.port.ph = .idle ∧
      (pbeBench none (answer 0x80)).pbe.port.noFail (40 * 0 + 20) ∧ (pbeBench none (answer 0x80)).pbe.port.readyFor 0 ∧
      (pbeBench none (answer 0x80)).pbe.port.readLevel (40 * 0)
        ((pbeBench none (answer 0x80)).pbe.port.peekOrder (4 * 0 + 1)) 7 = .high) ∧
    ((pbeBench none (answer 0x00 ++ quiet ++ answer 0x80)).pbe.port.noFail (40 * 1 + 20) ∧
      (pbeBench none (answer 0x00 ++ quiet ++ answer 0x80)).pbe.port.readyFor 1 ∧
      (pbeBench none (answer 0x00 ++ quiet ++ answer 0x80)).pbe.port.readLevel (40 * 1)
        ((pbeBench none (answer 0x00 ++ quiet ++ answer 0x80)).pbe.port.peekOrder (4 * 1 + 1)) 7 = .high) := by
  refine ⟨⟨rfl, rfl, noFail_of_draws _ _ (by decide), fun k hk => absurd hk (by omega), by decide⟩,
    noFail_of_draws _ _ (by decide), fun k hk => ?_, by decide⟩
  obtain rfl : k = 0 := by omega
  rfl

/-- A PUTS waiting at its second character of three, for a module that takes one more. -/
def putsBench : State :=
  pollBench (some 2) (.puts [0x41, 0x2E, 0x42]) ⟨[0x41, 0x2E, 0x42], 1⟩ (answer 0x00 ++ quiet ++ answer 0x80)

theorem test_witness_PutsGoesOnUntilBusy :
    putsBench.nextAgent = .pbe ∧ putsBench.pbe.port.ph = .busy (.puts [0x41, 0x2E, 0x42]) .pollLoop ∧
      putsBench.pbe.txt.chars.drop putsBench.pbe.txt.pos = [0x2E, 0x42] ∧ 1 < ([0x2E, 0x42] : List Byte).length ∧
      putsBench.pbe.port.noFail (40 * 1 + 20) ∧ putsBench.pbe.port.readyFor 1 ∧
      putsBench.pbe.port.readLevel (40 * 1) (putsBench.pbe.port.peekOrder (4 * 1 + 1)) 7 = .high := by
  refine ⟨rfl, rfl, rfl, by decide, noFail_of_draws _ _ (by decide), fun k hk => ?_, by decide⟩
  obtain rfl : k = 0 := by omega
  rfl

theorem test_witness_PutsGoesOnWhenReady :
    (pollBench none (.puts [0x41, 0x2E]) ⟨[0x41, 0x2E], 1⟩ (answer 0x00 ++ quiet)).nextAgent = .pbe ∧
      (pollBench none (.puts [0x41, 0x2E]) ⟨[0x41, 0x2E], 1⟩ (answer 0x00 ++ quiet)).pbe.port.ph =
        .busy (.puts [0x41, 0x2E]) .pollLoop ∧
      (pollBench none (.puts [0x41, 0x2E]) ⟨[0x41, 0x2E], 1⟩ (answer 0x00 ++ quiet)).pbe.txt.chars.drop 1 = [0x2E] ∧
      (pollBench none (.puts [0x41, 0x2E]) ⟨[0x41, 0x2E], 1⟩ (answer 0x00 ++ quiet)).pbe.port.noFail (40 * 1) ∧
      (pollBench none (.puts [0x41, 0x2E]) ⟨[0x41, 0x2E], 1⟩ (answer 0x00 ++ quiet)).pbe.port.readyFor 1 := by
  refine ⟨rfl, rfl, rfl, noFail_of_draws _ _ (by decide), fun k hk => ?_⟩
  obtain rfl : k = 0 := by omega
  rfl

/-- A configuration with the default table alone. -/
def defaultCfg : SrlCfg := ⟨false, false, false, true, [(0x31, 0x18)], none⟩

/-- A custom table that lists the character and one that does not, and the same of the default table. -/
theorem test_witness_LookupReadsTheActiveTable :
    (hostBench []).srl.cfg.customTable = some ref16 ∧ ref16.wf = true ∧ ((0x30 : Byte).toNat, (0x7E : Byte)) ∈ ref16 ∧
      (∀ x ∈ ref16, x.1 ≠ (0x7A : Byte).toNat) ∧
      (srlBench defaultCfg [] []).srl.cfg.customTable = none ∧ defaultCfg.defaultTable.wf = true ∧
      ((0x31 : Byte).toNat, (0x18 : Byte)) ∈ defaultCfg.defaultTable ∧
      (∀ x ∈ defaultCfg.defaultTable, x.1 ≠ (0x30 : Byte).toNat) := ⟨rfl, by decide, by decide, by decide, rfl, by decide⟩

/-- The characters next to the digits and the letters. -/
theorem test_witness_DefaultTableIsBlankOutsideDigitsAndLetters :
    ∀ c ∈ ([0x2F, 0x3A, 0x40, 0x5B, 0x60, 0x7B] : List Byte),
      ¬ ((0x30 ≤ c.toNat ∧ c.toNat ≤ 0x39) ∨ (0x41 ≤ c.toNat ∧ c.toNat ≤ 0x5A) ∨ (0x61 ≤ c.toNat ∧ c.toNat ≤ 0x7A)) := by
  decide

theorem test_witness_EncodeReturnsTheDisplayWord :
    textBytes [0x31, 0x2E] = some [0x31, 0x2E] ∧ (hostBench []).srl.port.ph = .idle := by decide

theorem load_noFail (cancels : List Bool) :
    (srlBench (srlCfg true true true ref16) cancels (List.replicate 101 yes)).srl.port.noFail 101 :=
  noFail_of_draws _ _ (show ∀ k < 101, (List.replicate 101 yes)[k]? = some yes ∨
    (List.replicate 101 yes)[k]? = some (.ok .high) by decide +kernel)

/-- Also of SerialBitsAreLeastSignificantFirst, RawdispCounts and the second part of RequestedTimes. -/
theorem test_witness_RawdispShiftsTheWord :
    (srlBench (srlCfg true true true ref16) [] (List.replicate 101 yes)).srl.port.ph = .idle ∧
      (srlBench (srlCfg true true true ref16) [] (List.replicate 101 yes)).srl.port.noFail 98 :=
  ⟨rfl, fun k hk => load_noFail [] k (by omega)⟩

/-- The first and the last call fail. -/
theorem test_witness_PinFaultCutsTheSerialLoad :
    (srlBench (srlCfg false false false ref16) [] [.fail]).srl.port.ph = .idle ∧
      (srlBench (srlCfg false false false ref16) [] [.fail]).srl.port.failsAt 0 ∧
      (srlBench (srlCfg false false false ref16) [] (List.replicate 97 yes ++ [.fail])).srl.port.failsAt 97 :=
  ⟨rfl, ⟨fun k hk => absurd hk (by omega), rfl⟩, noFail_of_draws _ _ (by decide +kernel), rfl⟩

theorem test_witness_DisplaySendsTheEncodedWord :
    textBytes [0x31, 0x2E] = some [0x31, 0x2E] ∧
      (srlBench (srlCfg true true true ref16) [] (List.replicate 101 yes)).srl.port.ph = .idle ∧
      (srlBench (srlCfg true true true ref16) [] (List.replicate 101 yes)).srl.port.noFail 98 :=
  ⟨rfl, rfl, fun k hk => load_noFail [] k (by omega)⟩

theorem test_witness_ClrallBlanksThenClearsTheIndicators :
    (srlBench (srlCfg true true true ref16) [] (List.replicate 101 yes)).srl.port.ph = .idle ∧
      101 = 98 + (srlCfg true true true ref16).hasCur.toNat + (srlCfg true true true ref16).hasCol.toNat +
        (srlCfg true true true ref16).hasDeg.toNat ∧
      (srlBench (srlCfg true true true ref16) [] (List.replicate 101 yes)).srl.port.noFail 101 :=
  ⟨rfl, rfl, load_noFail []⟩

/-- CANCEL raised at entry, and found raised at the first check. -/
theorem test_witness_DemoEndsAtTheFirstCheckThatFindsCancel :
    (srlBench (srlCfg true true true ref16) [true] (List.replicate 101 yes)).srl.cfg.hasDemo = true ∧
      (srlBench (srlCfg true true true ref16) [true] (List.replicate 101 yes)).srl.port.ph = .idle ∧
      (srlBench (srlCfg true true true ref16) [true] (List.replicate 101 yes)).srl.port.noFail 98 ∧
      (srlBench (srlCfg true true true ref16) [true] (List.replicate 101 yes)).srl.nextCancel = true :=
  ⟨rfl, rfl, fun k hk => load_noFail [true] k (by omega), rfl⟩

theorem test_witness_DemoStartsAtWindowZero :
    (srlBench (srlCfg true true true ref16) [false] (List.replicate 101 yes)).srl.cfg.hasDemo = true ∧
      (srlBench (srlCfg true true true ref16) [false] (List.replicate 101 yes)).srl.port.ph = .idle ∧
      (srlBench (srlCfg true true true ref16) [false] (List.replicate 101 yes)).srl.port.noFail 98 ∧
      (srlBench (srlCfg true true true ref16) [false] (List.replicate 101 yes)).srl.nextCancel = false :=
  ⟨rfl, rfl, fun k hk => load_noFail [false] k (by omega), rfl⟩

/-- Both outcomes of the check, at the last window. -/
theorem test_witness_DemoLoopTurn :
    (demoBench 15 [true] (List.replicate 98 yes)).nextAgent = .srl ∧
      (demoBench 15 [true] (List.replicate 98 yes)).srl.port.ph = .busy (.demo false) .tickLoop ∧
      (demoBench 15 [true] (List.replicate 98 yes)).srl.port.noFail 98 ∧
      (demoBench 15 [true] []).srl.nextCancel = true ∧ (demoBench 15 [false] []).srl.nextCancel = false ∧
      (demoBench 15 [false] []).srl.cancel = false :=
  ⟨rfl, rfl, noFail_of_draws _ _ (by decide +kernel), rfl, rfl, rfl⟩

theorem test_witness_DemoAbsentIsRefused :
    (srlBench ⟨false, false, false, false, [], none⟩ [] []).srl.cfg.hasDemo = false := rfl

theorem test_witness_RequestedTimes :
    ((pbeBench none quiet).pbe.port.transaction (.cmd 0x00)).isSome = true ∧
      ((pbeBench none quiet).pbe.port.transaction .rddata).isSome = true ∧ (pbeBench none quiet).pbe.port.ph = .idle ∧
      (pbeBench none quiet).pbe.port.noFail 20 := ⟨rfl, rfl, rfl, quiet_noFail none⟩

end Sys2Proof.Tests
end

section
/-! Proofs of the statements about the scope of the block (spec/00_scope.md): what reset leaves (R34), that an operation touches
its own engine and never the configuration (R17 to R19, R115), the windows of DEMO (R164), and the times that completed
operations request (R124, R230). -/

namespace Sys2Proof.Machine

/-! ### Frames: the engine an operation runs on, and its configuration -/

/-- The operations the host cannot request are the three internal ones (R85, R193). -/
theorem Instr.internal_of_not_requestable {i : Instr} (h : i.requestable = false) :
    (∃ b, i = .rawwr b) ∨ i = .rawrd ∨ ∃ c, i = .lookup c := by
  cases i with
  | rawwr b => exact .inl ⟨b, rfl⟩
  | rawrd => exact .inr (.inl rfl)
  | lookup c => exact .inr (.inr ⟨c, rfl⟩)
  | _ => cases h

/-- Every operation of PBE, the internal raw cycles too, changes PBE alone and keeps its configuration (R17, R18). -/
theorem exec_pbe_frame {i : Instr} {s t : State} (he : i.engine = .pbe) (h : exec i s = .next t) :
    t = { s with pbe := t.pbe } ∧ t.pbe.cfg = s.pbe.cfg := by
  cases hr : i.requestable with
  | true =>
    obtain ⟨-, hframe, hcfg, -⟩ := exec_pbe hr he h
    exact ⟨hframe, hcfg⟩
  | false =>
    obtain ⟨b, rfl⟩ | rfl | ⟨c, rfl⟩ := Instr.internal_of_not_requestable hr
    · cases h; exact ⟨rfl, by simp⟩
    · cases h; exact ⟨rfl, by simp⟩
    · cases he

/-- Every operation of SRL, the internal lookup too, changes SRL alone and keeps its configuration (R17, R18). -/
theorem exec_srl_frame {i : Instr} {s t : State} (he : i.engine = .srl) (h : exec i s = .next t) :
    t = { s with srl := t.srl } ∧ t.srl.cfg = s.srl.cfg := by
  cases hr : i.requestable with
  | true =>
    obtain ⟨-, hframe, hcfg, -⟩ := exec_srl hr he h
    exact ⟨hframe, hcfg⟩
  | false =>
    obtain ⟨b, rfl⟩ | rfl | ⟨c, rfl⟩ := Instr.internal_of_not_requestable hr
    · cases he
    · cases he
    · cases h; exact ⟨rfl, rfl⟩

/-- No operation changes either configuration (R17, R31). -/
theorem exec_cfg {i : Instr} {s t : State} (h : exec i s = .next t) : t.pbe.cfg = s.pbe.cfg ∧ t.srl.cfg = s.srl.cfg := by
  cases he : i.engine with
  | pbe =>
    obtain ⟨hframe, hcfg⟩ := exec_pbe_frame he h
    exact ⟨hcfg, by rw [hframe]⟩
  | srl =>
    obtain ⟨hframe, hcfg⟩ := exec_srl_frame he h
    exact ⟨by rw [hframe], hcfg⟩

/-- No step changes either configuration (R17, R31). -/
theorem step_cfg {s t : State} (h : step s = .next t) : t.pbe.cfg = s.pbe.cfg ∧ t.srl.cfg = s.srl.cfg := by
  obtain ⟨hpbe, -, hsrl, -⟩ := step_moved h
  exact ⟨hpbe, hsrl⟩

/-- Settles O12: a step and an operation keep both configurations, and a pattern is read from SRL's. -/
theorem configurationNeverChanges : Obligations.ConfigurationNeverChanges := by
  intro s t h
  have hcfg : t.pbe.cfg = s.pbe.cfg ∧ t.srl.cfg = s.srl.cfg := by
    obtain h | ⟨i, h⟩ := h
    · exact step_cfg h
    · exact exec_cfg h
  exact ⟨hcfg.1, hcfg.2, fun c => by rw [hcfg.2]⟩

/-- Settles O13: the frame of the operations of each engine. -/
theorem operationsTouchTheirEngineOnly : Obligations.OperationsTouchTheirEngineOnly :=
  fun _ _ _ h => ⟨fun he => (exec_pbe_frame he h).1, fun he => (exec_srl_frame he h).1⟩

/-! ### Requested times and pin calls of a trace -/

@[simp] theorem requestedNs_nil : requestedNs [] = 0 := rfl
@[simp] theorem requestedNs_cons (ev : Event) (tr : List Event) : requestedNs (ev :: tr) = ev.ns + requestedNs tr := by
  simp [requestedNs]
@[simp] theorem requestedNs_append (a b : List Event) : requestedNs (a ++ b) = requestedNs a + requestedNs b := by
  simp [requestedNs]

@[simp] theorem pinCalls_nil : pinCalls [] = 0 := rfl
@[simp] theorem pinCalls_cons (ev : Event) (tr : List Event) :
    pinCalls (ev :: tr) = pinCalls tr + if ev.isPinCall then 1 else 0 := List.countP_cons
@[simp] theorem pinCalls_append (a b : List Event) : pinCalls (a ++ b) = pinCalls a + pinCalls b := List.countP_append

/-- A vector step requests no time (R104, R106). -/
theorem requestedNs_map_zero {α : Type} (f : α → Event) (hf : ∀ i, (f i).ns = 0) (l : List α) :
    requestedNs (l.map f) = 0 := by
  induction l with
  | nil => rfl
  | cons i l ih => simp [hf, ih]

/-- A vector step makes one pin call for each of its pins (R106). -/
theorem pinCalls_map_call {α : Type} (f : α → Event) (hf : ∀ i, (f i).isPinCall = true) (l : List α) :
    pinCalls (l.map f) = l.length := by
  induction l with
  | nil => rfl
  | cons i l ih => simp [hf, ih]

/-- A write transaction requests T_AS, T_DS and T_END: 1000 ns (R124). -/
theorem requestedNs_writeGroup (o1 o6 : List (Fin 8)) (rs : Level) (b : Byte) :
    requestedNs (writeGroup o1 o6 rs b) = 1000 := by
  simp only [writeGroup, requestedNs_append]
  rw [requestedNs_map_zero _ (fun _ => rfl), requestedNs_map_zero _ (fun _ => rfl)]
  rfl

/-- A read transaction requests the same (R124). -/
theorem requestedNs_readGroup (o1 o6 : List (Fin 8)) (rs : Level) (v : Fin 8 → Level) :
    requestedNs (readGroup o1 o6 rs v) = 1000 := by
  simp only [readGroup, requestedNs_append]
  rw [requestedNs_map_zero _ (fun _ => rfl), requestedNs_map_zero _ (fun _ => rfl)]
  rfl

/-- A write transaction calls RS, RW and E twice, and the data pins in its two vector steps (R120, R122). -/
theorem pinCalls_writeGroup (o1 o6 : List (Fin 8)) (rs : Level) (b : Byte) :
    pinCalls (writeGroup o1 o6 rs b) = o1.length + o6.length + 4 := by
  simp only [writeGroup, pinCalls_append]
  rw [pinCalls_map_call _ (fun _ => rfl), pinCalls_map_call _ (fun _ => rfl)]
  simp [outEv, Event.isPinCall]
  omega

/-- A read transaction makes as many (R121, R122). -/
theorem pinCalls_readGroup (o1 o6 : List (Fin 8)) (rs : Level) (v : Fin 8 → Level) :
    pinCalls (readGroup o1 o6 rs v) = o1.length + o6.length + 4 := by
  simp only [readGroup, pinCalls_append]
  rw [pinCalls_map_call _ (fun _ => rfl), pinCalls_map_call _ (fun _ => rfl)]
  simp [outEv, Event.isPinCall]
  omega

/-- The bit loop requests 2 T_SR for each bit (R160). -/
theorem requestedNs_flatMap_bitGroup {α : Type} (f : α → Bool) (l : List α) :
    requestedNs (l.flatMap (fun k => bitGroup (f k))) = 2000 * l.length := by
  induction l with
  | nil => rfl
  | cons k l ih =>
    have hbit : requestedNs (bitGroup (f k)) = 2000 := rfl
    rw [List.flatMap_cons, requestedNs_append, ih, hbit, List.length_cons]
    omega

/-- A RAWDISP requests 2 T_SR for each of its 32 bits and for the latch pulse: 66000 ns (R165). -/
theorem requestedNs_serialGroup (w : Word) : requestedNs (serialGroup w) = 66000 := by
  rw [serialGroup, requestedNs_append, requestedNs_flatMap_bitGroup, List.length_range]
  rfl

/-- The transaction of an operation requests 1000 ns in 20 pin calls: RS, RW, E twice, and eight data pins twice (R124, R230). -/
theorem Port.transaction_times {P : Port} {i : Instr} {body : List Event} (h : P.transaction i = some body) :
    requestedNs body = 1000 ∧ pinCalls body = 20 := by
  unfold Port.transaction at h
  split at h
  · cases h; exact ⟨requestedNs_writeGroup .., by simp [pinCalls_writeGroup]⟩
  · cases h; exact ⟨requestedNs_readGroup .., by simp [pinCalls_readGroup]⟩
  · cases h

/-! ### The traces of completed operations -/

/-- An operation that ends after the calls of its body appends its two markers around their events (R35). -/
theorem Port.finish_trace {P Q : Port} {i : Instr} {body : List Event} (hph : Q.ph = (P.beginOp i).ph)
    (htr : Q.trace = (P.beginOp i).trace ++ body) (r : OpResult) :
    (Q.finish r).trace = P.trace ++ ([.beginOp i] ++ body ++ [.endOp i .ok r]) := by
  rw [Port.finish_busy Q (hph.trans (P.beginOp_ph i)), htr]
  simp

/-- A one-transaction operation in which no pin call fails appends its markers and its transaction's events (R133 to R142, R130,
R132). -/
theorem exec_transaction_trace {i : Instr} {body : List Event} {s : State} (ht : s.pbe.port.transaction i = some body)
    (hi : s.pbe.port.ph = .idle) (hn : s.pbe.port.noFail 20) :
    ∃ t r, exec i s = .next t ∧ t.pbe.port.trace = s.pbe.port.trace ++ ([.beginOp i] ++ body ++ [.endOp i .ok r]) := by
  unfold Port.transaction at ht
  split at ht
  · next rs b hw =>
    cases ht
    refine ⟨_, .none, (exec_busWrite hw s).trans (pbeRequest_idle hi ..), ?_⟩
    rw [Pbe.writeSteps_noFail (s.pbe.begun i) rs b hn]
    exact Port.finish_trace (Port.wrote_ph ..) (Port.wrote_trace ..) _
  · next rs _ hr =>
    cases ht
    refine ⟨_, .byte ((s.pbe.begun i).port.didRead rs).sample, (exec_busRead hr s).trans (pbeRequest_idle hi ..), ?_⟩
    rw [Pbe.readSteps_noFail (s.pbe.begun i) rs hn]
    exact Port.finish_trace (Port.didRead_ph ..) (Port.didRead_trace ..) _
  · cases ht

/-- RAWDISP in which no pin call fails appends its markers and S(w) (R160). -/
theorem exec_rawdisp_trace {w : Word} {s : State} (hi : s.srl.port.ph = .idle) (hn : s.srl.port.noFail 98) :
    ∃ t, exec (.rawdisp w) s = .next t ∧
      t.srl.port.trace = s.srl.port.trace ++ ([.beginOp (.rawdisp w)] ++ serialGroup w ++ [.endOp (.rawdisp w) .ok .none]) := by
  refine ⟨_, (exec_rawdisp w s).trans (srlRequest_idle hi ..), ?_⟩
  rw [Srl.rawdispSteps_noFail (s.srl.begun (.rawdisp w)) w hn]
  exact Port.finish_trace (Port.ran_ph ..) (Port.serial_trace ..) _

/-- Settles O50: the markers request nothing and are no pin calls, so the times are those of the events between them. -/
theorem requestedTimes : Obligations.RequestedTimes := by
  refine ⟨fun i body s ht hi hn => ?_, fun w s hi hn => ?_⟩
  · obtain ⟨t, r, hexec, htrace⟩ := exec_transaction_trace ht hi hn
    obtain ⟨hns, hcalls⟩ := Port.transaction_times ht
    exact ⟨t, _, hexec, htrace, by simp [hns, Event.ns], by simp [hcalls, Event.isPinCall]⟩
  · obtain ⟨t, hexec, htrace⟩ := exec_rawdisp_trace hi hn
    exact ⟨t, _, hexec, htrace, by simp [requestedNs_serialGroup, Event.ns]⟩

/-! ### Reset -/

/-- Records made alike for a list of pins: the pins of the list have that record and no other pin has one. -/
theorem recOf_map_const (pins : List Pin) (r : PinRec) (p : Pin) :
    recOf (pins.map (fun q => (q, r))) p = if p ∈ pins then some r else none := by
  induction pins with
  | nil => rfl
  | cons q pins ih =>
    by_cases hq : q = p
    · simp [recOf, hq]
    · simp [recOf, hq, Ne.symm hq, ih]

/-- Construction gives exactly the pins it is told of a record, the unknown one (R34). -/
theorem Port.pin_fresh (owner : Engine) (errPin : Pin) (pins : List Pin) (p : Pin) :
    (Port.fresh owner errPin pins).pin p = if p ∈ pins then some PinRec.fresh else none :=
  recOf_map_const pins PinRec.fresh p

/-- The eleven pins of PBE are the pins it owns (R18, R20). -/
theorem mem_pbePins (p : Pin) : p ∈ pbePins ↔ p.engine = .pbe := by
  cases p with
  | db i => revert i; decide
  | _ => decide

/-- Settles O8: construction makes both ports fresh, with PBE's eleven pins and SRL's present ones. -/
theorem resetState : Obligations.ResetState := by
  refine ⟨fun E => ?_, fun p => ?_, fun p hp => ?_, fun p hp => ?_, rfl⟩
  · cases E <;> exact ⟨rfl, rfl, rfl⟩
  · exact (Port.pin_fresh _ _ pbePins p).trans (if_congr (mem_pbePins p) rfl rfl)
  · exact (Port.pin_fresh ..).trans (if_pos hp)
  · exact (Port.pin_fresh ..).trans (if_neg hp)

/-! ### The windows of DEMO -/

/-- The hexadecimal digits "0123456789ABCDEF", which DEMO's windows rotate (R164). -/
def hexDigits : List Byte :=
  [0x30, 0x31, 0x32, 0x33, 0x34, 0x35, 0x36, 0x37, 0x38, 0x39, 0x41, 0x42, 0x43, 0x44, 0x45, 0x46]

/-- DEMO_SEQ is the hexadecimal digits going round, three characters beyond the last (R8). -/
theorem demoSeq_getElem? : ∀ n < 19, Config.demoSeq[n]? = hexDigits[n % 16]? := by decide

theorem length_demoWindow (k : Fin 16) : (demoWindow k).length = 4 := by
  have hseq : Config.demoSeq.length = 19 := rfl
  rw [demoWindow, List.length_take, List.length_drop, hseq, Config.demoWin]
  omega

/-- A window's characters are those of DEMO_SEQ from its index on (R164). -/
theorem demoWindow_getElem? (k : Fin 16) (j : Fin 4) : (demoWindow k)[j.val]? = Config.demoSeq[k.val + j.val]? := by
  have hj : j.val < Config.demoWin := j.isLt
  rw [demoWindow, List.getElem?_take_of_lt hj, List.getElem?_drop]

/-- Settles O45: a window is four characters of DEMO_SEQ, and DEMO_SEQ goes round the digits as far as the last window needs. -/
theorem demoWindowsAreTheSixteenRotations : Obligations.DemoWindowsAreTheSixteenRotations :=
  fun k => ⟨length_demoWindow k, fun j => (demoWindow_getElem? k j).trans (demoSeq_getElem? _ (by omega))⟩

end Sys2Proof.Machine
end

section
/-! The lines of pseudocode do not depend on where PH stands (R28): an engine with another PH executes the same line the same
way. `Lined.LeadsTo` says that one outcome of a line leads to another by further lines; with it the whole calls and the loop
turns of the engines are lines one after another (R87). -/

namespace Sys2Proof.Machine

/-! ### PH is not read by calls -/

/-- A port with another PH. -/
def Port.withPh (ph : Phase) (P : Port) : Port := { P with ph := ph }

/-- PBE with another PH. -/
def Pbe.withPh (ph : Phase) (e : Pbe) : Pbe := { e with port := e.port.withPh ph }

/-- SRL with another PH. -/
def Srl.withPh (ph : Phase) (e : Srl) : Srl := { e with port := e.port.withPh ph }

/-- A line's outcome seen through a change of its engine. -/
def Lined.map {α : Type} (f : α → α) : Lined α → Lined α
  | .at_ a x => .at_ a (f x)
  | .ret r x => .ret r (f x)
  | .raise c x => .raise c (f x)

theorem Ran.map_andThen {α : Type} (g : α → α) (f : α → Ran α) (hf : ∀ x, f (g x) = (f x).map g) (r : Ran α) :
    (r.map g).andThen f = (r.andThen f).map g := by
  cases r with
  | done x => exact hf x
  | failed x p => rfl

theorem Ran.map_goto {α : Type} (g : α → α) (f : α → Lined α) (hf : ∀ x, f (g x) = (f x).map g) (r : Ran α) :
    (r.map g).goto f = (r.goto f).map g := by
  cases r with
  | done x => exact hf x
  | failed x p => rfl

variable (ph : Phase)

theorem Port.withPh_applied (P : Port) (c : Call) : (P.withPh ph).applied c = (P.applied c).withPh ph := by
  cases c with
  | read p => cases p <;> rfl
  | _ => rfl

theorem Port.withPh_call (P : Port) (c : Call) : (P.withPh ph).call c = (P.call c).map (Port.withPh ph) := by
  unfold Port.call
  split
  · rw [Port.withPh_applied]; rfl
  · rw [show (P.withPh ph).peek 0 = P.peek 0 from rfl]
    split
    · rw [Port.withPh_applied]; rfl
    · rfl

theorem Port.withPh_run (P : Port) (cs : List Call) : (P.withPh ph).run cs = (P.run cs).map (Port.withPh ph) := by
  induction cs generalizing P with
  | nil => rfl
  | cons c cs ih => rw [Port.run, Port.withPh_call, Ran.map_andThen _ _ ih]; rfl

/-! ### PBE's lines -/

theorem Pbe.withPh_run (e : Pbe) (cs : List Call) : (e.withPh ph).run cs = (e.run cs).map (Pbe.withPh ph) := by
  have h : (e.withPh ph).port.run cs = (e.port.run cs).map (Port.withPh ph) := Port.withPh_run ph e.port cs
  rw [Pbe.run, h, Pbe.run]
  cases e.port.run cs <;> rfl

theorem Pbe.withPh_vector (e : Pbe) (f : List (Fin 8) → List Call) :
    (e.withPh ph).vector f = (e.vector f).map (Pbe.withPh ph) :=
  Pbe.withPh_run ph { e with port := e.port.orderTaken } _

theorem Pbe.withPh_cycleLine (t : Transfer) (c : CyStep) (e : Pbe) :
    (e.withPh ph).cycleLine t c = (e.cycleLine t c).map (Pbe.withPh ph) := by
  cases c with
  | wdr => cases t <;> rfl
  | one => cases t <;> exact Pbe.withPh_vector ph e _
  | two => cases t <;> exact Pbe.withPh_run ph e _
  | six =>
    cases t with
    | write l b => exact Pbe.withPh_vector ph e _
    | read l =>
      show Pbe.sampleStep _ = Ran.map _ (Pbe.sampleStep e)
      rw [Pbe.sampleStep, Pbe.withPh_vector, Ran.map_andThen _ _ (fun _ => rfl)]
      rfl
  | _ => exact Pbe.withPh_run ph e _

theorem Pbe.withPh_transferLine (t : Transfer) (pos : CyStep → PhStep) (last : Pbe → Lined Pbe)
    (hl : ∀ x, last (x.withPh ph) = (last x).map (Pbe.withPh ph)) (c : CyStep) (e : Pbe) :
    (e.withPh ph).transferLine t pos last c = (e.transferLine t pos last c).map (Pbe.withPh ph) := by
  rw [Pbe.transferLine, Pbe.withPh_cycleLine, Ran.map_goto, Pbe.transferLine]
  intro x
  cases t.next c with
  | none => exact hl x
  | some d => rfl

theorem Pbe.withPh_waited (i : Instr) (e : Pbe) : (e.withPh ph).waited i = (e.waited i).map (Pbe.withPh ph) := by
  cases i <;> rfl

/-- PBE's lines do not read PH. -/
theorem Pbe.withPh_line (i : Instr) (a : PhStep) (e : Pbe) :
    (e.withPh ph).line i a = (e.line i a).map (Pbe.withPh ph) := by
  have htxt : (e.withPh ph).txt = e.txt := rfl
  have hready : (e.withPh ph).ready = e.ready := rfl
  have hlimit : (e.withPh ph).limitReached = e.limitReached := rfl
  cases a <;> simp only [Pbe.line, htxt, hready, hlimit]
  case cycle c =>
    split
    · next t _ => exact Pbe.withPh_transferLine ph _ _ _ (fun x => by cases t <;> rfl) c e
    · rfl
  case nextChar => split <;> rfl
  case firstPoll c => exact Pbe.withPh_transferLine ph _ _ _ (fun _ => rfl) c e
  case firstTest =>
    split
    · exact Pbe.withPh_waited ph i e
    · rfl
  case pollLoop => rw [Pbe.withPh_run, Ran.map_goto _ _ (fun _ => rfl)]
  case poll c => exact Pbe.withPh_transferLine ph _ _ _ (fun _ => rfl) c e
  case test =>
    split
    · exact Pbe.withPh_waited ph i e
    · rfl
  case bound => split <;> rfl
  case char c =>
    split
    · exact Pbe.withPh_transferLine ph _ _ _ (fun _ => rfl) c e
    · rfl
  all_goals rfl

/-! ### SRL's lines -/

theorem Srl.withPh_run (e : Srl) (cs : List Call) : (e.withPh ph).run cs = (e.run cs).map (Srl.withPh ph) := by
  have h : (e.withPh ph).port.run cs = (e.port.run cs).map (Port.withPh ph) := Port.withPh_run ph e.port cs
  rw [Srl.run, h, Srl.run]
  cases e.port.run cs <;> rfl

/-- Calls first, then a line that does not read PH. -/
theorem Srl.withPh_run_goto (e : Srl) (cs : List Call) (f : Srl → Lined Srl)
    (hf : ∀ x, f (x.withPh ph) = (f x).map (Srl.withPh ph)) :
    ((e.withPh ph).run cs).goto f = ((e.run cs).goto f).map (Srl.withPh ph) := by
  rw [Srl.withPh_run, Ran.map_goto _ _ hf]

theorem Srl.withPh_loaded (i : Instr) (e : Srl) : (e.withPh ph).loaded i = (e.loaded i).map (Srl.withPh ph) := by
  cases i <;> rfl

/-- SRL's lines do not read PH. -/
theorem Srl.withPh_line (i : Instr) (a : PhStep) (e : Srl) :
    (e.withPh ph).line i a = (e.line i a).map (Srl.withPh ph) := by
  cases a
  case nextChar =>
    simp only [Srl.line, show (e.withPh ph).txt = e.txt from rfl]
    split <;> rfl
  case isDot =>
    simp only [Srl.line, show (e.withPh ph).thisChar = e.thisChar from rfl]
    split <;> rfl
  case isDpf =>
    simp only [Srl.line, show (e.withPh ph).dpf = e.dpf from rfl]
    split <;> rfl
  case bitLoop =>
    simp only [Srl.line, show (e.withPh ph).bitcnt = e.bitcnt from rfl]
    split <;> rfl
  case checkCancel =>
    simp only [Srl.line, show (e.withPh ph).sampleCancel.cancel = e.sampleCancel.cancel from rfl]
    split <;> rfl
  case result => cases i <;> rfl
  case load => cases i <;> rfl
  case latchLowDelay => simp only [Srl.line]; exact Srl.withPh_run_goto ph e _ _ (Srl.withPh_loaded ph i)
  case din | clkHigh | clkHighDelay | clkLow | clkLowDelay | latchHigh | latchHighDelay | latchLow | cur | col | deg | tick =>
    simp only [Srl.line]; exact Srl.withPh_run_goto ph e _ _ (fun _ => rfl)
  all_goals rfl

/-! ### One line after another -/

/-- An outcome of a line leads to another by further lines: what `after` makes of the first becomes, by executing lines, what it
makes of the second. -/
def Lined.LeadsTo {α : Type} (line : α → α) (after : Lined α → α) (l m : Lined α) : Prop :=
  Relation.ReflTransGen (fun x y => line x = y) (after l) (after m)

/-- What follows completed calls may be led on; a failed call raises its exception either way. -/
theorem Lined.LeadsTo.goto {α : Type} {line : α → α} {after : Lined α → α} {r : Ran α} {f g : α → Lined α}
    (h : ∀ x, r = .done x → Lined.LeadsTo line after (f x) (g x)) : Lined.LeadsTo line after (r.goto f) (r.goto g) := by
  cases r with
  | done x => exact h x rfl
  | failed x p => exact .refl

theorem Lined.LeadsTo.trans {α : Type} {line : α → α} {after : Lined α → α} {l m n : Lined α}
    (h : Lined.LeadsTo line after l m) (k : Lined.LeadsTo line after m n) : Lined.LeadsTo line after l n :=
  Relation.ReflTransGen.trans h k

/-- Lines of PBE one after another. -/
abbrev Pbe.LeadsTo : Lined Pbe → Lined Pbe → Prop := Lined.LeadsTo Pbe.lineOn Pbe.afterLine

/-- Lines of SRL one after another. -/
abbrev Srl.LeadsTo : Lined Srl → Lined Srl → Prop := Lined.LeadsTo Srl.lineOn Srl.afterLine

theorem Port.stayAt_withPh {P : Port} {i : Instr} {a : PhStep} (h : P.ph = .busy i a) (b : PhStep) :
    P.stayAt b = P.withPh (.busy i b) := by rw [Port.stayAt_busy P h]; rfl

/-- An engine in an operation that is sent to a line of it (R28). -/
theorem Pbe.afterLine_at_busy {x : Pbe} {i : Instr} {a : PhStep} (h : x.port.ph = .busy i a) (b : PhStep) :
    Pbe.afterLine (.at_ b x) = x.withPh (.busy i b) := by
  show ({ x with port := x.port.stayAt b } : Pbe) = _
  rw [Port.stayAt_withPh h]; rfl

theorem Srl.afterLine_at_busy {x : Srl} {i : Instr} {a : PhStep} (h : x.port.ph = .busy i a) (b : PhStep) :
    Srl.afterLine (.at_ b x) = x.withPh (.busy i b) := by
  show ({ x with port := x.port.stayAt b } : Srl) = _
  rw [Port.stayAt_withPh h]; rfl

/-- Where PH stands in its operation makes no difference to how a line ends. -/
theorem Pbe.afterLine_withPh {i : Instr} {a : PhStep} {l : Lined Pbe} (h : l.val.port.ph = .busy i a) (b : PhStep) :
    Pbe.afterLine (l.map (Pbe.withPh (.busy i b))) = Pbe.afterLine l := by
  cases l with
  | at_ c x =>
    simp only [Lined.map, Pbe.afterLine, Pbe.withPh, Port.stayAt_withPh (P := x.port) h c]
    rfl
  | ret r x => simp only [Lined.map, Pbe.afterLine, Pbe.withPh, Port.finish_busy x.port h]; rfl
  | raise c x =>
    cases c <;> simp only [Lined.map, Pbe.afterLine, Pbe.takeTimeout, Pbe.withPh, Port.raise_busy x.port h] <;> rfl

theorem Srl.afterLine_withPh {i : Instr} {a : PhStep} {l : Lined Srl} (h : l.val.port.ph = .busy i a) (b : PhStep) :
    Srl.afterLine (l.map (Srl.withPh (.busy i b))) = Srl.afterLine l := by
  cases l with
  | at_ c x =>
    simp only [Lined.map, Srl.afterLine, Srl.withPh, Port.stayAt_withPh (P := x.port) h c]
    rfl
  | ret r x => simp only [Lined.map, Srl.afterLine, Srl.withPh, Port.finish_busy x.port h]; rfl
  | raise c x => simp only [Lined.map, Srl.afterLine, Srl.withPh, Port.raise_busy x.port h]; rfl

/-- A line leaves PH to what comes after it. -/
theorem Lined.Follows.ph_eq {α : Type} {ok : Call → Prop} {port : α → Port} {P : Port} {l : Lined α}
    (h : l.Follows ok port P) : (port l.val).ph = P.ph := by
  cases l with
  | at_ a x => exact Port.Reach.ph h
  | ret r x => exact Port.Reach.ph h
  | raise c x =>
    cases c with
    | protocolTimeout => exact Port.Reach.ph h
    | pinFault p =>
      obtain ⟨Q, c, hq, -, -, he⟩ := h
      exact (congrArg Port.ph he).trans hq.ph

/-- An engine in operation `i` sent to line `a` executes it. -/
theorem Pbe.leadsTo_line {e : Pbe} {i : Instr} {a₀ : PhStep} (h : e.port.ph = .busy i a₀) (a : PhStep) :
    Pbe.LeadsTo (.at_ a e) (e.line i a) := by
  refine .single ?_
  rw [Pbe.afterLine_at_busy h, Pbe.lineOn_busy rfl, Pbe.withPh_line]
  exact Pbe.afterLine_withPh ((Pbe.line_follows i a e).ph_eq.trans h) a

theorem Srl.leadsTo_line {e : Srl} {i : Instr} {a₀ : PhStep} (h : e.port.ph = .busy i a₀) (a : PhStep) :
    Srl.LeadsTo (.at_ a e) (e.line i a) := by
  refine .single ?_
  rw [Srl.afterLine_at_busy h, Srl.lineOn_busy rfl, Srl.withPh_line]
  exact Srl.afterLine_withPh ((Srl.line_follows i a e).ph_eq.trans h) a

/-- Lines one after another are some number of lines. -/
theorem Pbe.linesOn_of_leads {e x : Pbe} (h : Relation.ReflTransGen (fun x y => Pbe.lineOn x = y) e x) :
    ∃ n, x = e.linesOn n := by
  induction h using Relation.ReflTransGen.head_induction_on with
  | refl => exact ⟨0, rfl⟩
  | head hstep _ ih =>
    obtain ⟨n, hn⟩ := ih
    exact ⟨n + 1, by rw [hn, ← hstep]; rfl⟩

theorem Srl.linesOn_of_leads {e x : Srl} (h : Relation.ReflTransGen (fun x y => Srl.lineOn x = y) e x) :
    ∃ n, x = e.linesOn n := by
  induction h using Relation.ReflTransGen.head_induction_on with
  | refl => exact ⟨0, rfl⟩
  | head hstep _ ih =>
    obtain ⟨n, hn⟩ := ih
    exact ⟨n + 1, by rw [hn, ← hstep]; rfl⟩

end Sys2Proof.Machine
end

section
/-! PBE's whole calls and loop turns are its lines one after another (R28, R87, R131, R143). -/

namespace Sys2Proof.Machine

/-! ### A transaction -/

/-- Completed lines of a transaction leave everything but WDR, RDR and the port, and PH stays. -/
theorem Pbe.cycleLines_frame {t : Transfer} {cs : List CyStep} {e x : Pbe} (h : Pbe.cycleLines t cs e = .done x) :
    x = { e with wdr := x.wdr, rdr := x.rdr, port := x.port } ∧ x.port.ph = e.port.ph := by
  induction cs generalizing e with
  | nil => cases h; exact ⟨rfl, rfl⟩
  | cons c cs ih =>
    rw [Pbe.cycleLines] at h
    cases hc : e.cycleLine t c with
    | failed y p => rw [hc] at h; cases h
    | done y =>
      rw [hc] at h
      obtain ⟨hy, hyp⟩ := Pbe.cycleLine_frame hc
      obtain ⟨hx, hxp⟩ := ih h
      exact ⟨by rw [hx, hy], hxp.trans hyp⟩

/-- The lines of a transaction follow one another up to its last (R120 to R122). -/
def Transfer.Chain (t : Transfer) : List CyStep → Prop
  | [] => False
  | [c] => t.next c = none
  | c :: d :: cs => t.next c = some d ∧ t.Chain (d :: cs)

theorem Transfer.chain_lines (t : Transfer) : t.Chain t.lines := by
  cases t <;> simp [Transfer.lines, rawSteps, Transfer.Chain, Transfer.next]

/-- The lines of a transaction, which stand at `pos` in operation `i`, one after another: what its steps do, then `last`. -/
theorem Pbe.leadsTo_cycleLines {t : Transfer} {pos : CyStep → PhStep} {last : Pbe → Lined Pbe} {i : Instr} {a₀ : PhStep}
    {txt : Txt} (hline : ∀ x : Pbe, x.txt = txt → ∀ c, x.line i (pos c) = x.transferLine t pos last c)
    {c : CyStep} {cs : List CyStep} (hc : t.Chain (c :: cs)) {e : Pbe} (htxt : e.txt = txt) (hph : e.port.ph = .busy i a₀) :
    Pbe.LeadsTo (.at_ (pos c) e) ((Pbe.cycleLines t (c :: cs) e).goto last) := by
  induction cs generalizing c e with
  | nil =>
    have hn : t.next c = none := hc
    have hl := Pbe.leadsTo_line hph (pos c)
    simp only [hline e htxt, Pbe.transferLine, hn] at hl
    have hlines : Pbe.cycleLines t [c] e = e.cycleLine t c := Ran.andThen_done _
    rwa [hlines]
  | cons d cs ih =>
    obtain ⟨hn, hcs⟩ := hc
    have hl := Pbe.leadsTo_line hph (pos c)
    simp only [hline e htxt, Pbe.transferLine, hn] at hl
    have hlines : (Pbe.cycleLines t (c :: d :: cs) e).goto last =
        (e.cycleLine t c).goto (fun x => (Pbe.cycleLines t (d :: cs) x).goto last) := by
      rw [Pbe.cycleLines]; cases e.cycleLine t c <;> rfl
    rw [hlines]
    refine hl.trans (.goto fun x hx => ?_)
    obtain ⟨hframe, hxp⟩ := Pbe.cycleLine_frame hx
    exact ih hcs (by rw [hframe]; exact htxt) (hxp.trans hph)

/-- The lines of a whole transaction. -/
theorem Pbe.leadsTo_transfer {t : Transfer} {pos : CyStep → PhStep} {last : Pbe → Lined Pbe} {i : Instr} {a₀ : PhStep}
    {e : Pbe} (hline : ∀ x : Pbe, x.txt = e.txt → ∀ c, x.line i (pos c) = x.transferLine t pos last c)
    (hph : e.port.ph = .busy i a₀) :
    Pbe.LeadsTo (.at_ (pos .rs) e) ((Pbe.cycleLines t t.lines e).goto last) := by
  have hlines : ∃ cs, t.lines = .rs :: cs := by cases t <;> exact ⟨_, rfl⟩
  obtain ⟨cs, hcs⟩ := hlines
  have hc := t.chain_lines
  rw [hcs] at hc ⊢
  exact Pbe.leadsTo_cycleLines hline hc rfl hph

/-- RDBF-steps whose lines stand at `pos`, followed by the line `kept`, STATUS.RESULT <- RDR (R130). -/
theorem Pbe.leadsTo_readSteps {pos : CyStep → PhStep} {kept : PhStep} {next : Pbe → Lined Pbe} {l : Level} {i : Instr}
    {a₀ : PhStep} (hline : ∀ x : Pbe, ∀ c, x.line i (pos c) = x.transferLine (.read l) pos (.at_ kept) c)
    (hkept : ∀ x : Pbe, x.line i kept = next x.keepResult) {e : Pbe} (hph : e.port.ph = .busy i a₀) :
    Pbe.LeadsTo (.at_ (pos .rs) e) ((e.readSteps l).goto next) := by
  have hsteps : (e.readSteps l).goto next =
      (Pbe.cycleLines (.read l) (Transfer.lines (.read l)) e).goto (fun x => next x.keepResult) := by
    rw [Pbe.readSteps]; cases Pbe.cycleLines (.read l) (Transfer.lines (.read l)) e <;> rfl
  rw [hsteps]
  refine (Pbe.leadsTo_transfer (fun x _ => hline x) hph).trans (.goto fun x hx => ?_)
  rw [← hkept]
  exact Pbe.leadsTo_line ((Pbe.cycleLines_frame hx).2.trans hph) kept

/-! ### A wait -/

/-- Where a part of WAITRDY or PUTS has come to, as the outcome of a line; `next` follows where it has ended normally. -/
def Waited.lined (next : Pbe → Lined Pbe) : Waited → Lined Pbe
  | .ready e => next e
  | .polling e => .at_ .pollLoop e
  | .timeout e => .raise .protocolTimeout e
  | .failed e p => .raise (.pinFault p) e

theorem Pbe.settle_eq_afterLine (w : Waited) : Pbe.settle w = Pbe.afterLine (w.lined (.ret .none)) := by cases w <;> rfl

theorem Waited.lined_andThen (next : Pbe → Lined Pbe) (f : Pbe → Waited) (w : Waited) :
    (w.andThen f).lined next = w.lined (fun e => (f e).lined next) := by cases w <;> rfl

theorem Pbe.leadsTo_lined {w : Waited} {f g : Pbe → Lined Pbe} (h : ∀ x, w = .ready x → Pbe.LeadsTo (f x) (g x)) :
    Pbe.LeadsTo (w.lined f) (w.lined g) := by
  cases w with
  | ready x => exact h x rfl
  | _ => exact .refl

/-- A wait that ends normally leaves PH. -/
theorem Waited.Follows.ph_ready {P : Port} {w : Waited} {x : Pbe} (h : w.Follows P) (hw : w = .ready x) :
    x.port.ph = P.ph := by
  subst hw; exact Port.Reach.ph h

/-- A read transaction leaves PH. -/
theorem Pbe.readSteps_ph {e x : Pbe} {l : Level} (h : e.readSteps l = .done x) : x.port.ph = e.port.ph := by
  have hf := e.readSteps_follows l
  rw [h] at hf
  exact Port.Reach.ph hf

/-- WAITRDY's steps up to the head of its poll loop, alone or inside PUTS (R131). -/
theorem Pbe.leadsTo_firstPoll {e : Pbe} {i : Instr} {a₀ : PhStep} (hph : e.port.ph = .busy i a₀) :
    Pbe.LeadsTo (.at_ (.firstPoll .rs) e) (e.firstPoll.lined (Pbe.waited i)) := by
  have hpoll : e.firstPoll.lined (Pbe.waited i) = (e.readSteps .low).goto
      (fun x => if x.ready then x.waited i else .at_ .pollLoop { x with pollcnt := 0 }) := by
    rw [Pbe.firstPoll]
    cases e.readSteps .low with
    | failed x p => rfl
    | done x => dsimp only [Ran.goto]; split <;> rfl
  rw [hpoll]
  refine (Pbe.leadsTo_readSteps (kept := .firstResult) (next := .at_ .firstTest) (fun _ _ => rfl) (fun _ => rfl) hph).trans
    (.goto fun x hx => ?_)
  have hxp := (Pbe.readSteps_ph hx).trans hph
  refine (Pbe.leadsTo_line hxp .firstTest).trans ?_
  simp only [Pbe.line]
  split
  · exact .refl
  · exact Pbe.leadsTo_line hxp .clearCount

/-- One turn of the poll loop (R131). -/
theorem Pbe.leadsTo_nextPoll {e : Pbe} {i : Instr} {a₀ : PhStep} (hph : e.port.ph = .busy i a₀) :
    Pbe.LeadsTo (.at_ .pollLoop e) (e.nextPoll.lined (Pbe.waited i)) := by
  have hpoll : e.nextPoll.lined (Pbe.waited i) = (e.delayed.readSteps .low).goto
      (fun x => if x.ready then Pbe.waited i { x with pollcnt := x.pollcnt + 1 }
        else if ({ x with pollcnt := x.pollcnt + 1 } : Pbe).limitReached then
          .raise .protocolTimeout { x with pollcnt := x.pollcnt + 1 }
        else .at_ .pollLoop { x with pollcnt := x.pollcnt + 1 }) := by
    have hsteps : e.pollSteps = e.delayed.readSteps .low := rfl
    rw [Pbe.nextPoll, hsteps]
    cases e.delayed.readSteps .low with
    | failed x p => rfl
    | done x =>
      dsimp only [Ran.goto]
      rw [show ({ x with pollcnt := x.pollcnt + 1 } : Pbe).ready = x.ready from rfl]
      split
      · rfl
      · split <;> rfl
  rw [hpoll]
  have hdelay : e.delayed.port.ph = .busy i a₀ := hph
  refine (Pbe.leadsTo_line hph .pollLoop).trans (Lined.LeadsTo.trans (m := .at_ (.poll .rs) e.delayed) .refl ?_)
  refine (Pbe.leadsTo_readSteps (kept := .pollResult) (next := .at_ .count) (fun _ _ => rfl) (fun _ => rfl) hdelay).trans
    (.goto fun x hx => ?_)
  have hxp : ({ x with pollcnt := x.pollcnt + 1 } : Pbe).port.ph = .busy i a₀ := (Pbe.readSteps_ph hx).trans hdelay
  refine (Pbe.leadsTo_line (e := x) hxp .count).trans ((Pbe.leadsTo_line hxp .test).trans ?_)
  simp only [Pbe.line]
  rw [show ({ x with pollcnt := x.pollcnt + 1 } : Pbe).ready = x.ready from rfl]
  split
  · exact .refl
  · exact Pbe.leadsTo_line hxp .bound

/-! ### PUTS -/

/-- A character of PUTS, then the rest, which stands at the head of the character loop (R143). -/
theorem Pbe.leadsTo_putThen {t : List Nat} {a₀ : PhStep} {e : Pbe} {c : Byte} {rest : Pbe → Waited}
    (hph : e.port.ph = .busy (.puts t) a₀) (hc : e.txt.chars[e.txt.pos]? = some c)
    (hrest : ∀ x : Pbe, x.port.ph = .busy (.puts t) a₀ → x.txt = ⟨e.txt.chars, e.txt.pos + 1⟩ →
      Pbe.LeadsTo (.at_ .nextChar x) ((rest x).lined (.ret .none))) :
    Pbe.LeadsTo (.at_ (.char .rs) e) ((Pbe.putThen c rest e).lined (.ret .none)) := by
  have hput : (Pbe.putThen c rest e).lined (.ret .none) = (Pbe.cycleLines (.write .high c) (Transfer.lines (.write .high c)) e).goto
      (fun x => (rest x.passChar).lined (.ret .none)) := by
    rw [Pbe.putThen, Pbe.putChar, Pbe.writeSteps]
    cases Pbe.cycleLines (.write .high c) (Transfer.lines (.write .high c)) e <;> rfl
  rw [hput]
  have hline : ∀ x : Pbe, x.txt = e.txt → ∀ d, x.line (.puts t) (.char d) =
      x.transferLine (.write .high c) .char (fun y => .at_ .nextChar y.passChar) d := by
    intro x hx d
    simp only [Pbe.line, hx, hc]
  refine (Pbe.leadsTo_transfer hline hph).trans (.goto fun x hx => ?_)
  obtain ⟨hframe, hxp⟩ := Pbe.cycleLines_frame hx
  exact hrest x.passChar (hxp.trans hph) (by rw [Pbe.passChar_txt, hframe])

/-- PUTS from the head of its character loop on, with the characters `cs` still to write (R143). -/
theorem Pbe.leadsTo_putsFrom {t : List Nat} {a₀ : PhStep} {cs : List Byte} {e : Pbe} (hph : e.port.ph = .busy (.puts t) a₀)
    (hcs : e.txt.chars.drop e.txt.pos = cs) :
    Pbe.LeadsTo (.at_ .nextChar e) ((Pbe.putsFrom cs e).lined (.ret .none)) := by
  induction cs generalizing e with
  | nil =>
    have hnone : e.txt.chars[e.txt.pos]? = none := List.getElem?_eq_none (List.drop_eq_nil_iff.1 hcs)
    have hl := Pbe.leadsTo_line hph .nextChar
    simp only [Pbe.line, hnone] at hl
    exact hl
  | cons c cs ih =>
    have hsome : e.txt.chars[e.txt.pos]? = some c := by
      have := congrArg (·[0]?) hcs
      simpa using this
    have hrest : e.txt.chars.drop (e.txt.pos + 1) = cs := by rw [← List.tail_drop, hcs]; rfl
    have hl := Pbe.leadsTo_line hph .nextChar
    simp only [Pbe.line, hsome] at hl
    rw [Pbe.putsFrom, Waited.lined_andThen]
    refine hl.trans ((Pbe.leadsTo_firstPoll hph).trans (Pbe.leadsTo_lined fun x hx => ?_))
    obtain ⟨htxt, -⟩ := Pbe.firstPoll_ready_frame hx
    have hxp := (Waited.Follows.ph_ready e.firstPoll_follows hx).trans hph
    exact Pbe.leadsTo_putThen hxp (by rw [htxt]; exact hsome) fun y hy hyt => ih hy (by rw [hyt, htxt]; exact hrest)

/-- PUTS taken up at its poll loop, a character still to write (R131, R143). -/
theorem Pbe.leadsTo_putsResume {t : List Nat} {a₀ : PhStep} {e : Pbe} (hph : e.port.ph = .busy (.puts t) a₀)
    (hlt : e.txt.pos < e.txt.chars.length) :
    Pbe.LeadsTo (.at_ .pollLoop e) (e.putsResume.lined (.ret .none)) := by
  rw [Pbe.putsResume, Waited.lined_andThen]
  refine (Pbe.leadsTo_nextPoll hph).trans (Pbe.leadsTo_lined fun x hx => ?_)
  obtain ⟨htxt, -⟩ := Pbe.nextPoll_ready_frame hx
  have hxp := (Waited.Follows.ph_ready e.nextPoll_follows hx).trans hph
  have hltx : x.txt.pos < x.txt.chars.length := by rw [htxt]; exact hlt
  rw [Pbe.putsReady, List.drop_eq_getElem_cons hltx]
  exact Pbe.leadsTo_putThen hxp (List.getElem?_eq_getElem hltx) fun y hy hyt =>
    Pbe.leadsTo_putsFrom hy (by rw [hyt])

/-! ### Calls and turns -/

/-- `x` is `e` after some lines of PBE. -/
abbrev Pbe.Leads (e x : Pbe) : Prop := Relation.ReflTransGen (fun x y => Pbe.lineOn x = y) e x

/-- An engine that stands at line `a` is itself sent there. -/
theorem Pbe.afterLine_at {e : Pbe} {i : Instr} {a : PhStep} (h : e.port.ph = .busy i a) :
    Pbe.afterLine (.at_ a e) = e := by
  show ({ e with port := e.port.stayAt a } : Pbe) = e
  rw [Port.stayAt_busy e.port h, ← h]

theorem Pbe.leads_of_leadsTo {e : Pbe} {i : Instr} {a : PhStep} {l : Lined Pbe} (hph : e.port.ph = .busy i a)
    (h : Pbe.LeadsTo (.at_ a e) l) : e.Leads (Pbe.afterLine l) := by
  have h' : Relation.ReflTransGen _ _ _ := h
  rwa [Pbe.afterLine_at hph] at h'

theorem Pbe.conclude_eq_afterLine (f : Pbe → OpResult) (r : Ran Pbe) :
    Pbe.conclude f r = Pbe.afterLine (r.goto (fun x => .ret (f x) x)) := by cases r <;> rfl

/-- An operation that is one write transaction is carried out by its lines (R133 to R142). -/
theorem Pbe.leads_write {i : Instr} {l : Level} {b : Byte} (ht : transferOf i = some (.write l b)) {e : Pbe}
    (hph : e.port.ph = .busy i (.cycle .rs)) : e.Leads (Pbe.conclude (fun _ => .none) (e.writeSteps l b)) := by
  rw [Pbe.conclude_eq_afterLine]
  refine Pbe.leads_of_leadsTo hph (Pbe.leadsTo_transfer (fun x _ c => ?_) hph)
  simp only [Pbe.line, ht]
  rfl

/-- An operation that is one read transaction is carried out by its lines (R130, R132). -/
theorem Pbe.leads_read {i : Instr} {l : Level} (ht : transferOf i = some (.read l)) {e : Pbe}
    (hph : e.port.ph = .busy i (.cycle .rs)) : e.Leads (Pbe.conclude (fun x => .byte x.result) (e.readSteps l)) := by
  rw [Pbe.conclude_eq_afterLine]
  refine Pbe.leads_of_leadsTo hph (Pbe.leadsTo_readSteps (kept := .result) (fun x c => ?_) (fun _ => rfl) hph)
  simp only [Pbe.line, ht]
  rfl

/-- A narrow text is held as its characters. -/
theorem textBytes_of_narrow {t : List Nat} (h : t.all (fun c => decide (c < 256)) = true) :
    textBytes t = some (t.map (BitVec.ofNat 8)) := if_pos h

/-- A host's call of PBE is a request, and once it is accepted it is carried out by lines (R28, R87). -/
theorem exec_pbe_leads {i : Instr} (hr : i.requestable = true) (he : i.engine = .pbe) (hn : i.narrow = true) :
    ∃ body, (∀ s, exec i s = pbeRequest i body s) ∧
      ∀ e : Pbe, e.port.ph = .busy i (firstStep i) → (Pbe.entered i e).Leads (body e) := by
  cases i with
  | rdbf => exact ⟨_, fun _ => rfl, fun e hph => Pbe.leads_read rfl hph⟩
  | rddata => exact ⟨_, fun _ => rfl, fun e hph => Pbe.leads_read rfl hph⟩
  | waitrdy =>
    refine ⟨_, exec_waitrdy, fun e hph => ?_⟩
    rw [Pbe.settle_eq_afterLine]
    exact Pbe.leads_of_leadsTo hph (Pbe.leadsTo_firstPoll hph)
  | puts t =>
    have ht : textBytes t = some _ := textBytes_of_narrow hn
    refine ⟨_, exec_puts ht, fun e hph => ?_⟩
    have hent : Pbe.entered (.puts t) e = { e with txt := ⟨t.map (BitVec.ofNat 8), 0⟩ } := by
      rw [Pbe.entered, ht]; rfl
    rw [hent, Pbe.settle_eq_afterLine]
    exact Pbe.leads_of_leadsTo hph (Pbe.leadsTo_putsFrom hph rfl)
  | wrdata | cmd | clear | home | entry | dispmode | shift | func | setcg | setdd =>
    exact ⟨_, fun _ => rfl, fun e hph => Pbe.leads_write rfl hph⟩
  | clrall | encode | display | rawdisp | demo | lookup => cases he
  | rawwr | rawrd => cases hr

/-- PBE's turn, of one line or of the whole poll loop, is lines (R131, R143). -/
theorem Pbe.leads_goOn {e : Pbe} (h : e.phaseOk) : e.Leads e.goOn := by
  rw [Pbe.goOn, Pbe.loopTurn]
  split
  · next hph =>
    rw [Option.getD_some, Pbe.settle_eq_afterLine]
    exact Pbe.leads_of_leadsTo hph (Pbe.leadsTo_nextPoll hph)
  · next t hph =>
    rw [Option.getD_some, Pbe.settle_eq_afterLine]
    refine Pbe.leads_of_leadsTo hph (Pbe.leadsTo_putsResume hph ?_)
    obtain hidle | ⟨i, a, hbusy, -, hstand⟩ := h
    · rw [hph] at hidle; cases hidle
    · rw [hph] at hbusy; cases hbusy
      obtain ⟨-, htxt, -⟩ := hstand
      simpa using (htxt t rfl).2
  · exact .single rfl

end Sys2Proof.Machine
end

section
/-! SRL's whole calls and loop turns are its lines one after another (R28, R87, R160 to R164). -/

namespace Sys2Proof.Machine

/-! ### Calls first -/

/-- Calls that succeed leave PH. -/
theorem Srl.run_ph {e x : Srl} {cs : List Call} (h : e.run cs = .done x) : x.port.ph = e.port.ph := by
  rw [Srl.run_frame h]; simp

/-- Calls made one part after the other. -/
theorem Srl.run_append (e : Srl) (a b : List Call) : e.run (a ++ b) = (e.run a).andThen (fun x => x.run b) := by
  rw [Srl.run, Port.run_append, Srl.run]
  cases e.port.run a <;> rfl

theorem Ran.andThen_goto {α : Type} (r : Ran α) (f : α → Ran α) (k : α → Lined α) :
    (r.andThen f).goto k = r.goto (fun x => (f x).goto k) := by cases r <;> rfl

/-- The line at `a` makes the calls `cs`, and what follows them leads on. -/
theorem Srl.leadsTo_run {e : Srl} {i : Instr} {a₀ a : PhStep} {cs : List Call} {f g : Srl → Lined Srl}
    (hph : e.port.ph = .busy i a₀) (hline : e.line i a = (e.run cs).goto f)
    (h : ∀ x, x = { e with port := e.port.ran cs } → x.port.ph = .busy i a₀ → Srl.LeadsTo (f x) (g x)) :
    Srl.LeadsTo (.at_ a e) ((e.run cs).goto g) := by
  have hl := Srl.leadsTo_line hph a
  rw [hline] at hl
  exact hl.trans (.goto fun x hx => h x (Srl.run_frame hx) ((Srl.run_ph hx).trans hph))

/-! ### RAWDISP's steps -/

/-- The lines of one bit, then the head of the bit loop with BITCNT one up (R160). -/
theorem Srl.leadsTo_bit {e : Srl} {i : Instr} {a₀ : PhStep} (hph : e.port.ph = .busy i a₀) :
    Srl.LeadsTo (.at_ .din e)
      ((e.run (bitCalls (e.sr.getLsbD e.bitcnt))).goto (fun x => .at_ .bitLoop { x with bitcnt := x.bitcnt + 1 })) := by
  have hcalls : ∀ b, bitCalls b =
      [drive .din (.ofBool b)] ++ ([drive .clk .high] ++ ([.delay .tSR] ++ ([drive .clk .low] ++ [.delay .tSR]))) :=
    fun _ => rfl
  simp only [hcalls, Srl.run_append, Ran.andThen_goto]
  refine Srl.leadsTo_run hph rfl fun x _ hx => ?_
  refine Srl.leadsTo_run hx rfl fun x _ hx => ?_
  refine Srl.leadsTo_run hx rfl fun x _ hx => ?_
  refine Srl.leadsTo_run hx rfl fun x _ hx => ?_
  exact Srl.leadsTo_run hx rfl fun _ _ _ => .refl

/-- The lines of the latch pulse (R160). -/
theorem Srl.leadsTo_latch {e : Srl} {i : Instr} {a₀ : PhStep} (hph : e.port.ph = .busy i a₀) :
    Srl.LeadsTo (.at_ .latchHigh e) ((e.run latchCalls).goto (Srl.loaded i)) := by
  have hcalls : latchCalls = [drive .latch .high] ++ ([.delay .tSR] ++ ([drive .latch .low] ++ [.delay .tSR])) := rfl
  simp only [hcalls, Srl.run_append, Ran.andThen_goto]
  refine Srl.leadsTo_run hph rfl fun x _ hx => ?_
  refine Srl.leadsTo_run hx rfl fun x _ hx => ?_
  refine Srl.leadsTo_run hx rfl fun x _ hx => ?_
  exact Srl.leadsTo_run hx rfl fun _ _ _ => .refl

/-- The bit loop with `n` bits still to send (R160). -/
theorem Srl.leadsTo_shiftBits {n : Nat} (hn : n ≤ Config.nShift) {e : Srl} {i : Instr} {a₀ : PhStep}
    (hph : e.port.ph = .busy i a₀) :
    Srl.LeadsTo (.at_ .bitLoop { e with bitcnt := Config.nShift - n }) ((Srl.shiftBits n e).goto (.at_ .latchHigh)) := by
  induction n generalizing e with
  | zero => exact Srl.leadsTo_line (e := { e with bitcnt := Config.nShift }) hph .bitLoop
  | succ n ih =>
    have hlt : Config.nShift - (n + 1) < Config.nShift := by omega
    have hl := Srl.leadsTo_line (e := { e with bitcnt := Config.nShift - (n + 1) }) hph .bitLoop
    simp only [Srl.line, hlt, if_true] at hl
    rw [Srl.shiftBits, Ran.andThen_goto]
    refine hl.trans
      ((Srl.leadsTo_bit (e := { e with bitcnt := Config.nShift - (n + 1) }) hph).trans (.goto fun x hx => ?_))
    have hbit : x.bitcnt + 1 = Config.nShift - n := by rw [Srl.run_frame hx]; simp only; omega
    rw [hbit]
    exact ih (by omega) ((Srl.run_ph hx).trans hph)

/-- The bit loop leaves PH. -/
theorem Srl.shiftBits_ph {n : Nat} {e x : Srl} (h : Srl.shiftBits n e = .done x) : x.port.ph = e.port.ph := by
  have hf := Srl.shiftBits_follows e.cfg n e
  rw [h] at hf
  exact Port.Reach.ph hf

/-- RAWDISP's steps with the word that its operation sends (R160, R162 to R164). -/
theorem Srl.leadsTo_rawdispSteps {e : Srl} {i : Instr} {a₀ : PhStep} (hph : e.port.ph = .busy i a₀) :
    Srl.LeadsTo (.at_ .load e) ((e.rawdispSteps (e.loadWord i)).goto (Srl.loaded i)) := by
  rw [Srl.rawdispSteps, Ran.andThen_goto]
  refine (Srl.leadsTo_line hph .load).trans ?_
  refine (Srl.leadsTo_shiftBits (Nat.le_refl _) (e := { e with sr := e.loadWord i }) hph).trans (.goto fun x hx => ?_)
  exact Srl.leadsTo_latch ((Srl.shiftBits_ph hx).trans hph)

/-! ### ENCODE's steps -/

/-- A pending dot is added and taken (R161). -/
theorem Srl.leadsTo_takeDot {e : Srl} {i : Instr} {a₀ : PhStep} (hph : e.port.ph = .busy i a₀) :
    Srl.LeadsTo (.at_ .isDpf e) (.at_ .nextChar e.takeDot) := by
  have hdot : e.addDot.port.ph = .busy i a₀ := hph
  refine (Srl.leadsTo_line hph .isDpf).trans ?_
  simp only [Srl.line, Srl.takeDot]
  split
  · exact (Srl.leadsTo_line hph .addOne).trans (Srl.leadsTo_line hdot .clearDpf)
  · exact .refl

/-- One character of ENCODE, the one before TXT's position (R161). -/
theorem Srl.leadsTo_encodeChar {e : Srl} {i : Instr} {a₀ : PhStep} (hph : e.port.ph = .busy i a₀) (hpos : e.txt.pos ≠ 0) :
    Srl.LeadsTo (.at_ .nextChar e) (.at_ .nextChar (e.encodeChar e.takeChar.thisChar)) := by
  have htake : e.takeChar.port.ph = .busy i a₀ := hph
  have hl := Srl.leadsTo_line hph .nextChar
  simp only [Srl.line, hpos, if_false] at hl
  refine hl.trans ((Srl.leadsTo_line htake .isDot).trans ?_)
  simp only [Srl.line]
  by_cases hdot : e.takeChar.thisChar = dot
  · rw [if_pos hdot, Srl.encodeChar, if_pos hdot]
    exact Srl.leadsTo_line htake .setDpf
  · rw [if_neg hdot, Srl.encodeChar, if_neg hdot]
    exact (Srl.leadsTo_line htake .addPattern).trans (Srl.leadsTo_takeDot hph)

theorem Srl.encodeChar_txt (e : Srl) (c : Byte) : (e.encodeChar c).txt = ⟨e.txt.chars, e.txt.pos - 1⟩ := by
  rw [Srl.encodeChar]; split <;> simp

/-- The character loop of ENCODE: the characters before TXT's position from the last to the first (R161). -/
theorem Srl.leadsTo_encodeLoop {n : Nat} {e : Srl} {i : Instr} {a₀ : PhStep} (hph : e.port.ph = .busy i a₀)
    (hpos : e.txt.pos = n) (hn : n ≤ e.txt.chars.length) :
    Srl.LeadsTo (.at_ .nextChar e) (.at_ .result ((e.txt.chars.take n).reverse.foldl Srl.encodeChar e)) := by
  induction n generalizing e with
  | zero =>
    have hl := Srl.leadsTo_line hph .nextChar
    simpa only [Srl.line, hpos, if_true, List.take_zero, List.reverse_nil, List.foldl_nil] using hl
  | succ n ih =>
    have hthis : e.takeChar.thisChar = e.txt.chars[n] := by
      simp only [Srl.thisChar, Srl.takeChar_txt, hpos, Nat.add_sub_cancel]
      exact List.getD_eq_getElem _ _ hn
    have htext := Srl.encodeChar_txt e e.takeChar.thisChar
    have hrest := ih (e := e.encodeChar e.takeChar.thisChar) (by rw [Srl.encodeChar_port]; exact hph)
      (by rw [htext, hpos]; rfl) (by rw [htext]; exact Nat.le_of_succ_le hn)
    rw [htext] at hrest
    rw [List.take_succ_eq_append_getElem hn, List.reverse_append, List.reverse_singleton, List.singleton_append,
      List.foldl_cons, ← hthis]
    exact (Srl.leadsTo_encodeChar hph (by omega)).trans hrest

/-- ENCODE's steps once the text is held, then what its operation does next (R161, R162). -/
theorem Srl.leadsTo_encodeSteps {cs : List Byte} {e : Srl} {i : Instr} {a₀ : PhStep} (hph : e.port.ph = .busy i a₀) :
    Srl.LeadsTo (.at_ .clearAcc (e.holdText cs)) ((e.encodeSteps cs).encoded i) := by
  have hheld : (e.holdText cs).clearAcc.port.ph = .busy i a₀ := hph
  have hloop := Srl.leadsTo_encodeLoop (e := (e.holdText cs).clearAcc) hheld rfl (Nat.le_refl _)
  rw [show (e.holdText cs).clearAcc.txt = ⟨cs, cs.length⟩ from rfl, List.take_length] at hloop
  refine (Srl.leadsTo_line (e := e.holdText cs) hph .clearAcc).trans (hloop.trans ?_)
  exact Srl.leadsTo_line (by rw [Srl.foldl_encodeChar_port]; exact hheld) .result

/-- DISPLAY's steps once the text is held (R162). -/
theorem Srl.leadsTo_displaySteps {cs : List Byte} {e : Srl} {i : Instr} {a₀ : PhStep} (hph : e.port.ph = .busy i a₀)
    (henc : ∀ x : Srl, x.encoded i = .at_ .load x) (hword : ∀ x : Srl, x.loadWord i = x.acc) :
    Srl.LeadsTo (.at_ .clearAcc (e.holdText cs)) ((e.displaySteps cs).goto (Srl.loaded i)) := by
  have h := Srl.leadsTo_encodeSteps (cs := cs) hph
  have hload := Srl.leadsTo_rawdispSteps (e := e.encodeSteps cs) (i := i) (by rw [Srl.encodeSteps_port]; exact hph)
  rw [henc] at h
  rw [hword] at hload
  exact h.trans hload

/-! ### CLRALL and DEMO -/

/-- RAWDISP's steps leave the configuration and PH. -/
theorem Srl.rawdispSteps_frame {e x : Srl} {w : Word} (h : e.rawdispSteps w = .done x) :
    x.cfg = e.cfg ∧ x.port.ph = e.port.ph := by
  have hc := e.rawdispSteps_cfg w
  have hf := Srl.rawdispSteps_follows e.cfg e w
  rw [h] at hc hf
  exact ⟨hc, Port.Reach.ph hf⟩

theorem Srl.leadsTo_clearIndicators {e : Srl} {i : Instr} {a₀ : PhStep} (hph : e.port.ph = .busy i a₀) :
    Srl.LeadsTo (.at_ .cur e) ((e.run (clearIndicators e.cfg)).goto (.ret .none)) := by
  rw [clearIndicators, List.append_assoc, Srl.run_append, Ran.andThen_goto]
  refine Srl.leadsTo_run hph rfl fun x hx hxp => ?_
  rw [Srl.run_append, Ran.andThen_goto, show e.cfg = x.cfg by rw [hx]]
  refine Srl.leadsTo_run hxp rfl fun y hy hyp => ?_
  rw [show x.cfg = y.cfg by rw [hy]]
  exact Srl.leadsTo_run hyp rfl fun _ _ _ => .refl

/-- CLRALL's steps (R163). -/
theorem Srl.leadsTo_clearAllSteps {e : Srl} {a₀ : PhStep} (hph : e.port.ph = .busy .clrall a₀) :
    Srl.LeadsTo (.at_ .load e) (e.clearAllSteps.goto (.ret .none)) := by
  rw [Srl.clearAllSteps, Ran.andThen_goto]
  refine (Srl.leadsTo_rawdispSteps hph).trans (.goto fun x hx => ?_)
  exact Srl.leadsTo_clearIndicators ((Srl.rawdispSteps_frame hx).2.trans hph)

/-- Where a turn of DEMO's loop has come to, as the outcome of a line. -/
def Ticked.lined : Ticked → Lined Srl
  | .ended e => .ret .none e
  | .ticking e => .at_ .tickLoop e
  | .failed e p => .raise (.pinFault p) e

theorem Srl.settle_eq_afterLine (k : Ticked) : Srl.settle k = Srl.afterLine k.lined := by cases k <;> rfl

/-- DISPLAY's steps leave PH. -/
theorem Srl.displaySteps_ph {e x : Srl} {cs : List Byte} (h : e.displaySteps cs = .done x) : x.port.ph = e.port.ph := by
  have hf := Srl.displaySteps_follows e.cfg e cs
  rw [h] at hf
  exact Port.Reach.ph hf

/-- One turn of DEMO's loop (R164). -/
theorem Srl.leadsTo_tick {c : Bool} {e : Srl} {a₀ : PhStep} (hph : e.port.ph = .busy (.demo c) a₀) :
    Srl.LeadsTo (.at_ .tickLoop e) e.tick.lined := by
  have htick : e.tick.lined = (e.displaySteps (demoWindow e.win)).goto (fun x => (x.run [.delay .tTICK]).goto (fun y =>
      if y.sampleCancel.cancel then .ret .none y.sampleCancel
      else .at_ .tickLoop { y.sampleCancel with win := y.sampleCancel.win + 1 })) := by
    rw [Srl.tick, Srl.tickSteps]
    cases e.displaySteps (demoWindow e.win) with
    | failed x p => rfl
    | done x =>
      dsimp only [Ran.andThen, Ran.goto]
      cases x.run [.delay .tTICK] with
      | failed y p => rfl
      | done y => dsimp only; split <;> rfl
  rw [htick]
  refine (Srl.leadsTo_line hph .tickLoop).trans ?_
  refine (Srl.leadsTo_displaySteps hph (fun _ => rfl) (fun _ => rfl)).trans (.goto fun x hx => ?_)
  have hxp := (Srl.displaySteps_ph hx).trans hph
  refine Srl.leadsTo_run hxp rfl fun y _ hyp => ?_
  have hsampled : y.sampleCancel.port.ph = .busy (.demo c) a₀ := hyp
  refine (Srl.leadsTo_line hyp .checkCancel).trans ?_
  simp only [Srl.line]
  split
  · exact .refl
  · exact Srl.leadsTo_line hsampled .nextWindow

/-! ### Calls and turns -/

/-- `x` is `e` after some lines of SRL. -/
abbrev Srl.Leads (e x : Srl) : Prop := Relation.ReflTransGen (fun x y => Srl.lineOn x = y) e x

theorem Srl.afterLine_at {e : Srl} {i : Instr} {a : PhStep} (h : e.port.ph = .busy i a) :
    Srl.afterLine (.at_ a e) = e := by
  show ({ e with port := e.port.stayAt a } : Srl) = e
  rw [Port.stayAt_busy e.port h, ← h]

theorem Srl.leads_of_leadsTo {e : Srl} {i : Instr} {a : PhStep} {l : Lined Srl} (hph : e.port.ph = .busy i a)
    (h : Srl.LeadsTo (.at_ a e) l) : e.Leads (Srl.afterLine l) := by
  have h' : Relation.ReflTransGen _ _ _ := h
  rwa [Srl.afterLine_at hph] at h'

theorem Srl.conclude_eq_afterLine (f : Srl → OpResult) (r : Ran Srl) :
    Srl.conclude f r = Srl.afterLine (r.goto (fun x => .ret (f x) x)) := by cases r <;> rfl

/-- A host's call of SRL is a request, and once it is accepted it is carried out by lines (R28, R87); DEMO is one only where it
exists (R200). -/
theorem exec_srl_leads {i : Instr} (hr : i.requestable = true) (he : i.engine = .srl) (hn : i.narrow = true) :
    ∃ body, (∀ s : State, s.lacks i = false → exec i s = srlRequest i body s) ∧
      ∀ e : Srl, e.port.ph = .busy i (firstStep i) → (Srl.entered i e).Leads (body e) := by
  cases i with
  | clrall =>
    refine ⟨_, fun s _ => exec_clrall s, fun e hph => ?_⟩
    rw [Srl.conclude_eq_afterLine]
    exact Srl.leads_of_leadsTo hph (Srl.leadsTo_clearAllSteps hph)
  | rawdisp w =>
    refine ⟨_, fun s _ => exec_rawdisp w s, fun e hph => ?_⟩
    rw [Srl.conclude_eq_afterLine]
    have h := Srl.leadsTo_rawdispSteps hph
    rw [show e.loadWord (.rawdisp w) = w from rfl] at h
    exact Srl.leads_of_leadsTo hph h
  | encode t =>
    have ht : textBytes t = some _ := textBytes_of_narrow hn
    refine ⟨_, fun s _ => exec_encode ht s, fun e hph => ?_⟩
    have hent : Srl.entered (.encode t) e = e.holdText (t.map (BitVec.ofNat 8)) := by rw [Srl.entered, ht]; rfl
    rw [hent, Srl.conclude_eq_afterLine]
    exact Srl.leads_of_leadsTo (e := e.holdText _) hph (Srl.leadsTo_encodeSteps hph)
  | display t =>
    have ht : textBytes t = some _ := textBytes_of_narrow hn
    refine ⟨_, fun s _ => exec_display ht s, fun e hph => ?_⟩
    have hent : Srl.entered (.display t) e = e.holdText (t.map (BitVec.ofNat 8)) := by rw [Srl.entered, ht]; rfl
    rw [hent, Srl.conclude_eq_afterLine]
    exact Srl.leads_of_leadsTo (e := e.holdText _) hph (Srl.leadsTo_displaySteps hph (fun _ => rfl) (fun _ => rfl))
  | demo c =>
    have hdemo : ∀ s : State, s.lacks (.demo c) = false → s.srl.cfg.hasDemo = true := by simp [State.lacks]
    refine ⟨_, fun s hs => exec_demo (hdemo s hs) c, fun e hph => ?_⟩
    rw [Srl.settle_eq_afterLine]
    have hwin : ({ e with cancel := c, win := 0 } : Srl).port.ph = .busy (.demo c) .firstWindow := hph
    exact Srl.leads_of_leadsTo (e := { e with cancel := c }) hph
      ((Srl.leadsTo_line (e := { e with cancel := c }) hph .firstWindow).trans (Srl.leadsTo_tick hwin))
  | lookup => cases hr
  | _ => cases he

/-- SRL's turn, of one line or of DEMO's whole loop, is lines (R164). -/
theorem Srl.leads_goOn (e : Srl) : e.Leads e.goOn := by
  rw [Srl.goOn, Srl.loopTurn]
  split
  · next c hph =>
    rw [Option.getD_some, Srl.settle_eq_afterLine]
    exact Srl.leads_of_leadsTo hph (Srl.leadsTo_tick hph)
  · exact .single rfl

end Sys2Proof.Machine
end

section
/-! What a request and a step come to in lines: a request is refused by the whole call and by its acceptance alike, or accepted
and carried out by lines (R28, R65, R87, R200); a step of the machine is an acceptance or nothing, and then lines. -/

namespace Sys2Proof.Machine

/-! ### Requests -/

@[simp] theorem Pbe.entered_port (i : Instr) (e : Pbe) : (Pbe.entered i e).port = e.port := by cases i <;> rfl
@[simp] theorem Pbe.entered_cfg (i : Instr) (e : Pbe) : (Pbe.entered i e).cfg = e.cfg := by cases i <;> rfl
@[simp] theorem Srl.entered_port (i : Instr) (e : Srl) : (Srl.entered i e).port = e.port := by cases i <;> rfl
@[simp] theorem Srl.entered_cfg (i : Instr) (e : Srl) : (Srl.entered i e).cfg = e.cfg := by cases i <;> rfl
@[simp] theorem Srl.entered_bitcnt (i : Instr) (e : Srl) : (Srl.entered i e).bitcnt = e.bitcnt := by cases i <;> rfl

/-- PBE as the acceptance of `i` leaves it. -/
def Pbe.accepting (i : Instr) (e : Pbe) : Pbe := Pbe.entered i (e.begun i)

/-- SRL as the acceptance of `i` leaves it. -/
def Srl.accepting (i : Instr) (e : Srl) : Srl := Srl.entered i (e.begun i)

@[simp] theorem Pbe.accepting_port (i : Instr) (e : Pbe) : (e.accepting i).port = e.port.beginOp i := Pbe.entered_port i _
@[simp] theorem Pbe.accepting_cfg (i : Instr) (e : Pbe) : (e.accepting i).cfg = e.cfg := Pbe.entered_cfg i _
@[simp] theorem Srl.accepting_port (i : Instr) (e : Srl) : (e.accepting i).port = e.port.beginOp i := Srl.entered_port i _
@[simp] theorem Srl.accepting_cfg (i : Instr) (e : Srl) : (e.accepting i).cfg = e.cfg := Srl.entered_cfg i _
@[simp] theorem Srl.accepting_bitcnt (i : Instr) (e : Srl) : (e.accepting i).bitcnt = e.bitcnt := Srl.entered_bitcnt i _

/-- What a request `i` comes to: it is refused, by the call and by the acceptance under one name; or one engine, idle before,
accepts it, and the whole call goes on from there by lines. -/
inductive Answered (i : Instr) (s : State) : Prop where
  | refused (r : Refusal) (hissue : issue i s = .refused r) (hexec : exec i s = .refused r)
  | pbe (x : Pbe) (he : i.engine = .pbe) (hn : i.narrow = true) (hidle : s.pbe.port.ph = .idle)
      (hissue : issue i s = .next { s with pbe := s.pbe.accepting i }) (hexec : exec i s = .next { s with pbe := x })
      (hleads : (s.pbe.accepting i).Leads x)
  | srl (x : Srl) (he : i.engine = .srl) (hd : s.lacks i = false) (hidle : s.srl.port.ph = .idle)
      (hissue : issue i s = .next { s with srl := s.srl.accepting i }) (hexec : exec i s = .next { s with srl := x })
      (hleads : (s.srl.accepting i).Leads x)

/-- An operation with a character above 0xFF has no meaning (R86, R200). -/
theorem exec_wide {i : Instr} (hn : i.narrow = false) (s : State) : exec i s = .refused .wideCharacter := by
  have hnone : ∀ t : List Nat, t.all (fun c => decide (c < 256)) = false → textBytes t = none :=
    fun t ht => if_neg (by simp [ht])
  cases i with
  | puts t => exact (show execPuts t s = _ by rw [execPuts, hnone t hn])
  | encode t => exact (show execEncode t s = _ by rw [execEncode, hnone t hn])
  | display t => exact (show execDisplay t s = _ by rw [execDisplay, hnone t hn])
  | _ => cases hn

theorem exec_lacks {i : Instr} {s : State} (hd : s.lacks i = true) : exec i s = .refused .demoAbsent := by
  cases i with
  | demo c =>
    have hdemo : s.srl.cfg.hasDemo = false := by simpa [State.lacks] using hd
    exact (show execDemo c s = _ by rw [execDemo, hdemo]; rfl)
  | _ => cases hd

theorem lacks_of_pbe {i : Instr} (he : i.engine = .pbe) (s : State) : s.lacks i = false := by
  cases i with
  | demo c => cases he
  | _ => rfl

/-- Every request is answered so. -/
theorem answered {i : Instr} (hr : i.requestable = true) (s : State) : Answered i s := by
  cases hn : i.narrow with
  | false => exact .refused .wideCharacter (by simp [issue, hn]) (exec_wide hn s)
  | true =>
    cases he : i.engine with
    | pbe =>
      obtain ⟨body, hexec, hleads⟩ := exec_pbe_leads hr he hn
      have hissue : issue i s = pbeRequest i (Pbe.entered i) s := by simp [issue, hn, lacks_of_pbe he, he]
      by_cases hidle : s.pbe.port.ph = .idle
      · exact .pbe (body (s.pbe.begun i)) he hn hidle (hissue.trans (pbeRequest_idle hidle i _))
          ((hexec s).trans (pbeRequest_idle hidle i _)) (hleads _ rfl)
      · exact .refused .engineBusy (by simp [hissue, pbeRequest, hidle]) (by simp [hexec, pbeRequest, hidle])
    | srl =>
      cases hd : s.lacks i with
      | true => exact .refused .demoAbsent (by simp [issue, hn, hd]) (exec_lacks hd)
      | false =>
        obtain ⟨body, hexec, hleads⟩ := exec_srl_leads hr he hn
        have hissue : issue i s = srlRequest i (Srl.entered i) s := by simp [issue, hn, hd, he]
        by_cases hidle : s.srl.port.ph = .idle
        · exact .srl (body (s.srl.begun i)) he hd hidle (hissue.trans (srlRequest_idle hidle i _))
            ((hexec s hd).trans (srlRequest_idle hidle i _)) (hleads _ rfl)
        · exact .refused .engineBusy (by simp [hissue, srlRequest, hidle]) (by simp [hexec s hd, srlRequest, hidle])

/-- Settles O55: an accepted call is carried out by lines, and lines one after another are some number of them. -/
theorem linesMakeUpTheCall : Obligations.LinesMakeUpTheCall := by
  intro i s t hr ht
  cases answered hr s with
  | refused r _ hexec => rw [hexec] at ht; cases ht
  | pbe x he _ _ hissue hexec hleads =>
    rw [hexec] at ht; cases ht
    obtain ⟨n, rfl⟩ := Pbe.linesOn_of_leads hleads
    exact ⟨_, n, hissue, fun _ => rfl, fun h => by rw [he] at h; cases h⟩
  | srl x he _ _ hissue hexec hleads =>
    rw [hexec] at ht; cases ht
    obtain ⟨n, rfl⟩ := Srl.linesOn_of_leads hleads
    exact ⟨_, n, hissue, (fun h => by rw [he] at h; cases h), fun _ => rfl⟩

/-! ### The first step -/

/-- The first step of an operation is one of its lines (R28). -/
theorem hasStep_firstStep {i : Instr} (hr : i.requestable = true) : hasStep i (firstStep i) = true := by
  cases i with
  | rawwr _ | rawrd | lookup _ => cases hr
  | _ => rfl

theorem le_place_of_isWaitStep {a : PhStep} (h : isWaitStep a = true) : 10 ≤ place a := by
  cases a with
  | firstPoll c => exact Nat.le_add_right 10 c.place
  | poll c => exact Nat.le_trans (by decide) (Nat.le_add_right 30 c.place)
  | cycle c | char c => cases h
  | _ => revert h; decide

theorem le_place_of_isLoadStep {a : PhStep} (h : isLoadStep a = true) : 81 ≤ place a := by
  cases a with
  | cycle c | firstPoll c | poll c | char c => cases h
  | _ => revert h; decide

theorem le_place_of_isEncodeStep {a : PhStep} (h : isEncodeStep a = true) : 2 ≤ place a := by
  cases a with
  | cycle c | firstPoll c | poll c | char c => cases h
  | _ => revert h; decide

/-- An operation that is one transaction has that transaction's lines and the keeping of its result. -/
theorem le_place_of_firstStep_cycle {i : Instr} {a : PhStep} (hf : firstStep i = .cycle .rs) (h : hasStep i a = true) :
    70 ≤ place a := by
  cases a with
  | cycle c => exact Nat.le_add_right 70 c.place
  | result => decide
  | _ =>
    cases i with
    | waitrdy | puts | clrall | encode | display | rawdisp | demo | rawwr | rawrd | lookup => cases hf
    | _ => cases h

/-- No line of an operation stands before its first step in the text (R28). -/
theorem place_firstStep_le {i : Instr} {a : PhStep} (h : hasStep i a = true) : place (firstStep i) ≤ place a := by
  cases i with
  | waitrdy => exact le_place_of_isWaitStep h
  | puts t =>
    have hputs : (∃ c, a = .char c) ∨ isWaitStep a = true ∨ a = .nextChar := by
      cases a with
      | char c => exact .inl ⟨c, rfl⟩
      | _ => exact .inr (by simpa only [hasStep, Bool.or_eq_true, beq_iff_eq] using h)
    rcases hputs with ⟨c, rfl⟩ | hwait | rfl
    · simp only [place, firstStep]; omega
    · exact Nat.le_trans (m := 10) (by simp only [place, firstStep]; omega) (le_place_of_isWaitStep hwait)
    · exact Nat.le_refl _
  | clrall =>
    simp only [hasStep, Bool.or_eq_true, beq_iff_eq] at h
    rcases h with ((h | rfl) | rfl) | rfl
    · exact le_place_of_isLoadStep h
    all_goals decide
  | encode t => exact le_place_of_isEncodeStep h
  | display t =>
    simp only [hasStep, Bool.or_eq_true] at h
    rcases h with h | h
    · exact le_place_of_isEncodeStep h
    · exact Nat.le_trans (m := 81) (by simp only [place, firstStep]; omega) (le_place_of_isLoadStep h)
  | rawdisp w => exact le_place_of_isLoadStep h
  | demo c => exact Nat.zero_le _
  | rawwr _ | rawrd | lookup _ => cases h
  | _ => exact le_place_of_firstStep_cycle rfl h

/-- Settles O53: acceptance and the whole call are refused together, and an acceptance puts PH at the first line and emits
`Begin`. -/
theorem issueStandsAtTheFirstStep : Obligations.IssueStandsAtTheFirstStep := by
  intro i s hr
  have hfirst := hasStep_firstStep hr
  have hleast := fun a (h : hasStep i a = true) => place_firstStep_le h
  cases answered hr s with
  | refused r hissue hexec =>
    rw [hissue, hexec]
    exact ⟨fun _ => Iff.rfl, fun _ ht => (by cases ht), fun _ hu => by cases hu⟩
  | pbe x he _ hidle hissue hexec _ =>
    rw [hissue, hexec, he]
    refine ⟨fun r => ⟨fun h => (by cases h), fun h => by cases h⟩, fun _ _ => ⟨_, rfl⟩, fun u hu => ?_⟩
    cases hu
    exact ⟨hidle, Pbe.accepting_port i _, hfirst, hleast, fun _ => rfl, fun h => by cases h⟩
  | srl x he _ hidle hissue hexec _ =>
    rw [hissue, hexec, he]
    refine ⟨fun r => ⟨fun h => (by cases h), fun h => by cases h⟩, fun _ _ => ⟨_, rfl⟩, fun u hu => ?_⟩
    cases hu
    exact ⟨hidle, Srl.accepting_port i _, hfirst, hleast, (fun h => by cases h), fun _ => rfl⟩

/-! ### Steps -/

/-- What a step may do to PBE: some lines, perhaps none, perhaps after accepting a request on an idle engine. -/
inductive Pbe.Turned (e : Pbe) : Pbe → Prop where
  | lines {x : Pbe} : e.Leads x → Pbe.Turned e x
  | accepted {x : Pbe} (i : Instr) : i.requestable = true → i.engine = .pbe → i.narrow = true → e.port.ph = .idle →
      (e.accepting i).Leads x → Pbe.Turned e x

/-- What a step may do to SRL, likewise; DEMO is accepted only where it exists. -/
inductive Srl.Turned (e : Srl) : Srl → Prop where
  | lines {x : Srl} : e.Leads x → Srl.Turned e x
  | accepted {x : Srl} (i : Instr) : i.requestable = true → i.engine = .srl → (∀ c, i = .demo c → e.cfg.hasDemo = true) →
      e.port.ph = .idle → (e.accepting i).Leads x → Srl.Turned e x

/-- DEMO is one of the operations of an engine that does not lack it. -/
theorem hasDemo_of_lacks {i : Instr} {s : State} (h : s.lacks i = false) : ∀ c, i = .demo c → s.srl.cfg.hasDemo = true := by
  rintro c rfl
  simpa [State.lacks] using h

/-- A request that is handed over turns both engines, however far it is carried out. -/
theorem turned_of_request {i : Instr} {s t : State} (hr : i.requestable = true)
    (h : exec i s = .next t ∨ issue i s = .next t) : Pbe.Turned s.pbe t.pbe ∧ Srl.Turned s.srl t.srl := by
  cases answered hr s with
  | refused r hissue hexec => rw [hexec, hissue] at h; rcases h with h | h <;> cases h
  | pbe x he hn hidle hissue hexec hleads =>
    rw [hexec, hissue] at h
    rcases h with h | h <;> cases h
    · exact ⟨.accepted i hr he hn hidle hleads, .lines .refl⟩
    · exact ⟨.accepted i hr he hn hidle .refl, .lines .refl⟩
  | srl x he hd hidle hissue hexec hleads =>
    rw [hexec, hissue] at h
    rcases h with h | h <;> cases h
    · exact ⟨.lines .refl, .accepted i hr he (hasDemo_of_lacks hd) hidle hleads⟩
    · exact ⟨.lines .refl, .accepted i hr he (hasDemo_of_lacks hd) hidle .refl⟩

theorem turned_of_hostTurn {take : Instr → State → Host.Outcome State Fault Refusal} {s t : State}
    (htake : ∀ {i : Instr} {s t : State}, i.requestable = true → take i s = .next t →
      Pbe.Turned s.pbe t.pbe ∧ Srl.Turned s.srl t.srl)
    (h : hostTurn take s = .next t) : Pbe.Turned s.pbe t.pbe ∧ Srl.Turned s.srl t.srl := by
  unfold hostTurn at h
  split at h
  · cases h
    exact ⟨.lines (by rw [State.supplied_pbe]), .lines (by rw [State.supplied_srl])⟩
  · split at h
    · next i rest hd =>
      have hturned := htake (decode_requestable hd) h
      rwa [State.supplied_pbe, State.supplied_srl] at hturned
    · cases h

/-- A step turns both engines, each by lines (R28, R87). -/
theorem turned_of_step {s t : State} (hp : s.pbe.phaseOk) (h : step s = .next t) :
    Pbe.Turned s.pbe t.pbe ∧ Srl.Turned s.srl t.srl := by
  unfold step at h
  split at h
  · exact turned_of_hostTurn (s := s.turnTaken) (fun hr h => turned_of_request hr (.inl h)) h
  · exact turned_of_hostTurn (s := s.turnTaken) (fun hr h => turned_of_request hr (.inr h)) h
  · cases h; exact ⟨.lines (Pbe.leads_goOn hp), .lines .refl⟩
  · cases h; exact ⟨.lines .refl, .lines s.srl.leads_goOn⟩
  · cases h; exact ⟨.lines (.single rfl), .lines .refl⟩
  · cases h; exact ⟨.lines .refl, .lines (.single rfl)⟩

end Sys2Proof.Machine
end

section
/-! The invariant of the machine: reset meets it, and since a step is lines, it is enough that acceptance and each line keep it
(R20, R21, R23, R24, R26, R28). -/

namespace Sys2Proof.Machine

/-! ### The pins of a port -/

/-- What the invariant says of a port of engine `E` that has records for `keys`, of which those that meet `turnable` may be
inputs. -/
structure Port.Sane (E : Engine) (keys : List Pin) (turnable : Pin → Prop) (P : Port) : Prop where
  owner : P.owner = E
  keys : P.keys = keys
  sound : ∀ q ∈ P.pins, q.2.Sound
  inputs : ∀ q ∈ P.pins, q.2.mode = .input → turnable q.1
  errPin : P.errPin.engine = E

/-- A call on one of the `keys` that turns to input only what may be. -/
def Call.Within (keys : List Pin) (turnable : Pin → Prop) (c : Call) : Prop :=
  (∀ p, c.pin? = some p → p ∈ keys) ∧ ∀ p, c = .inp p → turnable p

section
variable {E : Engine} {keys : List Pin} {turnable : Pin → Prop} {P Q : Port}

/-- Only owner, records and STATUS.ERRPIN matter. -/
theorem Port.Sane.of_eq (h : P.Sane E keys turnable) (howner : Q.owner = P.owner) (hpins : Q.pins = P.pins)
    (herrPin : Q.errPin.engine = E) : Q.Sane E keys turnable where
  owner := howner.trans h.owner
  keys := (congrArg (·.map Prod.fst) hpins).trans h.keys
  sound := hpins ▸ h.sound
  inputs := hpins ▸ h.inputs
  errPin := herrPin

theorem Port.Sane.setPin (h : P.Sane E keys turnable) {p : Pin} {r : PinRec} (hp : p ∈ keys) (hr : r.Sound)
    (hin : r.mode = .input → turnable p) : (P.setPin p r).Sane E keys turnable where
  owner := h.owner
  keys := (keys_setRec P.pins p r (by rw [← Port.keys, h.keys]; exact hp)).trans h.keys
  sound q hq := by
    rcases mem_setRec hq with rfl | hq
    · exact hr
    · exact h.sound q hq
  inputs q hq := by
    rcases mem_setRec hq with rfl | hq
    · exact hin
    · exact h.inputs q hq
  errPin := h.errPin

/-- A call that succeeds. -/
theorem Port.Sane.applied (h : P.Sane E keys turnable) {c : Call} (hc : c.Within keys turnable) :
    (P.applied c).Sane E keys turnable := by
  have hans : P.answered.Sane E keys turnable := h.of_eq rfl rfl h.errPin
  cases c with
  | out p v =>
    exact (hans.setPin (r := ⟨.output, v⟩) (hc.1 p rfl) (.inr rfl) (fun hm => by cases hm)).of_eq rfl rfl h.errPin
  | inp p =>
    exact (hans.setPin (r := ⟨.input, .unknown⟩) (hc.1 p rfl) (.inl rfl) (fun _ => hc.2 p rfl)).of_eq rfl rfl h.errPin
  | read p => exact h.of_eq (by simp [Port.applied]) (by simp [Port.applied]) (by simpa [Port.applied] using h.errPin)
  | delay d => exact h.of_eq rfl rfl h.errPin

theorem Port.Sane.reach {ok : Call → Prop} (hok : ∀ c, ok c → c.Within keys turnable) (h : P.Sane E keys turnable)
    (hq : Port.Reach ok P Q) : Q.Sane E keys turnable := by
  induction hq with
  | refl => exact h
  | call c _ hc ih => exact ih.applied (hok c hc)
  | orders _ ih => exact ih.of_eq rfl rfl ih.errPin

theorem Port.finish_frame (P : Port) (r : OpResult) : (P.finish r).owner = P.owner ∧ (P.finish r).errPin = P.errPin := by
  cases h : P.ph <;> simp [Port.finish, h]

theorem Port.raise_frame (P : Port) (c : Cause) :
    (P.raise c).owner = P.owner ∧ (P.raise c).errPin = c.errPin P.errPin := by
  cases h : P.ph <;> simp [Port.raise, h]

theorem Port.stayAt_frame (P : Port) (a : PhStep) :
    (P.stayAt a).owner = P.owner ∧ (P.stayAt a).pins = P.pins ∧ (P.stayAt a).errPin = P.errPin := by
  cases h : P.ph <;> simp [Port.stayAt, h]

/-- However an operation leaves its port, the pins are as the calls left them and STATUS.ERRPIN is a pin of the engine. -/
theorem Port.Sane.left {ok : Call → Prop} (hok : ∀ c, ok c → c.Within keys turnable) (hkeys : ∀ p ∈ keys, p.engine = E)
    (h : P.Sane E keys turnable) (hq : Port.Left ok P Q) : Q.Sane E keys turnable := by
  cases hq with
  | @ended R r hr =>
    have hR := h.reach hok hr
    obtain ⟨howner, herrPin⟩ := R.finish_frame r
    exact hR.of_eq howner (R.finish_pins r) (by rw [herrPin]; exact hR.errPin)
  | @waits R a hr =>
    have hR := h.reach hok hr
    obtain ⟨howner, hpins, herrPin⟩ := R.stayAt_frame a
    exact hR.of_eq howner hpins (by rw [herrPin]; exact hR.errPin)
  | @faulted R c p hr hc hp =>
    have hR := h.reach hok hr
    obtain ⟨howner, herrPin⟩ := (R.refusedBy p).raise_frame (.pinFault p)
    exact hR.of_eq howner (Port.raise_pins ..) (by rw [herrPin]; exact hkeys p ((hok c hc).1 p hp))
  | @timedOut R hr =>
    have hR := h.reach hok hr
    obtain ⟨howner, herrPin⟩ := R.raise_frame .protocolTimeout
    exact hR.of_eq howner (R.raise_pins _) (by rw [herrPin]; exact hR.errPin)

end

/-- A port as construction leaves it. -/
theorem Port.sane_fresh {E : Engine} {errPin : Pin} (he : errPin.engine = E) (pins : List Pin) (turnable : Pin → Prop) :
    (Port.fresh E errPin pins).Sane E pins turnable where
  owner := rfl
  keys := by simp [Port.keys, Port.fresh, Function.comp_def]
  sound q hq := by
    obtain ⟨p, -, rfl⟩ := List.mem_map.1 hq
    exact .inl rfl
  inputs q hq hm := by
    obtain ⟨p, -, rfl⟩ := List.mem_map.1 hq
    cases hm
  errPin := he

theorem Call.okPbe_within (c : Call) (h : c.okPbe) : c.Within pbePins (fun p => ∃ i, p = .db i) := by
  refine ⟨fun p hp => (mem_pbePins p).2 (Call.okPbe_pin h hp), ?_⟩
  rintro p rfl
  exact h

theorem Call.okSrl_within (cfg : SrlCfg) (c : Call) (h : c.okSrl cfg) : c.Within (srlPins cfg) (fun _ => False) := by
  refine ⟨fun p hp => Call.okSrl_pin h hp, ?_⟩
  rintro p rfl
  exact h

theorem engine_of_mem_srlPins {cfg : SrlCfg} {p : Pin} (h : p ∈ srlPins cfg) : p.engine = .srl := by
  have hopt : ∀ (present : Bool) (q : Pin), q.engine = .srl → p ∈ (if present then [q] else []) → p.engine = .srl := by
    intro present q hq hp
    cases present with
    | false => cases hp
    | true => rw [List.mem_singleton.1 hp]; exact hq
  simp only [srlPins, List.mem_append] at h
  obtain ((h | h) | h) | h := h
  · simp only [List.mem_cons, List.not_mem_nil, or_false] at h
    obtain rfl | rfl | rfl := h <;> rfl
  · exact hopt _ _ rfl h
  · exact hopt _ _ rfl h
  · exact hopt _ _ rfl h

/-! ### PBE -/

/-- What the invariant says of PBE's port. -/
abbrev Port.PbeSane (P : Port) : Prop := P.Sane .pbe pbePins (fun p => ∃ i, p = .db i)

theorem Pbe.Inv.sane {e : Pbe} (h : e.Inv) : e.port.PbeSane := ⟨h.owner, h.keys, h.sound, h.inputs, h.errPin⟩

theorem Pbe.inv_of_sane {e : Pbe} (h : e.port.PbeSane) (hlimit : e.cfg.pollLimit ≠ some 0) (hphase : e.phaseOk) : e.Inv :=
  ⟨h.owner, h.keys, h.sound, h.inputs, h.errPin, hlimit, hphase⟩

/-- A line executed where PBE stands leaves it idle or standing at the next line. -/
theorem Pbe.phaseOk_lineOn {e : Pbe} (h : e.Inv) : e.lineOn.phaseOk := by
  obtain hidle | ⟨i, a, hph, he, hstand⟩ := h.phase
  · left; rw [Pbe.lineOn, hidle]; exact hidle
  · rw [Pbe.lineOn_busy hph]
    obtain ⟨b, x, hl, -, hx, hxp⟩ | ⟨r, x, hl, -⟩ | ⟨p, x, hl⟩ | ⟨x, hl, -⟩ := Pbe.line_moves he h.limit hstand
    · rw [hl, Pbe.afterLine_at_busy (hxp.trans hph)]
      exact .inr ⟨i, b, rfl, he, hx⟩
    · rw [hl]; exact .inl (x.port.finish_ph r)
    · rw [hl]; exact .inl (x.port.raise_ph _)
    · rw [hl]; exact .inl (x.port.raise_ph _)

theorem Pbe.inv_lineOn {e : Pbe} (h : e.Inv) : e.lineOn.Inv := by
  obtain ⟨hcfg, heq | ⟨-, hleft⟩⟩ := e.lineOn_left
  · rw [heq]; exact h
  · exact Pbe.inv_of_sane (h.sane.left Call.okPbe_within (fun p hp => (mem_pbePins p).1 hp) hleft) (by rw [hcfg]; exact h.limit)
      (Pbe.phaseOk_lineOn h)

theorem Pbe.inv_leads {e x : Pbe} (h : e.Inv) (hx : e.Leads x) : x.Inv := by
  induction hx with
  | refl => exact h
  | tail _ hstep ih => exact hstep ▸ Pbe.inv_lineOn ih

/-- An accepted operation of PBE stands at its first line. -/
theorem Pbe.standsAt_accepting {i : Instr} (hr : i.requestable = true) (he : i.engine = .pbe) (hn : i.narrow = true) (e : Pbe) :
    (e.accepting i).standsAt i (firstStep i) := by
  refine ⟨hasStep_firstStep hr, ?_, ?_, ?_, ?_⟩
  · rintro t rfl
    have ht : textBytes t = some _ := textBytes_of_narrow hn
    have hent : (e.accepting (.puts t)).txt = ⟨t.map (BitVec.ofNat 8), 0⟩ := by
      rw [Pbe.accepting, Pbe.entered, ht]; rfl
    rw [hent]
    exact ⟨ht, by simp [firstStep]⟩
  · intro ha; cases i <;> simp [firstStep] at ha
  · intro ha; cases i <;> simp [firstStep] at ha
  · cases i <;> trivial

theorem Pbe.inv_accepting {i : Instr} (hr : i.requestable = true) (he : i.engine = .pbe) (hn : i.narrow = true) {e : Pbe}
    (h : e.Inv) : (e.accepting i).Inv := by
  refine Pbe.inv_of_sane ?_ (by rw [Pbe.accepting_cfg]; exact h.limit) (.inr ⟨i, firstStep i, ?_, he, ?_⟩)
  · rw [Pbe.accepting_port]; exact h.sane.of_eq rfl rfl h.errPin
  · rw [Pbe.accepting_port]; rfl
  · exact Pbe.standsAt_accepting hr he hn e

theorem Pbe.inv_turned {e x : Pbe} (h : e.Inv) (hx : e.Turned x) : x.Inv := by
  cases hx with
  | lines hx => exact Pbe.inv_leads h hx
  | accepted i hr he hn _ hx => exact Pbe.inv_leads (Pbe.inv_accepting hr he hn h) hx

/-! ### SRL -/

/-- What the invariant says of SRL's port. -/
abbrev Port.SrlSane (cfg : SrlCfg) (P : Port) : Prop := P.Sane .srl (srlPins cfg) (fun _ => False)

theorem Srl.Inv.sane {e : Srl} (h : e.Inv) : e.port.SrlSane e.cfg := ⟨h.owner, h.keys, h.sound, h.inputs, h.errPin⟩

/-- What of the invariant an operation has to keep: the tables stay with the configuration. -/
theorem Srl.Inv.of_sane {e x : Srl} (h : e.Inv) (hcfg : x.cfg = e.cfg) (hsane : x.port.SrlSane e.cfg)
    (hbitcnt : x.bitcnt ≤ Config.nShift) (hphase : x.phaseOk) : x.Inv :=
  ⟨hsane.owner, by rw [hcfg]; exact hsane.keys, hsane.sound, hsane.inputs, hsane.errPin, by rw [hcfg]; exact h.default,
    by rw [hcfg]; exact h.custom, hbitcnt, hphase⟩

/-- A line executed where SRL stands leaves it idle or standing at the next line, BITCNT in its range. -/
theorem Srl.phaseOk_lineOn {e : Srl} (h : e.Inv) : e.lineOn.phaseOk ∧ e.lineOn.bitcnt ≤ Config.nShift := by
  obtain hidle | ⟨i, a, hph, he, hstand⟩ := h.phase
  · rw [show e.lineOn = e by rw [Srl.lineOn, hidle]]
    exact ⟨h.phase, h.bitcnt⟩
  · rw [Srl.lineOn_busy hph]
    obtain ⟨b, x, hl, -, hx, hxp, hbit⟩ | ⟨r, x, hl, -, hbit⟩ | ⟨p, x, hl, hbit⟩ := Srl.line_moves he h.bitcnt hstand
    · rw [hl, Srl.afterLine_at_busy (hxp.trans hph)]
      exact ⟨.inr ⟨i, b, rfl, he, hx⟩, hbit⟩
    · rw [hl]; exact ⟨.inl (x.port.finish_ph r), hbit⟩
    · rw [hl]; exact ⟨.inl (x.port.raise_ph _), hbit⟩

theorem Srl.inv_lineOn {e : Srl} (h : e.Inv) : e.lineOn.Inv := by
  obtain ⟨hcfg, heq | ⟨-, hleft⟩⟩ := e.lineOn_left
  · rw [heq]; exact h
  · obtain ⟨hphase, hbitcnt⟩ := Srl.phaseOk_lineOn h
    exact h.of_sane hcfg (h.sane.left (Call.okSrl_within e.cfg) (fun p hp => engine_of_mem_srlPins hp) hleft) hbitcnt hphase

theorem Srl.inv_leads {e x : Srl} (h : e.Inv) (hx : e.Leads x) : x.Inv := by
  induction hx with
  | refl => exact h
  | tail _ hstep ih => exact hstep ▸ Srl.inv_lineOn ih

/-- An accepted operation of SRL stands at its first line. -/
theorem Srl.standsAt_accepting {i : Instr} (hr : i.requestable = true) (he : i.engine = .srl) {e : Srl}
    (hd : ∀ c, i = .demo c → e.cfg.hasDemo = true) : (e.accepting i).standsAt i (firstStep i) := by
  refine ⟨hasStep_firstStep hr, ?_, ?_, ?_, ?_, ?_⟩
  · intro ha
    cases i with
    | encode t => exact Nat.le_refl _
    | display t => exact Nat.le_refl _
    | lookup c => cases hr
    | clrall | rawdisp | demo => cases ha
    | _ => cases he
  · intro ha
    cases i with
    | lookup c => cases hr
    | clrall | rawdisp | demo | encode | display => cases ha
    | _ => cases he
  · intro ha; cases i <;> cases ha
  · rw [Srl.accepting_cfg]; exact hd
  · intro ha; cases i <;> cases ha

theorem Srl.inv_accepting {i : Instr} (hr : i.requestable = true) (he : i.engine = .srl) {e : Srl}
    (hd : ∀ c, i = .demo c → e.cfg.hasDemo = true) (h : e.Inv) : (e.accepting i).Inv := by
  refine h.of_sane (Srl.accepting_cfg i e) ?_ (by rw [Srl.accepting_bitcnt]; exact h.bitcnt)
    (.inr ⟨i, firstStep i, ?_, he, ?_⟩)
  · rw [Srl.accepting_port]; exact h.sane.of_eq rfl rfl h.errPin
  · rw [Srl.accepting_port]; rfl
  · exact Srl.standsAt_accepting hr he hd

theorem Srl.inv_turned {e x : Srl} (h : e.Inv) (hx : e.Turned x) : x.Inv := by
  cases hx with
  | lines hx => exact Srl.inv_leads h hx
  | accepted i hr he hd _ hx => exact Srl.inv_leads (Srl.inv_accepting hr he hd h) hx

/-! ### Reset and steps -/

/-- POLL_LIMIT as constructed is none or at least 1 (R10). -/
theorem pollLimit_ne_zero : Config.pollLimit ≠ some 0 := by
  rw [Config.pollLimit]
  cases Config.extraPolls <;> simp

/-- Settles O10: the records are fresh, and the tables are built from pairs. -/
theorem resetMeetsInvariant : Obligations.ResetMeetsInvariant where
  pbe := Pbe.inv_of_sane (Port.sane_fresh (errPin := .rs) rfl pbePins _) pollLimit_ne_zero (.inl rfl)
  srl :=
    have hsane : State.reset.srl.port.SrlSane SrlCfg.reset := Port.sane_fresh (errPin := .latch) rfl _ _
    { owner := hsane.owner
      keys := hsane.keys
      sound := hsane.sound
      inputs := hsane.inputs
      errPin := hsane.errPin
      default := Memory.wf_ofPairs _
      custom := fun m hm => by
        obtain ⟨pairs, -, rfl⟩ := Option.map_eq_some_iff.1 hm
        exact Memory.wf_ofPairs pairs
      bitcnt := Nat.zero_le _
      phase := .inl rfl }

/-- Settles O11: a step is an acceptance or nothing and then lines, and each of these keeps the invariant. -/
theorem stepKeepsInvariant : Obligations.StepKeepsInvariant := by
  intro s t h hstep
  obtain ⟨hpbe, hsrl⟩ := turned_of_step h.pbe.phase hstep
  exact ⟨Pbe.inv_turned h.pbe hpbe, Srl.inv_turned h.srl hsrl⟩

/-! ### PH from line to line -/

/-- Both ends of an operation write STATUS.ERR (R184, R188, R189). -/
theorem Port.raise_err {P : Port} {i : Instr} {a : PhStep} (h : P.ph = .busy i a) (c : Cause) : (P.raise c).err = c.err := by
  rw [Port.raise_busy P h]

theorem Port.finish_err {P : Port} {i : Instr} {a : PhStep} (h : P.ph = .busy i a) (r : OpResult) : (P.finish r).err = .ok := by
  rw [Port.finish_busy P h]

/-- Where a line may leave the port of its engine (R28, R167, R188, R189). -/
def Port.MovesFrom (i : Instr) (a : PhStep) (Q : Port) : Prop :=
  (∃ b ∈ stepsAfter i a, Q.ph = .busy i b ∧ (place a < place b ∨ (a, b) ∈ loopBacks)) ∨
    (Q.ph = .idle ∧ Q.err = .ok ∧ mayReturn i a = true) ∨
    (Q.ph = .idle ∧ Q.err = .pinFault) ∨
    (Q.ph = .idle ∧ Q.err = .protocolTimeout ∧ a = .bound)

theorem Pbe.lineOn_movesFrom {e : Pbe} {i : Instr} {a : PhStep} (h : e.Inv) (hph : e.port.ph = .busy i a) :
    Port.MovesFrom i a e.lineOn.port := by
  obtain hidle | ⟨j, b, hbusy, he, hstand⟩ := h.phase
  · rw [hph] at hidle; cases hidle
  rw [hph] at hbusy; cases hbusy
  have hval := (Pbe.line_follows i a e).ph_eq.trans hph
  rw [Pbe.lineOn_busy hph]
  obtain ⟨b, x, hl, hb, -, hxp⟩ | ⟨r, x, hl, hret⟩ | ⟨p, x, hl⟩ | ⟨x, hl, ha⟩ := Pbe.line_moves he h.limit hstand
  · rw [hl, Pbe.afterLine_at_busy (hxp.trans hph)]
    exact .inl ⟨b, hb, rfl, (stepsAfter_forward hstand.1 hb).2⟩
  all_goals rw [hl] at hval ⊢
  · exact .inr (.inl ⟨x.port.finish_ph r, Port.finish_err hval r, hret⟩)
  · exact .inr (.inr (.inl ⟨x.port.raise_ph _, Port.raise_err hval _⟩))
  · exact .inr (.inr (.inr ⟨x.port.raise_ph _, Port.raise_err hval _, ha⟩))

theorem Srl.lineOn_movesFrom {e : Srl} {i : Instr} {a : PhStep} (h : e.Inv) (hph : e.port.ph = .busy i a) :
    Port.MovesFrom i a e.lineOn.port := by
  obtain hidle | ⟨j, b, hbusy, he, hstand⟩ := h.phase
  · rw [hph] at hidle; cases hidle
  rw [hph] at hbusy; cases hbusy
  have hval := (Srl.line_follows i a e).ph_eq.trans hph
  rw [Srl.lineOn_busy hph]
  obtain ⟨b, x, hl, hb, -, hxp, -⟩ | ⟨r, x, hl, hret, -⟩ | ⟨p, x, hl, -⟩ := Srl.line_moves he h.bitcnt hstand
  · rw [hl, Srl.afterLine_at_busy (hxp.trans hph)]
    exact .inl ⟨b, hb, rfl, (stepsAfter_forward hstand.1 hb).2⟩
  all_goals rw [hl] at hval ⊢
  · exact .inr (.inl ⟨x.port.finish_ph r, Port.finish_err hval r, hret⟩)
  · exact .inr (.inr (.inl ⟨x.port.raise_ph _, Port.raise_err hval _⟩))

/-- Settles O54: a turn of one line executes the line at which the invariant lets the engine stand. -/
theorem phaseMovesAsThePseudocodeSays : Obligations.PhaseMovesAsThePseudocodeSays := by
  rintro s E i a hinv (⟨rfl, hagent⟩ | ⟨rfl, hagent⟩) hph
  · exact ⟨pbeTurn Pbe.lineOn s.turnTaken, by rw [step, hagent], Pbe.lineOn_movesFrom hinv.pbe hph⟩
  · exact ⟨srlTurn Srl.lineOn s.turnTaken, by rw [step, hagent], Srl.lineOn_movesFrom hinv.srl hph⟩

end Sys2Proof.Machine
end

section
/-! What a step appends to the traces (R21, R22, R23, R35, R188, R214): the pin records follow the new events, SRL's are drives
and delays and markers, and Enable rises only with the bus turned. -/

namespace Sys2Proof.Machine

/-! ### The events of a step -/

/-- The two markers and `Fail` (R35, R105): the events that no successful call emits. -/
def Event.isMark : Event → Bool
  | .beginOp _ => true
  | .endOp _ _ _ => true
  | .fail _ => true
  | .out _ _ => false
  | .inp _ => false
  | .read _ _ => false
  | .delay _ => false

/-- Marks change no pin record (R21). -/
theorem recordAfter_marks (p : Pin) (r : Option PinRec) {tr : List Event} (h : ∀ ev ∈ tr, ev.isMark = true) :
    recordAfter p r tr = r := by
  induction tr generalizing r with
  | nil => rfl
  | cons ev tr ih =>
    obtain ⟨hev, htr⟩ := List.forall_mem_cons.1 h
    have hsplit := recordAfter_append p r [ev] tr
    rw [List.singleton_append] at hsplit
    rw [hsplit, ih _ htr]
    cases ev <;> first | rfl | cases hev

/-- An operation in progress appends events of its calls, which the pin records follow, and then marks. -/
theorem Port.Left.appends {ok : Call → Prop} {P Q : Port} {i : Instr} {a : PhStep} (hp : P.ph = .busy i a)
    (h : Port.Left ok P Q) :
    ∃ new, Q.trace = P.trace ++ new ∧ (∀ p, Q.pin p = recordAfter p (P.pin p) new) ∧
      ∀ ev ∈ new, ev.fromCall ok ∨ ev.isMark = true := by
  obtain ⟨body, tail, htr, hpins, hbody, htail⟩ := h.trace hp
  have hmarks : ∀ ev ∈ tail, ev.isMark = true := by
    obtain ⟨r, rfl, -⟩ | ⟨b, rfl, -⟩ | ⟨c, p, -, -, rfl, -⟩ | ⟨rfl, -⟩ := htail <;> simp [Event.isMark]
  refine ⟨body ++ tail, by rw [htr, List.append_assoc], fun p => ?_, fun ev hev => ?_⟩
  · rw [recordAfter_append, recordAfter_marks p _ hmarks, hpins]
  · exact (List.mem_append.1 hev).imp (hbody ev) (hmarks ev)

/-- So does every step, for each engine. -/
theorem Port.Moved.appends {ok : Call → Prop} {P Q : Port} (h : Port.Moved ok P Q) :
    ∃ new, Q.trace = P.trace ++ new ∧ (∀ p, Q.pin p = recordAfter p (P.pin p) new) ∧
      ∀ ev ∈ new, ev.fromCall ok ∨ ev.isMark = true := by
  obtain rfl | ⟨i, -, hleft⟩ | ⟨⟨i, a, hph⟩, hleft⟩ := h
  · exact ⟨[], by simp, fun _ => rfl, by simp⟩
  · obtain ⟨new, htr, hpins, hnew⟩ := hleft.appends (P.beginOp_ph i)
    refine ⟨.beginOp i :: new, by rw [htr]; simp, hpins, fun ev hev => ?_⟩
    obtain rfl | hev := List.mem_cons.1 hev
    · exact .inr rfl
    · exact hnew ev hev
  · exact hleft.appends hph

/-- Settles O14: the calls' events set the records, the marks do not. -/
theorem pinRecordsFollowTheTrace : Obligations.PinRecordsFollowTheTrace := by
  intro s t E h
  obtain ⟨-, hpbe, -, hsrl⟩ := step_moved h
  cases E with
  | pbe =>
    obtain ⟨new, htr, hpins, -⟩ := hpbe.appends
    exact ⟨new, htr, hpins⟩
  | srl =>
    obtain ⟨new, htr, hpins, -⟩ := hsrl.appends
    exact ⟨new, htr, hpins⟩

/-- A call that SRL may make turns no pin to input and reads none (R23). -/
theorem Event.drives_of_okSrl {cfg : SrlCfg} {ev : Event} (h : ev.fromCall (Call.okSrl cfg)) (p : Pin) (v : Level) :
    ev ≠ .inp p ∧ ev ≠ .read p v := by
  obtain ⟨c, P, hc, rfl⟩ := h
  cases c with
  | out q w => exact ⟨nofun, nofun⟩
  | delay d => exact ⟨nofun, nofun⟩
  | inp q => exact hc.elim
  | read q => exact hc.elim

/-- Settles O44: SRL's new events are those of its calls, and marks. -/
theorem loaderOnlyDrives : Obligations.LoaderOnlyDrives := by
  intro s t h
  obtain ⟨-, -, -, hsrl⟩ := step_moved h
  obtain ⟨new, htr, -, hnew⟩ := hsrl.appends
  have hev : ∀ p v, ∀ ev ∈ new, ev ≠ .inp p ∧ ev ≠ .read p v := by
    intro p v ev hev
    obtain hcall | hmark := hnew ev hev
    · exact Event.drives_of_okSrl hcall p v
    · constructor <;> (rintro rfl; cases hmark)
  exact ⟨new, htr, fun p v => ⟨fun h => (hev p v _ h).1 rfl, fun h => (hev p v _ h).2 rfl⟩⟩

/-! ### Enable rises with the bus turned (R22, R214) -/

/-- The records of a bus set for a cycle: RW low and the data pins outputs, or RW high and the data pins inputs. -/
def BusSet (pin : Pin → Option PinRec) : Prop :=
  (pin .rw = some ⟨.output, .known .low⟩ ∧ ∀ i, ∃ v, pin (.db i) = some ⟨.output, v⟩) ∨
    (pin .rw = some ⟨.output, .known .high⟩ ∧ ∀ i, pin (.db i) = some ⟨.input, .unknown⟩)

/-- From `P` on, `Q` is reached with the pin records following the new events, and with the bus set whenever Enable rises. -/
def Port.Guards (P Q : Port) : Prop :=
  ∃ new, Q.trace = P.trace ++ new ∧ (∀ p, Q.pin p = recordAfter p (P.pin p) new) ∧
    ∀ pre post, new = pre ++ outEv .e .high :: post → BusSet (fun p => recordAfter p (P.pin p) pre)

/-- A change that emits nothing and touches no pin. -/
theorem Port.guards_of_eq {P Q : Port} (htr : Q.trace = P.trace) (hpins : Q.pins = P.pins) : P.Guards Q :=
  ⟨[], by simp [htr], fun p => by rw [Port.pin, hpins]; rfl, fun pre post h => by simp at h⟩

theorem Port.Guards.refl (P : Port) : P.Guards P := Port.guards_of_eq rfl rfl

/-- One event. -/
theorem Port.guards_of_event {P Q : Port} {ev : Event} (htr : Q.trace = P.trace ++ [ev])
    (hpins : ∀ p, Q.pin p = recordAfter p (P.pin p) [ev]) (h : ev = outEv .e .high → BusSet P.pin) : P.Guards Q := by
  refine ⟨[ev], htr, hpins, fun pre post hsplit => ?_⟩
  obtain ⟨rfl, hhead⟩ | ⟨-, htail⟩ := List.singleton_eq_append_iff.1 hsplit
  · exact h (List.cons.inj hhead).1.symm
  · cases htail

/-- A mark leaves the pins and is not Enable rising. -/
theorem Port.guards_of_mark {P Q : Port} {ev : Event} (htr : Q.trace = P.trace ++ [ev]) (hpins : Q.pins = P.pins)
    (hev : ev.isMark = true) : P.Guards Q := by
  refine Port.guards_of_event htr (fun p => ?_) (fun h => by rw [h] at hev; cases hev)
  rw [recordAfter_marks p _ (by simpa using hev), Port.pin, hpins]; rfl

theorem Port.Guards.trans {P Q R : Port} (h : P.Guards Q) (k : Q.Guards R) : P.Guards R := by
  obtain ⟨new, htr, hpins, hnew⟩ := h
  obtain ⟨more, htr', hpins', hmore⟩ := k
  have hlater : ∀ p pre, recordAfter p (P.pin p) (new ++ pre) = recordAfter p (Q.pin p) pre := by
    intro p pre; rw [recordAfter_append, hpins]
  refine ⟨new ++ more, by rw [htr', htr, List.append_assoc], fun p => by rw [hlater, hpins'], fun pre post hsplit => ?_⟩
  obtain ⟨mid, rfl, hmid⟩ | ⟨mid, hpre, hmid⟩ := List.append_eq_append_iff.1 hsplit
  · simpa only [hlater] using hmore mid post hmid
  · cases mid with
    | nil =>
      obtain rfl : new = pre := by simpa using hpre
      have hset := hmore [] post hmid.symm
      simpa only [← hlater, List.append_nil] using hset
    | cons ev mid =>
      obtain ⟨rfl, -⟩ := List.cons.inj hmid
      exact hnew pre mid hpre

theorem Port.guards_orderTaken (P : Port) : P.Guards P.orderTaken := Port.guards_of_eq rfl rfl

theorem Port.guards_beginOp (P : Port) (i : Instr) : P.Guards (P.beginOp i) :=
  Port.guards_of_mark (P.beginOp_trace i) (P.beginOp_pins i) rfl

theorem Port.guards_refusedBy (P : Port) (p : Pin) : P.Guards (P.refusedBy p) :=
  Port.guards_of_mark (P.refusedBy_trace p) (P.refusedBy_pins p) rfl

theorem Port.guards_stayAt (P : Port) (a : PhStep) : P.Guards (P.stayAt a) := by
  refine Port.guards_of_eq ?_ (P.stayAt_frame a).2.1
  cases h : P.ph <;> simp [Port.stayAt, h]

theorem Port.guards_finish (P : Port) (r : OpResult) : P.Guards (P.finish r) := by
  cases h : P.ph with
  | idle => exact Port.guards_of_eq (by simp [Port.finish, h]) (P.finish_pins r)
  | busy i a => exact Port.guards_of_mark (ev := .endOp i .ok r) (by rw [Port.finish_busy P h]) (P.finish_pins r) rfl

theorem Port.guards_raise (P : Port) (c : Cause) : P.Guards (P.raise c) := by
  cases h : P.ph with
  | idle => exact Port.guards_of_eq (by simp [Port.raise, h]) (P.raise_pins c)
  | busy i a => exact Port.guards_of_mark (ev := .endOp i c.err .none) (by rw [Port.raise_busy P h]) (P.raise_pins c) rfl

/-- Only the call that drives Enable high asks for the bus to be set. -/
theorem Port.guards_applied (P : Port) (c : Call) (h : c = drive .e .high → BusSet P.pin) : P.Guards (P.applied c) := by
  refine Port.guards_of_event (P.applied_trace c) (P.pin_applied c) fun hev => h ?_
  cases c <;> cases hev
  rfl

theorem Port.guards_call (P : Port) (c : Call) (h : c = drive .e .high → BusSet P.pin) : P.Guards (P.call c).val := by
  obtain hcall | ⟨p, -, -, hcall⟩ := P.call_cases c <;> rw [hcall]
  · exact P.guards_applied c h
  · exact P.guards_refusedBy p

theorem Port.guards_run {cs : List Call} (h : ∀ c ∈ cs, c ≠ drive .e .high) (P : Port) : P.Guards (P.run cs).val := by
  induction cs generalizing P with
  | nil => exact .refl P
  | cons c cs ih =>
    obtain ⟨hc, hcs⟩ := List.forall_mem_cons.1 h
    have hcall := P.guards_call c (fun he => absurd he hc)
    rw [Port.run]
    cases hr : P.call c with
    | done Q => rw [hr] at hcall; exact hcall.trans (ih hcs Q)
    | failed Q p => rw [hr] at hcall; exact hcall

theorem Pbe.run_port (e : Pbe) (cs : List Call) : (e.run cs).val.port = (e.port.run cs).val := by
  rw [Pbe.run]; cases e.port.run cs <;> rfl

theorem Pbe.guards_run (e : Pbe) {cs : List Call} (h : ∀ c ∈ cs, c ≠ drive .e .high) : e.port.Guards (e.run cs).val.port := by
  rw [Pbe.run_port]; exact Port.guards_run h e.port

theorem Pbe.guards_vector (e : Pbe) {f : List (Fin 8) → List Call} (h : ∀ o, ∀ c ∈ f o, c ≠ drive .e .high) :
    e.port.Guards (e.vector f).val.port :=
  (Port.guards_orderTaken e.port).trans (Pbe.guards_run { e with port := e.port.orderTaken } (h _))

/-- The line of a transaction that drives Enable high is its step 4 (R120, R121). -/
theorem Pbe.guards_cycleLine (t : Transfer) {c : CyStep} {e : Pbe} (h : c = .four → BusSet e.port.pin) :
    e.port.Guards (e.cycleLine t c).val.port := by
  have hrun : ∀ cs : List Call, (∀ c ∈ cs, c ≠ drive .e .high) → e.port.Guards (e.run cs).val.port := fun cs => e.guards_run
  have hvec : ∀ f : Fin 8 → Call, (∀ i, f i ≠ drive .e .high) →
      e.port.Guards (e.vector (fun o => o.map f)).val.port := fun f hf => e.guards_vector fun o c hc => by
    obtain ⟨i, -, rfl⟩ := List.mem_map.1 hc; exact hf i
  cases c with
  | wdr => cases t <;> exact .refl _
  | one => cases t <;> exact hvec _ (fun _ => nofun)
  | two => cases t <;> exact hrun _ (by simp [drive])
  | four =>
    show e.port.Guards (e.run [drive .e .high]).val.port
    rw [Pbe.run_port, Port.run, show (fun Q : Port => Q.run []) = Ran.done from rfl, Ran.andThen_done]
    exact e.port.guards_call _ (fun _ => h rfl)
  | six =>
    cases t with
    | write l b => exact hvec _ (fun _ => nofun)
    | read l =>
      show e.port.Guards (Pbe.sampleStep e).val.port
      rw [Pbe.sampleStep, Ran.val_andThen Pbe.port _ _ (fun _ => rfl)]
      exact hvec _ (fun _ => nofun)
  | _ => exact hrun _ (by simp [drive])

/-- The line of a transaction at which PH stands, if it stands in one. -/
def PhStep.cycle? : PhStep → Option CyStep
  | .cycle c => some c
  | .firstPoll c => some c
  | .poll c => some c
  | .char c => some c
  | _ => none

/-- Where the invariant lets PBE stand at step 4 of a cycle, the bus is set. -/
theorem busSet_of_cycleOk {P : Port} {i : Instr} {a : PhStep} (h : P.cycleOk i a) (ha : a.cycle? = some .four) : BusSet P.pin := by
  have hready : ∃ w, P.busReady w .four := by
    cases a <;> cases ha
    all_goals exact ⟨_, h⟩
  obtain ⟨w, hturned, haimed⟩ := hready
  cases w with
  | true => exact .inl ⟨haimed, hturned⟩
  | false => exact .inr ⟨haimed, hturned⟩

theorem Pbe.transferLine_port (t : Transfer) (pos : CyStep → PhStep) {last : Pbe → Lined Pbe}
    (hl : ∀ x, (last x).val.port = x.port) (c : CyStep) (e : Pbe) :
    (e.transferLine t pos last c).val.port = (e.cycleLine t c).val.port := by
  rw [Pbe.transferLine, Ran.val_goto Pbe.port]
  intro x
  cases t.next c with
  | none => exact hl x
  | some d => rfl

/-- A line of PBE makes the calls of its transaction's line, one delay, or none. -/
theorem Pbe.guards_line (i : Instr) {a : PhStep} {e : Pbe} (h : a.cycle? = some .four → BusSet e.port.pin) :
    e.port.Guards (e.line i a).val.port := by
  have htransfer : ∀ (t : Transfer) (pos : CyStep → PhStep) (last : Pbe → Lined Pbe) (c : CyStep),
      (∀ x, (last x).val.port = x.port) → a.cycle? = some c →
      e.port.Guards (e.transferLine t pos last c).val.port := by
    intro t pos last c hl hc
    rw [Pbe.transferLine_port t pos hl]
    exact Pbe.guards_cycleLine t fun hfour => h (hfour ▸ hc)
  have hwaited : (e.waited i).val.port = e.port := by cases i <;> rfl
  cases a <;> simp only [Pbe.line]
  case cycle c =>
    split
    · next t _ => exact htransfer t _ _ c (fun x => by cases t <;> rfl) rfl
    · exact .refl _
  case firstPoll c => exact htransfer _ _ _ c (fun _ => rfl) rfl
  case poll c => exact htransfer _ _ _ c (fun _ => rfl) rfl
  case char c =>
    split
    · exact htransfer _ _ _ c (fun _ => rfl) rfl
    · exact .refl _
  case pollLoop =>
    rw [Ran.val_goto Pbe.port _ _ (fun _ => rfl)]
    exact e.guards_run (by simp [drive])
  case nextChar => split <;> exact .refl _
  case firstTest => split <;> [rw [hwaited]; skip] <;> exact .refl _
  case test => split <;> [rw [hwaited]; skip] <;> exact .refl _
  case bound => split <;> exact .refl _
  all_goals exact .refl _

theorem Pbe.guards_afterLine (l : Lined Pbe) : l.val.port.Guards (Pbe.afterLine l).port := by
  cases l with
  | at_ a x => exact x.port.guards_stayAt a
  | ret r x => exact x.port.guards_finish r
  | raise c x => cases c <;> exact x.port.guards_raise _

theorem Pbe.guards_lineOn {e : Pbe} (h : e.Inv) : e.port.Guards e.lineOn.port := by
  obtain hidle | ⟨i, a, hph, -, hstand⟩ := h.phase
  · rw [show e.lineOn = e by rw [Pbe.lineOn, hidle]]; exact .refl _
  · obtain ⟨-, -, -, -, hcycle⟩ := hstand
    rw [Pbe.lineOn_busy hph]
    exact (Pbe.guards_line i (busSet_of_cycleOk hcycle)).trans (Pbe.guards_afterLine _)

theorem Pbe.guards_leads {e x : Pbe} (h : e.Inv) (hx : e.Leads x) : e.port.Guards x.port := by
  induction hx with
  | refl => exact .refl _
  | tail hx hstep ih => exact hstep ▸ ih.trans (Pbe.guards_lineOn (Pbe.inv_leads h hx))

/-- Settles O25: a step is lines from states that meet the invariant, and the only line that drives Enable high stands where
the bus is set. -/
theorem dataPinsTurnedBeforeEnableRises : Obligations.DataPinsTurnedBeforeEnableRises := by
  intro s t hinv hstep
  have hguards : s.pbe.port.Guards t.pbe.port := by
    cases (turned_of_step hinv.pbe.phase hstep).1 with
    | lines hx => exact Pbe.guards_leads hinv.pbe hx
    | accepted i hr he hn _ hx =>
      have hbegin := s.pbe.port.guards_beginOp i
      rw [← Pbe.accepting_port] at hbegin
      exact hbegin.trans (Pbe.guards_leads (Pbe.inv_accepting hr he hn hinv.pbe) hx)
  obtain ⟨new, htr, -, hnew⟩ := hguards
  exact ⟨new, htr, hnew⟩

end Sys2Proof.Machine
end

section
/-! Construction, and three calls of the operations: WAITRDY on a busy module, CLRALL, and what a read transaction that a pin
call cuts short leaves in RDR (R20, R121, R125, R131, R163). -/

namespace Sys2Proof.Machine

/-- Settles O9: eight pins, all present, are the one list that construction takes. -/
theorem constructionNeedsEightDataPins : Obligations.ConstructionNeedsEightDataPins := by
  intro pins p c
  have hpins : (pins.length = 8 ∧ (pins.all fun present => present) = true) ↔ pins = List.replicate 8 true := by
    rw [List.eq_replicate_iff, List.all_eq_true]
  unfold construct
  exact ⟨fun h => if_pos (hpins.2 h), fun h => if_neg (fun hp => h (hpins.1 hp))⟩

/-- How many answers and orders a read transaction takes. -/
theorem Port.took_didRead (P : Port) (i : Instr) (l : Level) : P.Took ((P.beginOp i).didRead l) 20 2 where
  owner := by simp
  draws := by simp
  drawn := by simp
  orders := by simp
  ordered := by simp

/-- Settles O28: the busy first poll is a whole read transaction, and PH is sent to the loop's head. -/
theorem waitrdyWaitsIfBusy : Obligations.WaitrdyWaitsIfBusy := by
  intro s hidle hnofail hbusy
  have hph : ((s.pbe.port.beginOp .waitrdy).didRead .low).ph = .busy .waitrdy (firstStep .waitrdy) := by simp
  refine ⟨((s.pbe.port.beginOp .waitrdy).didRead .low).withPh (.busy .waitrdy .pollLoop), _, ?_,
    Port.didRead_sample (s.pbe.port.beginOp .waitrdy) .low, ?_, Port.pin_didRead (s.pbe.port.beginOp .waitrdy) .low⟩
  · rw [exec_waitrdy, pbeRequest_idle hidle, Pbe.firstPoll_busy (s.pbe.begun .waitrdy) hnofail hbusy, ← Port.stayAt_withPh hph]
    rfl
  · refine { Port.took_didRead s.pbe.port .waitrdy .low with ph := rfl, err := ?_, errPin := ?_, trace := ?_ }
    · exact Port.didRead_err (s.pbe.port.beginOp .waitrdy) .low
    · exact Port.didRead_errPin (s.pbe.port.beginOp .waitrdy) .low
    · refine (Port.didRead_trace (s.pbe.port.beginOp .waitrdy) .low).trans ?_
      rw [Port.beginOp_trace, List.append_assoc]
      rfl

/-! ### CLRALL -/

/-- The calls of CLRALL (R163). -/
def clearCalls (cfg : SrlCfg) : List Call := serialCalls 0 ++ clearIndicators cfg

theorem callCount_clearCalls (cfg : SrlCfg) :
    callCount (clearCalls cfg) = 98 + cfg.hasCur.toNat + cfg.hasCol.toNat + cfg.hasDeg.toNat := by
  rw [clearCalls, callCount_append, callCount_serialCalls, callCount_clearIndicators]
  omega

/-- CLRALL's steps when no pin call fails (R163). -/
theorem Srl.clearAllSteps_noFail (e : Srl) (h : e.port.noFail (callCount (clearCalls e.cfg))) :
    e.clearAllSteps = .done { e with sr := 0, bitcnt := Config.nShift, port := e.port.ran (clearCalls e.cfg) } := by
  rw [clearCalls, callCount_append, callCount_serialCalls, Port.noFail_add] at h
  rw [Srl.clearAllSteps, Srl.rawdispSteps_noFail e 0 h.1]
  simp only [Ran.andThen]
  rw [Srl.run_noFail, clearCalls, Port.ran_append]
  intro k hk
  simpa [Port.peek_ran] using h.2 k hk

/-- An indicator's call, made only if it is wired, leaves its pin low and no other pin (R107). -/
theorem recordAfter_optional (present : Bool) (q p : Pin) (r : Option PinRec) :
    recordAfter p r (if present then [outEv q .low] else []) =
      if p = q ∧ present = true then some ⟨.output, .known .low⟩ else r := by
  cases present <;> simp [recordAfter, outEv, eq_comm]

/-- The pins after the indicators' calls: a wired indicator is low, the others are as they were (R163). -/
theorem recordAfter_indicators (cfg : SrlCfg) (p : Pin) (r : Option PinRec) :
    recordAfter p r ((if cfg.hasCur then [outEv .cur .low] else []) ++ (if cfg.hasCol then [outEv .col .low] else []) ++
        (if cfg.hasDeg then [outEv .deg .low] else [])) =
      if (p = .cur ∧ cfg.hasCur = true) ∨ (p = .col ∧ cfg.hasCol = true) ∨ (p = .deg ∧ cfg.hasDeg = true)
      then some ⟨.output, .known .low⟩ else r := by
  rw [recordAfter_append, recordAfter_append, recordAfter_optional, recordAfter_optional, recordAfter_optional]
  split_ifs <;> tauto

/-- Settles O43: CLRALL's calls are RAWDISP's with the word 0, then one for each wired indicator. -/
theorem clrallBlanksThenClearsTheIndicators : Obligations.ClrallBlanksThenClearsTheIndicators := by
  intro s n hidle hn hnofail
  rw [← callCount_clearCalls] at hn
  subst hn
  have hph : ((s.srl.port.beginOp .clrall).ran (clearCalls s.srl.cfg)).ph = .busy .clrall (firstStep .clrall) := by simp
  have hevents : ∀ P : Port, eventsOf P (clearCalls s.srl.cfg) = serialGroup 0 ++
      ((if s.srl.cfg.hasCur then [outEv .cur .low] else []) ++ (if s.srl.cfg.hasCol then [outEv .col .low] else []) ++
        (if s.srl.cfg.hasDeg then [outEv .deg .low] else [])) := fun P => by
    rw [clearCalls, eventsOf_append, eventsOf_serialCalls, eventsOf_clearIndicators]
  refine ⟨((s.srl.port.beginOp .clrall).ran (clearCalls s.srl.cfg)).finish .none, ?_, ?_, ?_, fun p => ?_⟩
  · rw [exec_clrall, srlRequest_idle hidle, Srl.clearAllSteps_noFail (s.srl.begun .clrall) hnofail]
    rfl
  all_goals rw [Port.finish_busy _ hph]
  · exact
      { owner := by simp
        draws := by simp [Port.ran_draws]
        drawn := by simp [Port.ran_drawn]
        orders := by simp
        ordered := by simp
        ph := rfl
        err := rfl
        errPin := by simp
        trace := by simp [Port.ran_trace, hevents] }
  · have hserial := Port.sample_serial (s.srl.port.beginOp .clrall) 0
    show ((s.srl.port.beginOp .clrall).ran (clearCalls s.srl.cfg)).sample = _
    rw [clearCalls, Port.ran_append, Port.ran_sample_noRead _ _ (noRead_clearIndicators _), hserial]
    rfl
  · show ((s.srl.port.beginOp .clrall).ran (clearCalls s.srl.cfg)).pin p = _
    rw [Port.pin_ran, hevents, recordAfter_append, recordAfter_serialGroup, recordAfter_indicators]
    rfl

/-! ### A read transaction cut short -/

/-- The calls of a read transaction up to the end of step 6, before Enable falls (R121, R122). -/
def sampleCalls (l : Level) (o1 o6 : List (Fin 8)) : List Call :=
  [drive .rs l] ++ (dbInMode o1 ++ ([drive .rw .high] ++ ([.delay .tAS] ++ ([drive .e .high] ++
    ([.delay .tDS] ++ dbSample o6)))))

/-- The port once the eight data pins are sampled. -/
def Port.sampledBus (P : Port) (l : Level) : Port :=
  (P.ran (sampleCalls l (P.peekOrder 0) (P.peekOrder 1))).orderTaken.orderTaken

/-- A fault up to the end of step 6 leaves every register (R125). -/
def Pbe.PortOnly (e x : Pbe) : Prop := x = { e with port := x.port }

/-- The lines of a read transaction up to step 6: all done with RDR the sampled byte, or stopped with RDR as it was (R121,
R125). -/
theorem Pbe.sampleLines_did (e : Pbe) (l : Level) :
    (Pbe.cycleLines (.read l) [.rs, .one, .two, .three, .four, .five, .six] e).Did e.port
      (sampleCalls l (e.port.peekOrder 0) (e.port.peekOrder 1))
      { e with rdr := (e.port.sampledBus l).sample, port := e.port.sampledBus l } e.PortOnly := by
  have hbad : ∀ Q, e.PortOnly { e with port := Q } := fun _ => rfl
  have hrun : ∀ (Q : Port) (cs : List Call), (Pbe.run { e with port := Q } cs).Did Q cs { e with port := Q.ran cs } e.PortOnly :=
    fun Q cs => Pbe.run_did { e with port := Q } cs hbad
  have hsix : ∀ Q : Port, (Pbe.cycleLines (.read l) [.six] { e with port := Q }).Did Q (dbSample (Q.peekOrder 0))
      { e with rdr := (Q.ran (dbSample (Q.peekOrder 0))).sample, port := (Q.ran (dbSample (Q.peekOrder 0))).orderTaken }
      e.PortOnly := by
    intro Q
    have hlines : Pbe.cycleLines (.read l) [.six] { e with port := Q } = Pbe.sampleStep { e with port := Q } :=
      Ran.andThen_done _
    rw [hlines, Pbe.sampleStep]
    obtain ⟨hn, h⟩ | ⟨x, p, h, hst, hx⟩ := Pbe.vector_did { e with port := Q } dbSample hbad
    · exact .inl ⟨hn, by rw [h]; rfl⟩
    · exact .inr ⟨x, p, by rw [h]; rfl, hst, hx⟩
  have hfive := fun Q => (hrun Q [.delay .tDS]).andThen (f := Pbe.cycleLines (.read l) [.six]) (.refl _) (hsix _)
  have hfour := fun Q => (hrun Q [drive .e .high]).andThen (f := Pbe.cycleLines (.read l) [.five, .six]) (.refl _) (hfive _)
  have hthree := fun Q => (hrun Q [.delay .tAS]).andThen (f := Pbe.cycleLines (.read l) [.four, .five, .six]) (.refl _) (hfour _)
  have htwo := fun Q => (hrun Q [drive .rw .high]).andThen (f := Pbe.cycleLines (.read l) [.three, .four, .five, .six])
    (.refl _) (hthree _)
  have hone := fun Q => (Pbe.vector_did { e with port := Q } dbInMode hbad).andThen
    (f := Pbe.cycleLines (.read l) [.two, .three, .four, .five, .six]) (.orderTaken _) (htwo _)
  have hrs := (hrun e.port [drive .rs l]).andThen
    (f := Pbe.cycleLines (.read l) [.one, .two, .three, .four, .five, .six]) (.refl _) (hone _)
  simp only [Port.ran_orderTaken, Port.peekOrder_ran, Port.peekOrder_orderTaken, ← Port.ran_append, List.append_assoc,
    Port.orderTaken_sample] at hrs
  exact hrs

theorem callCount_sampleCalls (l : Level) (o1 o6 : List (Fin 8)) :
    callCount (sampleCalls l o1 o6) = o1.length + o6.length + 3 := by
  simp [sampleCalls]; omega

/-- The byte in RDR after step 6, bit by bit: eleven calls precede the reads (R52, R121). -/
theorem Port.sampledBus_sample (P : Port) (l : Level) (j : Fin 8) :
    (P.sampledBus l).sample.getLsbD j.val = (P.readLevel 0 (P.peekOrder 1) j).toBool := by
  have hcalls : sampleCalls l (P.peekOrder 0) (P.peekOrder 1) = ([drive .rs l] ++ (dbInMode (P.peekOrder 0) ++
      ([drive .rw .high] ++ ([.delay .tAS] ++ ([drive .e .high] ++ [.delay .tDS]))))) ++ dbSample (P.peekOrder 1) := by
    simp [sampleCalls]
  rw [Port.sampledBus, hcalls, Port.orderTaken_sample, Port.orderTaken_sample, Port.ran_append,
    sample_ran_dbSample _ _ (nodup_peekOrder P 1), if_pos (mem_peekOrder P 1 j), Port.peek_ran, Port.readLevel]
  congr 3
  simp

/-- A read transaction is its lines up to step 6, then those that lower Enable (R121). -/
theorem Pbe.readSteps_split (e : Pbe) (l : Level) :
    e.readSteps l = ((Pbe.cycleLines (.read l) [.rs, .one, .two, .three, .four, .five, .six] e).andThen
      (Pbe.cycleLines (.read l) [.seven, .eight])).andThen (fun x => .done x.keepResult) := by
  have happend : ∀ (a b : List CyStep) (x : Pbe), Pbe.cycleLines (.read l) (a ++ b) x =
      (Pbe.cycleLines (.read l) a x).andThen (Pbe.cycleLines (.read l) b) := by
    intro a b x
    induction a generalizing x with
    | nil => rfl
    | cons c a ih =>
      rw [List.cons_append, Pbe.cycleLines, Pbe.cycleLines]
      cases x.cycleLine (.read l) c with
      | done y => exact ih y
      | failed y p => rfl
  rw [← happend]
  rfl

/-- A read transaction whose call `k` fails writes no register but RDR, and RDR only if Enable was to fall (R121, R125). -/
theorem Pbe.readSteps_failsAt {e : Pbe} {k : Nat} (l : Level) (hk : k < 20) (h : e.port.failsAt k) :
    ∃ Q p v, e.readSteps l = .failed { e with rdr := v, port := Q } p ∧ Q.ph = e.port.ph ∧ (k < 19 → v = e.rdr) ∧
      (k = 19 → ∀ j : Fin 8, v.getLsbD j.val = (e.port.readLevel 0 (e.port.peekOrder 1) j).toBool) := by
  obtain ⟨hbefore, hfail⟩ := h
  have hfollows := e.readSteps_follows l
  have hph : ∀ x p, e.readSteps l = .failed x p → x.port.ph = e.port.ph := by
    intro x p hx
    rw [hx] at hfollows
    obtain ⟨Q, c, hq, -, -, he⟩ := hfollows
    rw [he]; exact hq.ph
  have hcount : callCount (sampleCalls l (e.port.peekOrder 0) (e.port.peekOrder 1)) = 19 := by
    rw [callCount_sampleCalls]; simp
  obtain ⟨hn, hdone⟩ | ⟨x, p, hx, hst, hregs⟩ := e.sampleLines_did l
  · rw [hcount] at hn
    have hk19 : k = 19 := by
      by_contra hne
      exact hn k (by omega) hfail
    subst hk19
    have hpeek : (e.port.sampledBus l).peek 0 = .fail := by
      rw [Port.sampledBus, Port.peek_orderTaken, Port.peek_orderTaken, Port.peek_ran, hcount]; exact hfail
    have hread : e.readSteps l = .failed
        { e with rdr := (e.port.sampledBus l).sample, port := (e.port.sampledBus l).refusedBy .e } .e := by
      rw [Pbe.readSteps_split, hdone]
      simp only [Ran.andThen, Pbe.cycleLines, Pbe.cycleLine, Pbe.run, Port.run, Port.call, drive, Call.pin?, hpeek, Ran.map]
    exact ⟨_, _, _, hread, hph _ _ hread, fun hlt => absurd hlt (by decide), fun _ => Port.sampledBus_sample e.port l⟩
  · have hread : e.readSteps l = .failed x p := by rw [Pbe.readSteps_split, hx]; rfl
    have hne : k ≠ 19 := by
      rintro rfl
      exact hst.not_noFail (by rw [hcount]; exact hbefore)
    have hxp := hph x p hread
    rw [show x = { e with rdr := e.rdr, port := x.port } from hregs] at hread
    exact ⟨_, _, _, hread, hxp, fun _ => rfl, fun hk19 => absurd hk19 hne⟩

/-- Settles O57: the operation is one read transaction, and the exception touches the port alone. -/
theorem readFaultLeavesTheSampledByte : Obligations.ReadFaultLeavesTheSampledByte := by
  intro i l k s hread hidle hk hfails
  obtain ⟨Q, p, v, hsteps, hph, hearly, hlate⟩ := Pbe.readSteps_failsAt (e := s.pbe.begun i) l hk hfails
  refine ⟨Q.raise (.pinFault p), v, ?_, ?_, Q.raise_ph _, hearly, hlate⟩
  · rw [exec_busRead hread, pbeRequest_idle hidle, hsteps]
    rfl
  · exact Port.raise_err (hph.trans (s.pbe.port.beginOp_ph i)) _

end Sys2Proof.Machine
end

section
/-! A request to a busy engine (R65), and completed operations that move a byte or a word: the read transactions and the raw read
cycle of PBE (R121, R130, R132), and the serial load of SRL (R53, R160). -/

namespace Sys2Proof.Machine

/-! ### Requests to a busy engine -/

theorem pbeRequest_busy {s : State} (h : s.pbe.port.ph ≠ .idle) (i : Instr) (body : Pbe → Pbe) :
    pbeRequest i body s = .refused .engineBusy := if_neg h

theorem srlRequest_busy {s : State} (h : s.srl.port.ph ≠ .idle) (i : Instr) (body : Srl → Srl) :
    srlRequest i body s = .refused .engineBusy := if_neg h

/-- DEMO is the one operation a machine can lack (R200). -/
theorem lacks_eq_false {i : Instr} {s : State} (h : ∀ c, i = .demo c → s.srl.cfg.hasDemo = true) : s.lacks i = false := by
  cases i with
  | demo c => simp [State.lacks, h c rfl]
  | _ => rfl

/-- Every operation with a meaning is a request to its engine, so a busy engine refuses it (R65). -/
theorem exec_busy {i : Instr} {s : State} (hr : i.requestable = true) (hn : i.narrow = true) (hd : s.lacks i = false)
    (hbusy : (s.portOf i.engine).ph ≠ .idle) : exec i s = .refused .engineBusy := by
  cases he : i.engine with
  | pbe =>
    obtain ⟨body, hexec, -⟩ := exec_pbe_leads hr he hn
    rw [he] at hbusy
    rw [hexec, pbeRequest_busy hbusy]
  | srl =>
    obtain ⟨body, hexec, -⟩ := exec_srl_leads hr he hn
    rw [he] at hbusy
    rw [hexec s hd, srlRequest_busy hbusy]

/-- Settles O17: a request that its engine would take is refused as busy, any other is refused whether the engine is busy or
not. -/
theorem busyEngineRefuses : Obligations.BusyEngineRefuses := by
  intro i s hr hbusy
  refine ⟨?_, fun hn hd => exec_busy hr hn (lacks_eq_false hd) hbusy⟩
  cases hn : i.narrow with
  | false => exact ⟨_, exec_wide hn s⟩
  | true =>
    cases hd : s.lacks i with
    | true => exact ⟨_, exec_lacks hd⟩
    | false => exact ⟨_, exec_busy hr hn hd hbusy⟩

/-! ### The port after a completed operation -/

theorem Port.pin_finish (P : Port) (r : OpResult) (p : Pin) : (P.finish r).pin p = P.pin p := by
  rw [Port.pin, Port.finish_pins, Port.pin]

theorem Port.finish_sample (P : Port) (r : OpResult) : (P.finish r).sample = P.sample := by
  cases h : P.ph <;> simp [Port.finish, h]

/-- An accepted operation that has made its calls, with PH still naming it and STATUS untouched, is completed by its end (R35,
R184). -/
theorem Port.completed_finish {P Q : Port} {i : Instr} {body : List Event} {calls vectors : Nat}
    (htook : P.Took Q calls vectors) (hph : Q.ph = (P.beginOp i).ph) (herrPin : Q.errPin = P.errPin)
    (htrace : Q.trace = (P.beginOp i).trace ++ body) (r : OpResult) :
    P.Completed (Q.finish r) i body calls vectors r := by
  obtain ⟨howner, hdraws, hdrawn, horders, hordered⟩ := htook
  rw [Port.finish_busy Q (hph.trans (P.beginOp_ph i))]
  exact ⟨⟨howner, hdraws, hdrawn, horders, hordered⟩, rfl, rfl, herrPin, by rw [htrace, P.beginOp_trace]⟩

/-! ### Read transactions -/

/-- Settles O21: the operation is one read transaction with its markers around it. -/
theorem readTransactionsComplete : Obligations.ReadTransactionsComplete := by
  intro i rs s hread hidle hnofail
  refine ⟨((s.pbe.port.beginOp i).didRead rs).finish (.byte ((s.pbe.port.beginOp i).didRead rs).sample), _, ?_,
    Port.didRead_sample (s.pbe.port.beginOp i) rs, ?_, fun p => ?_⟩
  · rw [exec_busRead hread, pbeRequest_idle hidle, Pbe.readSteps_noFail (s.pbe.begun i) rs hnofail]
    rfl
  · exact Port.completed_finish (Port.took_didRead s.pbe.port i rs) (Port.didRead_ph ..) (Port.didRead_errPin ..)
      (Port.didRead_trace ..) _
  · rw [Port.pin_finish, Port.pin_didRead]
    rfl

/-- The port after a raw read cycle has taken nineteen answers and two orders (R121). -/
theorem Port.took_didReadRaw (P : Port) : P.Took P.didReadRaw 19 2 where
  owner := by simp [Port.didReadRaw]
  draws := by simp [Port.didReadRaw, Port.ran_draws]
  drawn := by simp [Port.didReadRaw, Port.ran_drawn]
  orders := by simp [Port.didReadRaw, ← List.drop_one]
  ordered := by simp [Port.didReadRaw]

/-- The events of a raw read cycle are a read group without its RS setting (R121, R122). -/
theorem Port.didReadRaw_events (P : Port) (rs : Level) :
    eventsOf P (readCycle (P.peekOrder 0) (P.peekOrder 1)) = (readGroup (P.peekOrder 0) (P.peekOrder 1) rs
      (fun k => drawLevel (P.peek (10 + (P.peekOrder 1).idxOf k)))).tail := by
  have h := congrArg List.tail (eventsOf_readCycle P (P.peekOrder 0) (P.peekOrder 1) (nodup_peekOrder P 1) rs)
  rw [length_peekOrder] at h
  exact h

/-- The pins after a raw read cycle by itself: RS is the caller's and stays (R122, R123). -/
theorem recordAfter_readGroup_tail (o1 o6 : List (Fin 8)) (h1 : ∀ i, i ∈ o1) (rs : Level) (v : Fin 8 → Level) (q : Pin)
    (r : Option PinRec) :
    recordAfter q r (readGroup o1 o6 rs v).tail = if q = .rs then r else pinsAfterRead rs r q := by
  by_cases hq : q = .rs
  · subst hq
    simp only [readGroup, List.cons_append, List.tail_cons, recordAfter_append]
    rw [recordAfter_map_other _ _ o6, recordAfter_map_other _ _ o1]
    all_goals simp [recordAfter, outEv]
  · rw [if_neg hq, ← recordAfter_readGroup o1 o6 h1 rs v q r]
    have hrs : recordAfter q r [outEv .rs rs] = r := if_neg (Ne.symm hq)
    conv_lhs => rw [← hrs]
    rw [← recordAfter_append]
    rfl

/-- Settles O23: the eight steps, with no marker before or after them. -/
theorem rawReadCycleCompletes : Obligations.RawReadCycleCompletes := by
  intro s hnofail
  refine ⟨s.pbe.port.didReadRaw, s.pbe.port.didReadRaw.sample, ?_, Port.didReadRaw_sample _, ?_,
    Port.took_didReadRaw _, ?_, ?_, ?_, fun p => ?_⟩
  · show execRawrd s = _
    rw [execRawrd, Pbe.rawRead_noFail _ hnofail]
    rfl
  · rw [← Port.didReadRaw_events]
    exact Port.ran_trace ..
  · simp [Port.didReadRaw]
  · simp [Port.didReadRaw]
  · simp [Port.didReadRaw]
  · rw [Port.didReadRaw, Port.pin_orderTaken, Port.pin_orderTaken, Port.pin_ran, Port.didReadRaw_events _ .low,
      recordAfter_readGroup_tail _ _ (mem_peekOrder _ 0)]
    by_cases hp : p = .rs
    · rw [if_pos hp, if_pos hp, hp]
    · rw [if_neg hp, if_neg hp]

/-! ### The serial load -/

/-- The port after the calls of a RAWDISP has taken 98 answers and no order (R160). -/
theorem Port.took_serial (P : Port) (i : Instr) (w : Word) : P.Took ((P.beginOp i).ran (serialCalls w)) 98 0 where
  owner := by simp
  draws := by simp [Port.ran_draws]
  drawn := by simp [Port.ran_drawn]
  orders := by simp
  ordered := by simp

/-- Settles O38: the calls of the 32 bits and of the latch pulse, with the markers around them. -/
theorem rawdispShiftsTheWord : Obligations.RawdispShiftsTheWord := by
  intro w s hidle hnofail
  refine ⟨((s.srl.port.beginOp (.rawdisp w)).ran (serialCalls w)).finish .none, ?_, ?_, ?_, fun p => ?_⟩
  · rw [exec_rawdisp, srlRequest_idle hidle, Srl.rawdispSteps_noFail (s.srl.begun (.rawdisp w)) w hnofail]
    rfl
  · exact Port.completed_finish (Port.took_serial s.srl.port _ w) (Port.ran_ph ..) (Port.ran_errPin ..)
      (Port.serial_trace ..) _
  · rw [Port.finish_sample, Port.sample_serial]
    rfl
  · rw [Port.pin_finish, Port.pin_serial]
    rfl

/-- Each bit group clocks its own bit, whatever DIN held before (R160). -/
theorem clockedBits_bitGroup (d : PinLevel) (b : Bool) (tr : List Event) :
    clockedBits d (bitGroup b ++ tr) =
      .known (if b then .high else .low) :: clockedBits (.known (if b then .high else .low)) tr := rfl

/-- Bit groups in a row clock their bits in order; what follows finds DIN at some level. -/
theorem clockedBits_bitGroups (bit : Nat → Bool) (ks : List Nat) (tr : List Event) (d : PinLevel) :
    ∃ d', clockedBits d (ks.flatMap (fun k => bitGroup (bit k)) ++ tr) =
      ks.map (fun k => .known (if bit k then .high else .low)) ++ clockedBits d' tr := by
  induction ks generalizing d with
  | nil => exact ⟨d, rfl⟩
  | cons k ks ih =>
    obtain ⟨d', h⟩ := ih (.known (if bit k then .high else .low))
    exact ⟨d', by rw [List.flatMap_cons, List.append_assoc, clockedBits_bitGroup, h, List.map_cons, List.cons_append]⟩

/-- Settles O39: 32 bit groups clock the bits from bit 0 on, and neither the markers nor the latch pulse clock one. -/
theorem serialBitsAreLeastSignificantFirst : Obligations.SerialBitsAreLeastSignificantFirst := by
  intro w s d hidle hnofail
  obtain ⟨t, hexec, htrace⟩ := exec_rawdisp_trace hidle hnofail
  refine ⟨t, _, hexec, htrace, ?_⟩
  obtain ⟨d', hbits⟩ := clockedBits_bitGroups w.getLsbD (List.range 32)
    ([outEv .latch .high, .delay .tSR, outEv .latch .low, .delay .tSR] ++ [.endOp (.rawdisp w) .ok .none]) d
  rw [serialGroup, List.append_assoc, List.append_assoc]
  exact hbits.trans (List.append_nil _)

end Sys2Proof.Machine
end

section
/-! The request bytes of the operations (R85; log 5): an OPSEL selects how its operand bytes are read, what the encoder writes is
read back, and which requests are refused (R86, R200). -/

namespace Sys2Proof

/-! ### Operand bytes read back -/

/-- The tag 0 closes a text. -/
theorem decodeText_close (rest : List Byte) : decodeText (0 :: rest) = .ok ([], rest) := by
  rw [decodeText.eq_def]
  rfl

/-- An 8-bit character of a text is read back before the characters after it (R86). -/
theorem decodeText_narrowChar {c : Nat} (hc : c < 256) {bytes rest : List Byte} {t : List Nat}
    (ht : decodeText bytes = .ok (t, rest)) : decodeText (encodeChar c ++ bytes) = .ok (c :: t, rest) := by
  have hcode : (BitVec.ofNat 8 c).toNat = c := Nat.mod_eq_of_lt hc
  have hone : (1 : Byte) ≠ 0 := by decide
  rw [encodeChar, if_pos hc]
  simp only [List.cons_append, List.nil_append]
  rw [decodeText, if_neg hone, if_pos rfl, ht]
  simp only [hcode]

/-- A text of 8-bit characters is read back up to its closing tag (R86). -/
theorem decodeText_encodeText {t : List Nat} (ht : ∀ c ∈ t, c < 256) (rest : List Byte) :
    decodeText (encodeText t ++ rest) = .ok (t, rest) := by
  induction t with
  | nil => exact decodeText_close rest
  | cons c t ih =>
    obtain ⟨hc, ht⟩ := List.forall_mem_cons.1 ht
    have hbytes : encodeText (c :: t) ++ rest = encodeChar c ++ (encodeText t ++ rest) := by simp [encodeText]
    rw [hbytes, decodeText_narrowChar hc (ih ht)]

/-- A text operand of 8-bit characters is read back. -/
theorem withText_encodeText {t : List Nat} (ht : t.all (fun c => decide (c < 256)) = true) (f : List Nat → Instr)
    (rest : List Byte) : withText f (encodeText t ++ rest) = .ok (f t) rest := by
  rw [withText, decodeText_encodeText (by simpa using ht)]

/-- The four bytes of a word, most significant first, are the word. -/
theorem append_bytes_of_word (w : Word) :
    w.extractLsb' 24 8 ++ w.extractLsb' 16 8 ++ w.extractLsb' 8 8 ++ w.extractLsb' 0 8 = w := by
  iterate 3 rw [BitVec.extractLsb'_append_extractLsb'_eq_extractLsb' (by rfl)]
  exact BitVec.extractLsb'_eq_self

/-- A word operand is read back. -/
theorem withWord_encodeWord (w : Word) (f : Word → Instr) (rest : List Byte) :
    withWord f (encodeWord w ++ rest) = .ok (f w) rest :=
  congrArg (fun x => Decoded.ok (f x) rest) (append_bytes_of_word w)

/-- Settles O1: the first byte is the operation's OPSEL, and each form of operand is read back as it was written. -/
theorem requestRoundTrip : Obligations.RequestRoundTrip := by
  rintro i rest ⟨hrequestable, hnarrow⟩
  cases i with
  | entry i s => cases i <;> cases s <;> rfl
  | dispmode d c b => cases d <;> cases c <;> cases b <;> rfl
  | shift s r => cases s <;> cases r <;> rfl
  | func e t l => cases e <;> cases t <;> cases l <;> rfl
  | demo c => cases c <;> rfl
  | puts t => exact withText_encodeText hnarrow .puts rest
  | encode t => exact withText_encodeText hnarrow .encode rest
  | display t => exact withText_encodeText hnarrow .display rest
  | rawdisp w => exact withWord_encodeWord w .rawdisp rest
  | rawwr | rawrd | lookup => cases hrequestable
  | _ => rfl

/-! ### Words of the spec's tables -/

/-- Settles O2: the words are read one by one. -/
theorem specWordsDecode : Obligations.SpecWordsDecode := by
  unfold Obligations.SpecWordsDecode
  decide

/-! ### Reserved OPSEL values (R85) -/

/-- A first byte below 0x20 is read as an OPSEL (R85; log 6). -/
theorem decode_opsel {b : Byte} (hb : b.toNat < 0x20) (bytes : List Byte) : decode (b :: bytes) = decodeOpsel b.toNat bytes :=
  if_pos hb

/-- The nineteen OPSEL values of R85 leave 0x0E, 0x0F and everything from 0x15 on reserved. -/
theorem decodeOpsel_reserved {n : Nat} (hn : n = 0x0E ∨ n = 0x0F ∨ 0x15 ≤ n) (bytes : List Byte) :
    decodeOpsel n bytes = .reject .reservedOpsel := by
  obtain rfl | rfl | h := hn
  · rfl
  · rfl
  · obtain ⟨k, rfl⟩ := Nat.exists_eq_add_of_le' h
    rfl

theorem decode_reserved {b : Byte} (hb : b = 0x0E ∨ b = 0x0F ∨ (0x15 ≤ b.toNat ∧ b.toNat ≤ 0x1F)) (rest : List Byte) :
    decode (b :: rest) = .reject .reservedOpsel := by
  have hn : b.toNat < 0x20 ∧ (b.toNat = 0x0E ∨ b.toNat = 0x0F ∨ 0x15 ≤ b.toNat) := by
    obtain rfl | rfl | ⟨hlo, hhi⟩ := hb
    · decide
    · decide
    · exact ⟨by omega, .inr (.inr hlo)⟩
  rw [decode_opsel hn.1, decodeOpsel_reserved hn.2]

end Sys2Proof

namespace Sys2Proof.Machine

/-! ### Requests that are refused -/

/-- A host with a request in its list looks for no other (R231; log 11). -/
theorem State.supplied_of_request {s : State} {b : Byte} {bytes : List Byte} (h : s.requests = b :: bytes) : s.supplied = s := by
  rw [State.supplied, h]

/-- Bytes that the decoder rejects are refused, at a call and at an acceptance alike (R200). -/
theorem hostTurn_of_reject {take : Instr → State → Host.Outcome State Fault Refusal} {s : State} {b : Byte}
    {bytes : List Byte} {e : DecodeError} (hreq : s.requests = b :: bytes) (hdec : decode (b :: bytes) = .reject e) :
    hostTurn take s = .refused (refusalOf e) := by
  rw [hostTurn, State.supplied_of_request hreq, hreq]
  simp only [hdec]

/-- Settles O19: the request is rejected by the decoder, before it is a call or an acceptance. -/
theorem reservedOpselRefused : Obligations.ReservedOpselRefused := by
  intro s b rest hagent hreq hb
  have hturn : ∀ take, hostTurn take s.turnTaken = .refused .reservedOpsel :=
    fun take => hostTurn_of_reject (s := s.turnTaken) hreq (decode_reserved hb rest)
  obtain ha | ha := hagent
  · rw [step, ha]
    exact hturn exec
  · rw [step, ha]
    exact hturn issue

/-- Settles O18: an operation with a wide character has no meaning, and the three text operations are such. -/
theorem wideCharactersRefused : Obligations.WideCharactersRefused := by
  rintro t s ⟨c, hmem, hwide⟩
  have hall : t.all (fun c => decide (c < 256)) = false :=
    List.all_eq_false.2 ⟨c, hmem, by simp only [decide_eq_true_eq]; omega⟩
  exact ⟨exec_wide (i := .puts t) hall s, exec_wide (i := .encode t) hall s, exec_wide (i := .display t) hall s⟩

end Sys2Proof.Machine
end

section
/-! The command bytes of the parallel bus (R72 to R82, R90) and the segments of a pattern (R83). A mask of R81's table finds a
byte's highest 1 bit, so it says in which range the byte lies; a narrower mask asks for two bits to be 0 besides. -/

namespace Sys2Proof

/-! ### The masks of R81 -/

/-- Of the bits from k up only bit k is 1 exactly if the byte lies between two powers of two. -/
theorem and_high_eq_iff (k : Fin 8) (b : Byte) :
    b &&& (0xFF <<< k.val) = 1 <<< k.val ↔ 2 ^ k.val ≤ b.toNat ∧ b.toNat < 2 ^ (k.val + 1) := by
  revert k b
  decide

theorem setddMask_iff (b : Byte) : b &&& 0x80 = 0x80 ↔ 0x80 ≤ b.toNat ∧ b.toNat < 0x100 := and_high_eq_iff 7 b
theorem setcgMask_iff (b : Byte) : b &&& 0xC0 = 0x40 ↔ 0x40 ≤ b.toNat ∧ b.toNat < 0x80 := and_high_eq_iff 6 b
theorem funcMask_iff (b : Byte) : b &&& 0xE0 = 0x20 ↔ 0x20 ≤ b.toNat ∧ b.toNat < 0x40 := and_high_eq_iff 5 b
theorem shiftMask_iff (b : Byte) : b &&& 0xF0 = 0x10 ↔ 0x10 ≤ b.toNat ∧ b.toNat < 0x20 := and_high_eq_iff 4 b
theorem dispmodeMask_iff (b : Byte) : b &&& 0xF8 = 0x08 ↔ 0x08 ≤ b.toNat ∧ b.toNat < 0x10 := and_high_eq_iff 3 b
theorem entryMask_iff (b : Byte) : b &&& 0xFC = 0x04 ↔ 0x04 ≤ b.toNat ∧ b.toNat < 0x08 := and_high_eq_iff 2 b
theorem homeMask_iff (b : Byte) : b &&& 0xFE = 0x02 ↔ 0x02 ≤ b.toNat ∧ b.toNat < 0x04 := and_high_eq_iff 1 b
theorem clearMask_iff (b : Byte) : b &&& 0xFF = 0x01 ↔ 0x01 ≤ b.toNat ∧ b.toNat < 0x02 := and_high_eq_iff 0 b

/-- FUNC's narrower mask (R82). -/
theorem funcNarrowMask_iff (b : Byte) :
    b &&& 0xE3 = 0x20 ↔ b &&& 0xE0 = 0x20 ∧ b.getLsbD 0 = false ∧ b.getLsbD 1 = false := by
  revert b
  decide

/-- SHIFT's narrower mask (R82). -/
theorem shiftNarrowMask_iff (b : Byte) :
    b &&& 0xF3 = 0x10 ↔ b &&& 0xF0 = 0x10 ∧ b.getLsbD 0 = false ∧ b.getLsbD 1 = false := by
  revert b
  decide

/-! ### The layout of a byte -/

/-- The layout of a byte by the range in which it lies (R81). -/
theorem layoutOf_eq (b : Byte) : layoutOf b =
    if 0x80 ≤ b.toNat ∧ b.toNat < 0x100 then some (.setdd (b &&& 0x7F))
    else if 0x40 ≤ b.toNat ∧ b.toNat < 0x80 then some (.setcg (b &&& 0x3F))
    else if 0x20 ≤ b.toNat ∧ b.toNat < 0x40 then some (.func (bitAt b 4) (bitAt b 3) (bitAt b 2))
    else if 0x10 ≤ b.toNat ∧ b.toNat < 0x20 then some (.shift (bitAt b 3) (bitAt b 2))
    else if 0x08 ≤ b.toNat ∧ b.toNat < 0x10 then some (.dispmode (bitAt b 2) (bitAt b 1) (bitAt b 0))
    else if 0x04 ≤ b.toNat ∧ b.toNat < 0x08 then some (.entry (bitAt b 1) (bitAt b 0))
    else if 0x02 ≤ b.toNat ∧ b.toNat < 0x04 then some .home
    else if 0x01 ≤ b.toNat ∧ b.toNat < 0x02 then some .clear
    else none := by
  simp only [layoutOf, setddMask_iff, setcgMask_iff, funcMask_iff, shiftMask_iff, dispmodeMask_iff, entryMask_iff,
    homeMask_iff, clearMask_iff]

/-- Only 0x00 has no layout. -/
theorem layoutOf_eq_none_iff (b : Byte) : layoutOf b = none ↔ b = 0x00 := by
  refine ⟨fun h => BitVec.eq_of_toNat_eq ?_, fun h => by rw [h]; rfl⟩
  rw [layoutOf_eq] at h
  split_ifs at h
  have hlt := b.isLt
  show b.toNat = 0
  omega

/-! ### The bytes that no named command emits (R82) -/

/-- The byte has a layout and is no byte of a named command: 0x03, or a SHIFT or FUNC byte with bit 0 or bit 1 set. -/
def unnamed (b : Byte) : Prop :=
  b = 0x03 ∨ ((0x10 ≤ b.toNat ∧ b.toNat ≤ 0x3F) ∧ (b.getLsbD 0 = true ∨ b.getLsbD 1 = true))

/-- Where the narrower masks agree with R81's table a byte decodes by its layout. -/
theorem decodeCommand_of_named {b : Byte} (h : ¬ unnamed b) : decodeCommand b = layoutOf b := by
  obtain ⟨hthree, hbits⟩ := not_or.1 h
  have hlow : 0x10 ≤ b.toNat ∧ b.toNat ≤ 0x3F → b.getLsbD 0 = false ∧ b.getLsbD 1 = false := by simpa using hbits
  have hfunc : b &&& 0xE3 = 0x20 ↔ b &&& 0xE0 = 0x20 := by
    rw [funcNarrowMask_iff, and_iff_left_iff_imp, funcMask_iff]
    exact fun hr => hlow (by omega)
  have hshift : b &&& 0xF3 = 0x10 ↔ b &&& 0xF0 = 0x10 := by
    rw [shiftNarrowMask_iff, and_iff_left_iff_imp, shiftMask_iff]
    exact fun hr => hlow (by omega)
  have hhome : b = 0x02 ↔ b &&& 0xFE = 0x02 := by
    rw [homeMask_iff]
    bv_omega
  have hclear : b = 0x01 ↔ b &&& 0xFF = 0x01 := by
    rw [clearMask_iff]
    bv_omega
  simp only [decodeCommand, layoutOf, hfunc, hshift, hhome, hclear]

/-- Such a byte meets none of the masks. -/
theorem decodeCommand_of_unnamed {b : Byte} (h : unnamed b) : decodeCommand b = none := by
  obtain rfl | ⟨⟨hlo, hhi⟩, hbit⟩ := h
  · rfl
  · have hlow : ¬ (b.getLsbD 0 = false ∧ b.getLsbD 1 = false) := by
      obtain h | h := hbit <;> simp [h]
    have htwo : b ≠ 0x02 := by bv_omega
    have hone : b ≠ 0x01 := by bv_omega
    rw [decodeCommand, if_neg (by rw [setddMask_iff]; omega), if_neg (by rw [setcgMask_iff]; omega),
      if_neg (by rw [funcNarrowMask_iff]; tauto), if_neg (by rw [shiftNarrowMask_iff]; tauto),
      if_neg (by rw [dispmodeMask_iff]; omega), if_neg (by rw [entryMask_iff]; omega), if_neg htwo, if_neg hone]

theorem layoutOf_of_decodeCommand {b : Byte} {i : Instr} (h : decodeCommand b = some i) : layoutOf b = some i := by
  by_cases hb : unnamed b
  · rw [decodeCommand_of_unnamed hb] at h
    cases h
  · rw [← decodeCommand_of_named hb, h]

/-- Settles O5: a named byte decodes by its layout, which only 0x00 lacks. -/
theorem bytesNoCommandEmits : Obligations.BytesNoCommandEmits := by
  intro b
  show decodeCommand b = none ↔ b = 0x00 ∨ unnamed b
  by_cases hb : unnamed b
  · simp [decodeCommand_of_unnamed hb, hb]
  · rw [decodeCommand_of_named hb, layoutOf_eq_none_iff, or_iff_left hb]

/-- Settles O51: each range excludes the others, and a named command is read by its layout. -/
theorem layoutsByHighestBit : Obligations.LayoutsByHighestBit := by
  intro b
  refine ⟨(layoutOf_eq_none_iff b).2, ?_, ?_, ?_, ?_, ?_, ?_, ?_, ?_, fun _ => layoutOf_of_decodeCommand⟩
  · rintro rfl
    rfl
  all_goals
    rintro ⟨hlo, hhi⟩
    rw [layoutOf_eq]
    simp (disch := omega) only [if_pos, if_neg, bitAt]

end Sys2Proof

namespace Sys2Proof.Machine

/-! ### The bytes of the named commands -/

/-- The fixed bit of SETCG's byte is its highest (R78). -/
theorem setcgByte_high (a : Byte) : setcgByte a &&& 0xC0 = 0x40 := by
  revert a
  decide

/-- The fixed bit of SETDD's byte is its highest (R79). -/
theorem setddByte_high (a : Byte) : setddByte a &&& 0x80 = 0x80 := by
  revert a
  decide

theorem setcgByte_address (a : Byte) : setcgByte a &&& 0x3F = a &&& 0x3F := by
  revert a
  decide

theorem setddByte_address (a : Byte) : setddByte a &&& 0x7F = a &&& 0x7F := by
  revert a
  decide

theorem decodeCommand_setcgByte (a : Byte) : decodeCommand (setcgByte a) = some (.setcg (a &&& 0x3F)) := by
  have hhigh := setcgByte_high a
  have hrange := (setcgMask_iff _).1 hhigh
  rw [decodeCommand, if_neg (by rw [setddMask_iff]; omega), if_pos hhigh, setcgByte_address]

theorem decodeCommand_setddByte (a : Byte) : decodeCommand (setddByte a) = some (.setdd (a &&& 0x7F)) := by
  rw [decodeCommand, if_pos (setddByte_high a), setddByte_address]

/-- Settles O3: the flags of a command are cases, its address is what the mask leaves. -/
theorem commandBytesDecodeBack : Obligations.CommandBytesDecodeBack :=
  ⟨by decide, by decide, by decide, by decide, decodeCommand_setcgByte, decodeCommand_setddByte, rfl, rfl⟩

/-- Settles O4: the flags of a command are cases, an address command lies in the range of its mask. -/
theorem commandByteLayouts : Obligations.CommandByteLayouts := by
  refine ⟨rfl, rfl, by decide, by decide, by decide, by decide, fun a => ?_, fun a => ?_⟩
  · obtain ⟨hlo, hhi⟩ := (setcgMask_iff _).1 (setcgByte_high a)
    exact ⟨setcgByte_bits a, hlo, Nat.le_of_lt_succ hhi⟩
  · obtain ⟨hlo, hhi⟩ := (setddMask_iff _).1 (setddByte_high a)
    exact ⟨setddByte_bits a, hlo, Nat.le_of_lt_succ hhi⟩

/-! ### The segments of a pattern (R83) -/

/-- A byte is the sum of the weights of its bits. -/
theorem sum_weights (p : Byte) : (Segment.all.map (fun s => if s.lit p then s.weight else 0)).sum = p := by
  revert p
  decide

/-- Adding the weight of DP to a pattern without it sets its bit: nothing is carried. -/
theorem add_weight_dp {p : Byte} (h : Segment.dp.lit p = false) : p + Segment.dp.weight = p ||| 1#8 := by
  have hbit : p.getLsbD 0 = false := h
  have hand : p &&& 1#8 = 0#8 := by rw [BitVec.and_one_eq_setWidth_ofBool_getLsbD, hbit]; rfl
  exact BitVec.add_eq_or_of_and_eq_zero p 1#8 hand

/-- Settles O52: a sum of bits, and adding an unset bit sets it and leaves the others. -/
theorem patternSegments : Obligations.PatternSegments := by
  refine ⟨rfl, fun p => (sum_weights p).symm, fun p hp => ?_⟩
  rw [add_weight_dp hp]
  refine ⟨by simp [Segment.lit, Segment.bit], fun s hs => ?_⟩
  cases s with
  | dp => exact absurd rfl hs
  | _ => simp [Segment.lit, Segment.bit]

end Sys2Proof.Machine
end

section
/-! ENCODE (R161): its character loop, run from the last character to the first, leaves the closed form in ACC and changes nothing
of SRL but ACC, DPF, TXT, the ROM's output and STATUS.RESULT. -/

namespace Sys2Proof.Machine

/-! ### The closed form, one character at a time -/

/-- The sum of the closed form: the k-th digit's pattern and dot at the k-th byte (R161). -/
def digitSum (cfg : SrlCfg) (ds : List (Byte × Bool)) : Nat :=
  (ds.zipIdx.map (fun dk => ((cfg.pattern dk.1.1).toNat + (if dk.1.2 then 1 else 0)) * 2 ^ (8 * dk.2))).sum

theorem displayWord_eq (cfg : SrlCfg) (cs : List Byte) : displayWord cfg cs = BitVec.ofNat 32 (digitSum cfg (digits cs)) := rfl

/-- A digit put first moves the others one byte up. -/
theorem digitSum_cons (cfg : SrlCfg) (d : Byte × Bool) (ds : List (Byte × Bool)) :
    digitSum cfg (d :: ds) = (cfg.pattern d.1).toNat + (if d.2 then 1 else 0) + 256 * digitSum cfg ds := by
  have hup : ∀ v k : Nat, v * 2 ^ (8 * (k + 1)) = 256 * (v * 2 ^ (8 * k)) := fun v k => by
    rw [Nat.mul_succ, Nat.pow_add]; ring
  rw [digitSum, List.zipIdx_cons']
  simp [digitSum, Function.comp_def, hup, List.sum_map_mul_left]

/-- A dot is no digit (R161). -/
theorem displayWord_dot (cfg : SrlCfg) (cs : List Byte) : displayWord cfg (dot :: cs) = displayWord cfg cs := by
  rw [displayWord_eq, digits, if_pos rfl, displayWord_eq]

/-- Any other character goes below the later ones, with the dot that follows it (R161). -/
theorem displayWord_other (cfg : SrlCfg) {c : Byte} (hc : c ≠ dot) (cs : List Byte) :
    displayWord cfg (c :: cs) =
      (displayWord cfg cs <<< 8) + (cfg.pattern c).zeroExtend 32 + (if cs.head? == some dot then 1 else 0) := by
  rw [displayWord_eq, digits, if_neg hc, digitSum_cons, displayWord_eq]
  apply BitVec.eq_of_toNat_eq
  split <;> simp [Nat.shiftLeft_eq] <;> omega

/-! ### The character loop -/

/-- What ENCODE's loop holds once the characters `cs` are processed: their closed form, and in DPF whether a dot waits for the
character before them (R161). -/
def Srl.Encoded (cs : List Byte) (e : Srl) : Prop :=
  e.acc = displayWord e.cfg cs ∧ e.dpf = (cs.head? == some dot)

/-- Each character keeps it, dot or not. -/
theorem Srl.Encoded.encodeChar {cs : List Byte} {e : Srl} (h : e.Encoded cs) (c : Byte) :
    (e.encodeChar c).Encoded (c :: cs) := by
  obtain ⟨hacc, hdpf⟩ := h
  rw [Srl.Encoded, Srl.encodeChar_cfg]
  by_cases hc : c = dot
  · subst hc
    obtain ⟨hacc', hdpf'⟩ := e.encodeChar_dot
    exact ⟨by rw [hacc', hacc, displayWord_dot], hdpf'⟩
  · obtain ⟨hacc', hdpf'⟩ := e.encodeChar_other hc
    exact ⟨by rw [hacc', hacc, hdpf, displayWord_other _ hc], by simp [hdpf', hc]⟩

/-- The loop from the last character to the first, on a cleared ACC and DPF. -/
theorem Srl.encoded_foldl (cs : List Byte) {e : Srl} (hacc : e.acc = 0) (hdpf : e.dpf = false) :
    (cs.reverse.foldl Srl.encodeChar e).Encoded cs := by
  induction cs with
  | nil => exact ⟨hacc, hdpf⟩
  | cons c cs ih =>
    rw [List.reverse_cons, List.foldl_concat]
    exact ih.encodeChar c

/-- Two states of SRL that agree on everything but ACC, DPF, TXT and the ROM's output. -/
def Srl.SameButEncoding (e x : Srl) : Prop := x = { e with acc := x.acc, dpf := x.dpf, txt := x.txt, romOut := x.romOut }

theorem Srl.SameButEncoding.trans {e x y : Srl} (h : e.SameButEncoding x) (k : x.SameButEncoding y) : e.SameButEncoding y := by
  unfold Srl.SameButEncoding at *
  rw [k, h]

/-- A character touches nothing else of SRL (R161). -/
theorem Srl.encodeChar_same (e : Srl) (c : Byte) : e.SameButEncoding (e.encodeChar c) := by
  rw [Srl.encodeChar]
  split
  · rfl
  · rw [Srl.takeDot]
    split <;> rfl

theorem Srl.foldl_encodeChar_same (cs : List Byte) (e : Srl) : e.SameButEncoding (cs.foldl Srl.encodeChar e) := by
  induction cs generalizing e with
  | nil => rfl
  | cons c cs ih => exact (e.encodeChar_same c).trans (ih _)

/-! ### ENCODE -/

/-- ENCODE's steps leave the closed form in ACC (R161). -/
theorem Srl.encodeSteps_acc (cs : List Byte) (e : Srl) : (e.encodeSteps cs).acc = displayWord e.cfg cs := by
  obtain ⟨hacc, -⟩ := Srl.encoded_foldl cs (e := (e.holdText cs).clearAcc) rfl rfl
  rw [Srl.foldl_encodeChar_cfg] at hacc
  exact hacc

/-- ENCODE's steps leave the closed form in STATUS.RESULT too and, of the rest, change only DPF, TXT and the ROM's output (R161). -/
theorem Srl.encodeSteps_eq (cs : List Byte) (e : Srl) :
    ∃ d x o, e.encodeSteps cs =
      { e with acc := displayWord e.cfg cs, result := displayWord e.cfg cs, dpf := d, txt := x, romOut := o } := by
  have hsame := Srl.foldl_encodeChar_same cs.reverse (e.holdText cs).clearAcc
  rw [← Srl.encodeSteps_acc]
  exact ⟨(e.encodeSteps cs).dpf, (e.encodeSteps cs).txt, (e.encodeSteps cs).romOut, congrArg Srl.keepResult hsame⟩

/-- Settles O37: ENCODE's steps run between its markers on an untouched port. -/
theorem encodeReturnsTheDisplayWord : Obligations.EncodeReturnsTheDisplayWord := by
  intro t cs s ht hidle
  obtain ⟨d, x, o, hsteps⟩ := Srl.encodeSteps_eq cs (s.srl.begun (.encode t))
  refine ⟨(s.srl.port.beginOp (.encode t)).finish (.word (displayWord s.srl.cfg cs)), d, x, o, ?_, ?_, ?_, ?_⟩
  · rw [exec_encode ht, srlRequest_idle hidle, hsteps]
    rfl
  · exact Port.completed_finish (P := s.srl.port) (Q := s.srl.port.beginOp (.encode t)) ⟨rfl, rfl, rfl, rfl, rfl⟩
      rfl rfl (List.append_nil _).symm _
  · rw [Port.finish_pins, Port.beginOp_pins]
  · rw [Port.finish_sample, Port.beginOp_sample]

end Sys2Proof.Machine
end

section
/-! What a failed pin call leaves (R105, R125, R160, R188): nothing follows it but `End`, and the operation's events are cut before
it. Also the orders of the data pins (R106). -/

namespace Sys2Proof.Machine

/-! ### Nothing follows a failed call (R188) -/

/-- A call that succeeds emits no `Fail` (R105). -/
theorem eventOf_ne_fail (P : Port) (c : Call) (p : Pin) : eventOf P c ≠ .fail p := by
  cases c <;> nofun

/-- What a move of a port appends: events among which no call fails, which the pin records follow, and then perhaps `Fail` and the
`End` that records it. -/
def Port.FailsLast (P Q : Port) : Prop :=
  ∃ body tail, Q.trace = P.trace ++ (body ++ tail) ∧ (∀ q, Q.pin q = recordAfter q (P.pin q) body) ∧
    (∀ p, .fail p ∉ body) ∧
    ((∀ p, .fail p ∉ tail) ∨
      ∃ i p, tail = [.fail p, .endOp i .pinFault .none] ∧ Q.err = .pinFault ∧ Q.errPin = p ∧ Q.ph = .idle)

/-- An operation in progress is left so: only a pin fault puts a `Fail` behind the events of its calls. -/
theorem Port.Left.failsLast {ok : Call → Prop} {P Q : Port} {i : Instr} {a : PhStep} (hph : P.ph = .busy i a)
    (h : Port.Left ok P Q) : P.FailsLast Q := by
  obtain ⟨body, tail, htr, hpins, hbody, htail⟩ := h.trace hph
  refine ⟨body, tail, by rw [htr, List.append_assoc], hpins, fun p hp => ?_, ?_⟩
  · obtain ⟨c, R, -, hev⟩ := hbody _ hp
    exact eventOf_ne_fail R c p hev.symm
  · obtain ⟨r, rfl, -⟩ | ⟨b, rfl, -⟩ | ⟨c, p, -, -, rfl, herr, herrPin, hidle⟩ | ⟨rfl, -⟩ := htail
    · exact .inl (by simp)
    · exact .inl (by simp)
    · exact .inr ⟨i, p, rfl, herr, herrPin, hidle⟩
    · exact .inl (by simp)

/-- So does every step leave each port. -/
theorem Port.Moved.failsLast {ok : Call → Prop} {P Q : Port} (h : Port.Moved ok P Q) : P.FailsLast Q := by
  obtain rfl | ⟨i, -, hleft⟩ | ⟨⟨i, a, hph⟩, hleft⟩ := h
  · exact ⟨[], [], by simp, fun _ => rfl, by simp, .inl (by simp)⟩
  · obtain ⟨body, tail, htr, hpins, hbody, htail⟩ := hleft.failsLast (P.beginOp_ph i)
    exact ⟨.beginOp i :: body, tail, by rw [htr]; simp, hpins, by simpa using hbody, htail⟩
  · exact hleft.failsLast hph

/-- Where a `Fail` stands among the new events, everything else is said. -/
theorem Port.FailsLast.after_fail {P Q : Port} (h : P.FailsLast Q) :
    ∃ new, Q.trace = P.trace ++ new ∧
      ∀ pre p post, new = pre ++ .fail p :: post →
        (∃ i, post = [.endOp i .pinFault .none]) ∧ (∀ q, .fail q ∉ pre) ∧
          Q.err = .pinFault ∧ Q.errPin = p ∧ Q.ph = .idle ∧ ∀ q, Q.pin q = recordAfter q (P.pin q) pre := by
  obtain ⟨body, tail, htr, hpins, hbody, htail⟩ := h
  refine ⟨body ++ tail, htr, fun pre p post hsplit => ?_⟩
  obtain htail | ⟨i, p', rfl, herr, herrPin, hidle⟩ := htail
  · have hmem : Event.fail p ∈ body ++ tail := by rw [hsplit]; simp
    exact ((List.mem_append.1 hmem).elim (hbody p) (htail p)).elim
  · obtain ⟨rfl, hp, rfl⟩ := (List.append_cons_inj_of_notMem (hbody p) (by simp)).1 hsplit
    cases hp
    exact ⟨⟨i, rfl⟩, hbody, herr, herrPin, hidle, hpins⟩

/-- Settles O15: a step moves each port, and a move's `Fail` comes last but for its `End`. -/
theorem nothingAfterAFailedCall : Obligations.NothingAfterAFailedCall := by
  intro s t E h
  obtain ⟨-, hpbe, -, hsrl⟩ := step_moved h
  cases E with
  | pbe => exact hpbe.failsLast.after_fail
  | srl => exact hsrl.failsLast.after_fail

/-! ### The events before a failing call -/

/-- Only one answer is the first to fail (R105). -/
theorem Port.failsAt_unique {P : Port} {j k : Nat} (hj : P.failsAt j) (hk : P.failsAt k) : j = k := by
  obtain ⟨hjbefore, hj⟩ := hj
  obtain ⟨hkbefore, hk⟩ := hk
  rcases Nat.lt_trichotomy j k with h | h | h
  · exact absurd hj (hkbefore j h)
  · exact h
  · exact absurd hk (hjbefore k h)

/-- An event is a pin call's, on its pin, as its call is (R35, R104). -/
theorem eventOf_isPinCall (P : Port) (c : Call) : (eventOf P c).isPinCall = c.pin?.isSome := by cases c <;> rfl

theorem eventOf_pin? (P : Port) (c : Call) : (eventOf P c).pin? = c.pin? := by cases c <;> rfl

theorem pinCalls_eventsOf (P : Port) (cs : List Call) : pinCalls (eventsOf P cs) = callCount cs := by
  induction cs generalizing P with
  | nil => rfl
  | cons c cs ih => rw [eventsOf, pinCalls_cons, ih, eventOf_isPinCall, callCount, callCount, List.countP_cons]

/-- The events before a pin call are all that the trace up to it shows. -/
theorem beforeCall_append_cons {ev : Event} (hev : ev.isPinCall = true) (a b : List Event) :
    beforeCall (pinCalls a) (a ++ ev :: b) = a := by
  induction a with
  | nil => simp [beforeCall, hev]
  | cons x a ih => cases hx : x.isPinCall <;> simp [beforeCall, hx, ih]

/-- That call's pin is the pin of its event. -/
theorem callPin_append_cons {ev : Event} (hev : ev.isPinCall = true) (a b : List Event) :
    callPin (pinCalls a) (a ++ ev :: b) = ev.pin? := by
  rw [callPin, pinCalls, List.countP_eq_length_filter, List.filter_append, List.filter_cons_of_pos hev,
    List.getElem?_append_right (Nat.le_refl _)]
  simp

/-! ### An operation cut at a call (R125, R188) -/

/-- `Q` is what `P` is left as when, of the pin calls of the events `body`, the k-th fails, on pin `p`: before the exception is
taken. -/
structure Port.CutAt (P Q : Port) (k : Nat) (body : List Event) (p : Pin) : Prop where
  ph      : Q.ph = P.ph
  callPin : callPin k body = some p
  trace   : Q.trace = P.trace ++ (beforeCall k body ++ [.fail p])
  pin     : ∀ q, Q.pin q = recordAfter q (P.pin q) (beforeCall k body)

/-- A run that stops is cut at the one call that the environment lets fail first. -/
theorem Port.StoppedAt.cutAt {P Q : Port} {cs : List Call} {p : Pin} {k : Nat} (h : P.StoppedAt cs Q p) (hk : P.failsAt k) :
    P.CutAt Q k (eventsOf P cs) p := by
  obtain ⟨pre, c, post, rfl, hc, hfails, hsame⟩ := h
  obtain rfl : k = pinCalls (eventsOf P pre) := by
    rw [pinCalls_eventsOf]; exact Port.failsAt_unique hk hfails
  have hcall : (eventOf (P.ran pre) c).isPinCall = true := by simp [eventOf_isPinCall, hc]
  have hevents : eventsOf P (pre ++ c :: post) =
      eventsOf P pre ++ eventOf (P.ran pre) c :: eventsOf ((P.ran pre).applied c) post := eventsOf_append P pre _
  have hbefore : beforeCall (pinCalls (eventsOf P pre)) (eventsOf P (pre ++ c :: post)) = eventsOf P pre := by
    rw [hevents, beforeCall_append_cons hcall]
  unfold Port.SameButOrders at hsame
  rw [hsame]
  refine ⟨P.ran_ph pre, ?_, ?_, fun q => ?_⟩
  · rw [hevents, callPin_append_cons hcall, eventOf_pin?, hc]
  · rw [hbefore, ← List.append_assoc, ← P.ran_trace]
    rfl
  · rw [hbefore, ← P.pin_ran]
    rfl

/-- Taking the exception in a host operation that is cut (R188). -/
theorem Port.CutAt.raise {P Q : Port} {i : Instr} {k : Nat} {body : List Event} {p : Pin} (h : (P.beginOp i).CutAt Q k body p) :
    (Q.raise (.pinFault p)).trace =
        P.trace ++ [.beginOp i] ++ beforeCall k body ++ [.fail p, .endOp i .pinFault .none] ∧
      (Q.raise (.pinFault p)).err = .pinFault ∧ (Q.raise (.pinFault p)).errPin = p ∧ (Q.raise (.pinFault p)).ph = .idle ∧
      ∀ q, (Q.raise (.pinFault p)).pin q = recordAfter q (P.pin q) (beforeCall k body) := by
  rw [Port.raise_busy Q (h.ph.trans (P.beginOp_ph i))]
  exact ⟨by simp [h.trace, Cause.err], rfl, rfl, rfl, h.pin⟩

/-! ### Transactions (R105, R125) -/

/-- The calls of a write transaction emit W[rs](b). -/
theorem eventsOf_writeTransaction (P : Port) (rs : Level) (b : Byte) :
    eventsOf P (drive .rs rs :: writeCycle (P.peekOrder 0) (P.peekOrder 1) b) =
      writeGroup (P.peekOrder 0) (P.peekOrder 1) rs b := eventsOf_writeCycle _ _ _ rs b

/-- The calls of a read transaction emit R[rs] with the levels that the environment answers: what its port's trace shows. -/
theorem eventsOf_readTransaction (P : Port) (rs : Level) :
    eventsOf P (drive .rs rs :: readCycle (P.peekOrder 0) (P.peekOrder 1)) =
      readGroup (P.peekOrder 0) (P.peekOrder 1) rs (P.readLevel 0 (P.peekOrder 1)) := by
  refine List.append_cancel_left (as := P.trace) ?_
  rw [← Port.didRead_trace, ← Port.ran_trace, Port.didRead, Port.didReadRaw, Port.peekOrder_ran, Port.peekOrder_ran,
    Port.orderTaken_trace, Port.orderTaken_trace, ← Port.ran_append]
  rfl

/-- A one-transaction operation one of whose calls fails is cut there, and the exception is taken (R125, R188). -/
theorem exec_transaction_cut {i : Instr} {body : List Event} {k : Nat} {s : State} (ht : s.pbe.port.transaction i = some body)
    (hidle : s.pbe.port.ph = .idle) (hk : k < 20) (hfails : s.pbe.port.failsAt k) :
    ∃ (x : Pbe) (p : Pin), exec i s = .next { s with pbe := { x with port := x.port.raise (.pinFault p) } } ∧
      (s.pbe.port.beginOp i).CutAt x.port k body p := by
  have hbegun : (s.pbe.begun i).port.failsAt k := hfails
  have hnot : ¬ (s.pbe.begun i).port.noFail 20 := fun hn => hn k hk hfails.2
  unfold Port.transaction at ht
  split at ht
  · next rs b hw =>
    cases ht
    obtain ⟨hn, -⟩ | ⟨x, p, hx, hst, -⟩ := (s.pbe.begun i).writeSteps_cases rs b
    · exact (hnot hn).elim
    · refine ⟨x, p, by rw [exec_busWrite hw, pbeRequest_idle hidle, hx]; rfl, ?_⟩
      have hcut := hst.cutAt hbegun
      rwa [eventsOf_writeTransaction] at hcut
  · next rs _ hr =>
    cases ht
    obtain ⟨hn, -⟩ | ⟨x, p, hx, hst, -⟩ := (s.pbe.begun i).readSteps_cases rs
    · exact (hnot hn).elim
    · refine ⟨x, p, by rw [exec_busRead hr, pbeRequest_idle hidle, hx]; rfl, ?_⟩
      have hcut := hst.cutAt hbegun
      rwa [eventsOf_readTransaction] at hcut
  · cases ht

/-- Settles O24: the exception is taken where the transaction is cut, and nothing but PBE is touched. -/
theorem pinFaultCutsTheTransaction : Obligations.PinFaultCutsTheTransaction := by
  intro i body k s ht hidle hk hfails
  obtain ⟨x, p, hexec, hcut⟩ := exec_transaction_cut ht hidle hk hfails
  obtain ⟨htr, herr, herrPin, hph, -⟩ := hcut.raise
  exact ⟨_, p, hexec, hcut.callPin, htr, herr, herrPin, hph, rfl, rfl⟩

/-! ### The serial load (R160) -/

/-- Settles O41: the serial load stops at its failing call, and the exception is taken there. -/
theorem pinFaultCutsTheSerialLoad : Obligations.PinFaultCutsTheSerialLoad := by
  intro w k s hidle hk hfails
  have hbegun : (s.srl.begun (.rawdisp w)).port.failsAt k := hfails
  obtain ⟨hn, -⟩ | ⟨j, Q, p, -, hsteps, hst⟩ := (s.srl.begun (.rawdisp w)).rawdispSteps_cases w
  · exact absurd hfails.2 (hn k hk)
  · have hcut := hst.cutAt hbegun
    rw [eventsOf_serialCalls] at hcut
    obtain ⟨htr, herr, herrPin, hph, hpin⟩ := hcut.raise
    have hexec : exec (.rawdisp w) s = .next
        { s with srl := { s.srl with sr := w, bitcnt := j, port := Q.raise (.pinFault p) } } := by
      rw [exec_rawdisp, srlRequest_idle hidle, hsteps]
      rfl
    exact ⟨_, p, hexec, hcut.callPin, htr, herr, herrPin, hph, rfl, hpin⟩

/-! ### The orders of the data pins (R106) -/

/-- A code whose last digit is the index of a pin picks that pin first, and the rest of the code orders the pins left. -/
theorem pickOrder_idxOf (fuel code : Nat) {i : Fin 8} {left : List (Fin 8)} (hi : i ∈ left) :
    pickOrder (fuel + 1) (left.idxOf i + left.length * code) left = i :: pickOrder fuel code (left.erase i) := by
  have hlt : left.idxOf i < left.length := List.idxOf_lt_length_of_mem hi
  have hmod : (left.idxOf i + left.length * code) % left.length = left.idxOf i := by
    rw [Nat.add_mul_mod_self_left, Nat.mod_eq_of_lt hlt]
  have hdiv : (left.idxOf i + left.length * code) / left.length = code := by
    rw [Nat.add_mul_div_left _ _ (by omega), Nat.div_eq_of_lt hlt, Nat.zero_add]
  have hget : left[left.idxOf i]? = some i := List.getElem?_idxOf hi
  rw [pickOrder, hmod, hget, hdiv, List.erase_eq_eraseIdx_of_idxOf rfl]

/-- Every order of the pins left has a code: the first pin's index, then the code of the others. -/
theorem exists_pickOrder_eq {o left : List (Fin 8)} (h : o.Perm left) : ∃ code, pickOrder o.length code left = o := by
  induction o generalizing left with
  | nil => exact ⟨0, h.nil_eq.symm⟩
  | cons i o ih =>
    obtain ⟨hi, hrest⟩ := List.cons_perm_iff_perm_erase.1 h
    obtain ⟨code, hcode⟩ := ih hrest
    exact ⟨left.idxOf i + left.length * code, by rw [List.length_cons, pickOrder_idxOf _ _ hi, hcode]⟩

/-- Settles O26: a code picks each pin once, and every permutation has its code. -/
theorem everyOrderOfTheDataPinsIsPossible : Obligations.EveryOrderOfTheDataPinsIsPossible := by
  intro o
  refine ⟨fun ⟨n, hn⟩ => hn ▸ pinOrder_perm n, fun h => ?_⟩
  obtain ⟨code, hcode⟩ := exists_pickOrder_eq h
  rw [h.length_eq] at hcode
  exact ⟨code, hcode⟩

end Sys2Proof.Machine
end

section
/-! The character-to-segment ROM (R110 to R112): what a character reads in a table that lists it, does not list it, or was built
from pairs without it, and LOOKUP of the active table. -/

namespace Sys2Proof.Machine

/-! ### Characters a table lists -/

theorem Memory.read_cons_self (c : Nat) (v : Byte) (m : Memory) : Memory.read ((c, v) :: m) c = v := if_pos rfl

theorem Memory.read_cons_other {a c : Nat} (h : a ≠ c) (v : Byte) (m : Memory) :
    Memory.read ((a, v) :: m) c = m.read c := if_neg h

/-- A character that no cell is for reads as unlisted (R110). -/
theorem Memory.read_of_lacks {m : Memory} {c : Nat} (h : m.Lacks c) : m.read c = Memory.unlisted := by
  induction m with
  | nil => rfl
  | cons x m ih =>
    obtain ⟨hx, hm⟩ := List.forall_mem_cons.1 h
    exact (Memory.read_cons_other hx x.2 m).trans (ih hm)

/-- Every cell of a canonical list stands above the list's lower bound. -/
theorem Memory.lt_of_mem_of_wfAbove {m : Memory} {l : Nat} (h : m.wfAbove (some l) = true) : ∀ x ∈ m, l < x.1 := by
  induction m generalizing l with
  | nil => exact List.forall_mem_nil _
  | cons x m ih =>
    obtain ⟨hl, -, -, hm⟩ := (Memory.wfAbove_cons x.1 x.2 m (some l)).1 h
    have hlx : l < x.1 := hl l rfl
    exact List.forall_mem_cons.2 ⟨hlx, fun y hy => hlx.trans (ih hm y hy)⟩

/-- The addresses of a canonical list rise, so the first cell found for a character is its only one. -/
theorem Memory.read_of_mem {m : Memory} {lo : Option Nat} {c : Nat} {v : Byte} (h : m.wfAbove lo = true)
    (hmem : (c, v) ∈ m) : m.read c = v := by
  induction m generalizing lo with
  | nil => cases hmem
  | cons x m ih =>
    obtain ⟨a, w⟩ := x
    obtain ⟨-, -, -, hm⟩ := (Memory.wfAbove_cons a w m lo).1 h
    obtain hhead | htail := List.mem_cons.1 hmem
    · cases hhead
      exact Memory.read_cons_self c v m
    · have hac : a < c := Memory.lt_of_mem_of_wfAbove hm _ htail
      exact (Memory.read_cons_other hac.ne w m).trans (ih hm htail)

/-! ### LOOKUP (R110, R112) -/

theorem exec_lookup (c : Byte) (s : State) : exec (.lookup c) s = .next { s with srl := s.srl.lookup c } := rfl

/-- The active table is the custom table, or the default table where there is none (R112). -/
theorem SrlCfg.table_eq {cfg : SrlCfg} {m : Memory}
    (h : cfg.customTable = some m ∨ (cfg.customTable = none ∧ m = cfg.defaultTable)) : cfg.table = m := by
  obtain hcustom | ⟨hnone, rfl⟩ := h
  · rw [SrlCfg.table, hcustom, Option.getD_some]
  · rw [SrlCfg.table, hnone, Option.getD_none]

/-- Settles O35: the pattern is read in the active table, a listed character's in its only cell. -/
theorem lookupReadsTheActiveTable : Obligations.LookupReadsTheActiveTable := by
  intro c s
  refine ⟨s.srl.cfg.pattern c, exec_lookup c s, fun m hactive => ?_⟩
  have hread : s.srl.cfg.pattern c = m.read c.toNat := by rw [SrlCfg.pattern, SrlCfg.table_eq hactive]
  exact ⟨hread, fun p hwf hmem => hread.trans (Memory.read_of_mem hwf hmem),
    fun hlacks => hread.trans (Memory.read_of_lacks hlacks)⟩

/-! ### The default table (R111) -/

theorem Memory.ofPairs_concat (pairs : List (Byte × Byte)) (p : Byte × Byte) :
    Memory.ofPairs (pairs ++ [p]) = (Memory.ofPairs pairs).write p.1.toNat p.2 :=
  List.foldl_concat ..

/-- A table built from pairs reads unlisted at a character that is the key of none. -/
theorem Memory.read_ofPairs_of_not_key {pairs : List (Byte × Byte)} {c : Nat} (h : ∀ p ∈ pairs, p.1.toNat ≠ c) :
    (Memory.ofPairs pairs).read c = Memory.unlisted := by
  induction pairs using List.reverseRecOn with
  | nil => rfl
  | append_singleton pairs p ih =>
    obtain ⟨hpairs, hp⟩ := List.forall_mem_append.1 h
    have hkey : c ≠ p.1.toNat := (hp p (List.mem_singleton_self p)).symm
    rw [Memory.ofPairs_concat, Memory.read_write_other _ _ hkey, ih hpairs]

/-- The numbered characters are digits, capital letters and small letters. -/
theorem alphanumeric_range (k : Fin 62) :
    (0x30 ≤ (Config.alphanumeric k).toNat ∧ (Config.alphanumeric k).toNat ≤ 0x39) ∨
      (0x41 ≤ (Config.alphanumeric k).toNat ∧ (Config.alphanumeric k).toNat ≤ 0x5A) ∨
      (0x61 ≤ (Config.alphanumeric k).toNat ∧ (Config.alphanumeric k).toNat ≤ 0x7A) := by
  unfold Config.alphanumeric
  split
  · left; rw [BitVec.toNat_ofNat]; omega
  · split
    · right; left; rw [BitVec.toNat_ofNat]; omega
    · right; right; rw [BitVec.toNat_ofNat]; omega

/-- Settles O36: whatever the pairs of the default table are, their keys are digits and letters. -/
theorem defaultTableIsBlankOutsideDigitsAndLetters : Obligations.DefaultTableIsBlankOutsideDigitsAndLetters := by
  intro c hc
  refine Memory.read_ofPairs_of_not_key (pairs := Config.defaultPairs) fun p hp hkey => hc ?_
  obtain ⟨k, -, rfl⟩ := List.mem_map.1 hp
  rw [← hkey]
  exact alphanumeric_range (Config.defaultKey k)

end Sys2Proof.Machine
end

section
/-! Completed operations of PBE that write a byte to the bus, the raw write cycle by itself (R120, R122, R123, R133 to R142), and
WAITRDY on a module that is ready at once (R131). -/

namespace Sys2Proof.Machine

/-! ### Write transactions -/

/-- How many answers and orders a write transaction takes. -/
theorem Port.took_wrote (P : Port) (i : Instr) (rs : Level) (b : Byte) : P.Took ((P.beginOp i).wrote rs b) 20 2 where
  owner := by simp
  draws := by simp
  drawn := by simp
  orders := by simp
  ordered := by simp

/-- Settles O20: the operation is one write transaction with its markers around it. -/
theorem writeTransactionsComplete : Obligations.WriteTransactionsComplete := by
  intro i rs b s hwrite hidle hnofail
  refine ⟨((s.pbe.port.beginOp i).wrote rs b).finish .none, ?_, ?_, ?_, fun p => ?_⟩
  · rw [exec_busWrite hwrite, pbeRequest_idle hidle, Pbe.writeSteps_noFail (s.pbe.begun i) rs b hnofail]
    rfl
  · exact Port.completed_finish (Port.took_wrote s.pbe.port i rs b) (Port.wrote_ph ..) (Port.wrote_errPin ..)
      (Port.wrote_trace ..) _
  · rw [Port.finish_sample, Port.wrote_sample, Port.beginOp_sample]
  · rw [Port.pin_finish, Port.pin_wrote]
    rfl

/-! ### The raw write cycle by itself -/

/-- The port after a raw write cycle has taken nineteen answers and two orders (R120). -/
theorem Port.took_wroteRaw (P : Port) (b : Byte) : P.Took (P.wroteRaw b) 19 2 where
  owner := by simp [Port.wroteRaw]
  draws := by simp [Port.wroteRaw, Port.ran_draws]
  drawn := by simp [Port.wroteRaw, Port.ran_drawn]
  orders := by simp [Port.wroteRaw, ← List.drop_one]
  ordered := by simp [Port.wroteRaw]

/-- The events of a raw write cycle are a write group without its RS setting (R120, R122). -/
theorem Port.wroteRaw_events (P : Port) (rs : Level) (b : Byte) :
    eventsOf P (writeCycle (P.peekOrder 0) (P.peekOrder 1) b) =
      (writeGroup (P.peekOrder 0) (P.peekOrder 1) rs b).tail :=
  congrArg List.tail (P.wroteRaw_trace rs b)

/-- A raw write cycle reads no pin, so it does not fill the sample (R106, R120). -/
theorem Port.wroteRaw_sample (P : Port) (b : Byte) : (P.wroteRaw b).sample = P.sample :=
  P.ran_sample_noRead _ (by simp [writeCycle, dbOutMode, dbDrive, drive, forall_and, or_imp])

/-- The pins after a raw write cycle by itself: RS is the caller's and stays, every other pin is as a whole transaction leaves it
(R122, R123). -/
theorem recordAfter_writeGroup_tail (o1 o6 : List (Fin 8)) (h6 : ∀ i, i ∈ o6) (rs : Level) (b : Byte) (q : Pin)
    (r : Option PinRec) :
    recordAfter q r (writeGroup o1 o6 rs b).tail = if q = .rs then r else pinsAfterWrite rs b r q := by
  split_ifs with hq
  · subst hq
    simp only [writeGroup, List.cons_append, List.tail_cons, recordAfter_append]
    rw [recordAfter_map_other _ _ o6, recordAfter_map_other _ _ o1]
    all_goals simp [recordAfter, outEv]
  · have hrs : recordAfter q r [outEv .rs rs] = r := if_neg (Ne.symm hq)
    calc recordAfter q r (writeGroup o1 o6 rs b).tail
      _ = recordAfter q (recordAfter q r [outEv .rs rs]) (writeGroup o1 o6 rs b).tail := by rw [hrs]
      _ = recordAfter q r (writeGroup o1 o6 rs b) := (recordAfter_append q r _ _).symm
      _ = pinsAfterWrite rs b r q := recordAfter_writeGroup o1 o6 h6 rs b q r

/-- The pins of a port after a raw write cycle by itself (R122, R123). -/
theorem Port.pin_wroteRaw (P : Port) (rs : Level) (b : Byte) (p : Pin) :
    (P.wroteRaw b).pin p = if p = .rs then P.pin .rs else pinsAfterWrite rs b (P.pin p) p := by
  rw [Port.wroteRaw, Port.pin_orderTaken, Port.pin_orderTaken, Port.pin_ran, Port.wroteRaw_events P rs,
    recordAfter_writeGroup_tail _ _ (mem_peekOrder P 1)]
  exact ite_congr rfl (fun hp => congrArg P.pin hp) (fun _ => rfl)

/-- Settles O22: the eight steps, with no marker before or after them. -/
theorem rawWriteCycleCompletes : Obligations.RawWriteCycleCompletes := by
  intro b s hnofail
  refine ⟨s.pbe.port.wroteRaw b, ?_, ?_, Port.took_wroteRaw _ b, ?_, ?_, ?_, Port.wroteRaw_sample _ b,
    Port.pin_wroteRaw _ .low b⟩
  · show execRawwr b s = _
    rw [execRawwr, Pbe.rawWrite_noFail _ b hnofail]
    rfl
  · rw [← Port.wroteRaw_events]
    exact Port.ran_trace ..
  · simp [Port.wroteRaw]
  · simp [Port.wroteRaw]
  · simp [Port.wroteRaw]

/-! ### A ready module -/

/-- Settles O27: the ready first poll is a whole read transaction, and the wait ends there. -/
theorem waitrdyReturnsIfReady : Obligations.WaitrdyReturnsIfReady := by
  intro s hidle hnofail hready
  have hlow : s.pbe.port.readLevel 0 (s.pbe.port.peekOrder 1) 7 = .low := hready 0 Nat.zero_lt_one
  refine ⟨((s.pbe.port.beginOp .waitrdy).didRead .low).finish .none, _, ?_,
    Port.didRead_sample (s.pbe.port.beginOp .waitrdy) .low, ?_, fun p => ?_⟩
  · rw [exec_waitrdy, pbeRequest_idle hidle, Pbe.firstPoll_ready (s.pbe.begun .waitrdy) hnofail hlow]
    rfl
  · exact Port.completed_finish (Port.took_didRead s.pbe.port .waitrdy .low) (Port.didRead_ph ..) (Port.didRead_errPin ..)
      (Port.didRead_trace ..) _
  · rw [Port.pin_finish, Port.pin_didRead]
    rfl

end Sys2Proof.Machine
end

section
/-! What an operation of PBE in progress does to its port, transaction after transaction (R122): `Port.Performed` says which events
and answers and orders a part of it has gone through; parts follow one another, and the operation then ends or waits. -/

namespace Sys2Proof.Machine

/-! ### The answers and orders still to come -/

variable {P Q R : Port} {n v n' v' : Nat}

theorem Port.Took.trans (h : P.Took Q n v) (k : Q.Took R n' v') : P.Took R (n + n') (v + v') where
  owner := k.owner.trans h.owner
  draws := by rw [k.draws, h.draws, List.drop_drop]
  drawn := by rw [k.drawn, h.drawn, Nat.add_assoc]
  orders := by rw [k.orders, h.orders, List.drop_drop]
  ordered := by rw [k.ordered, h.ordered, Nat.add_assoc]

/-- PH, STATUS and the trace are no answers and no orders. -/
theorem Port.Took.marked (h : P.Took Q n v) (ph : Phase) (err : Err) (errPin : Pin) (trace : List Event) :
    P.Took { Q with ph := ph, err := err, errPin := errPin, trace := trace } n v :=
  ⟨h.owner, h.draws, h.drawn, h.orders, h.ordered⟩

/-- Accepting an operation takes none (R28, R35). -/
theorem Port.Took.of_beginOp {i : Instr} (h : (P.beginOp i).Took Q n v) : P.Took Q n v :=
  ⟨h.owner, h.draws, h.drawn, h.orders, h.ordered⟩

/-- The answers still to come are those after the ones taken. -/
theorem Port.Took.peek (h : P.Took Q n v) (k : Nat) : Q.peek k = P.peek (k + n) := by
  simp [Port.peek, List.getD, h.owner, h.draws, h.drawn, Nat.add_comm, Nat.add_left_comm]

/-- The orders still to come are those after the ones taken. -/
theorem Port.Took.peekOrder (h : P.Took Q n v) (k : Nat) : Q.peekOrder k = P.peekOrder (k + v) := by
  simp [Port.peekOrder, List.getD, h.orders, h.ordered, Nat.add_comm, Nat.add_left_comm]

theorem Port.Took.noFail (h : P.Took Q n v) {m N : Nat} (hn : P.noFail N) (hle : n + m ≤ N) : Q.noFail m := by
  intro k hk
  rw [h.peek]
  exact hn _ (by omega)

/-- What the next status read will find. -/
theorem Port.Took.readLevel (h : P.Took Q n v) (i : Fin 8) :
    Q.readLevel 0 (Q.peekOrder 1) i = P.readLevel n (P.peekOrder (v + 1)) i := by
  rw [Port.readLevel_shift h.peek, h.peekOrder, Nat.add_comm 1 v]
  rfl

/-! ### Parts of an operation -/

/-- How a port stands to what it was before a part of the operation in progress: the events `new` are appended and the pin records
follow them, the answers and orders are taken, PH and STATUS are as they were. -/
structure Port.Performed (P Q : Port) (new : List Event) (calls vectors : Nat) : Prop extends Port.Took P Q calls vectors where
  ph     : Q.ph = P.ph
  err    : Q.err = P.err
  errPin : Q.errPin = P.errPin
  trace  : Q.trace = P.trace ++ new
  pins   : ∀ p, Q.pin p = recordAfter p (P.pin p) new

variable {new new' : List Event}

theorem Port.performed_nothing (P : Port) : P.Performed P [] 0 0 :=
  ⟨⟨rfl, rfl, rfl, rfl, rfl⟩, rfl, rfl, rfl, (List.append_nil _).symm, fun _ => rfl⟩

theorem Port.Performed.trans (h : P.Performed Q new n v) (k : Q.Performed R new' n' v') :
    P.Performed R (new ++ new') (n + n') (v + v') where
  toTook := h.toTook.trans k.toTook
  ph := k.ph.trans h.ph
  err := k.err.trans h.err
  errPin := k.errPin.trans h.errPin
  trace := by rw [k.trace, h.trace, List.append_assoc]
  pins p := by rw [k.pins, h.pins, recordAfter_append]

/-- A delay takes no answer (R104). -/
theorem Port.performed_delay (P : Port) (d : Delay) : P.Performed (P.emit (.delay d)) [.delay d] 0 0 :=
  ⟨⟨rfl, rfl, rfl, rfl, rfl⟩, rfl, rfl, rfl, rfl, fun _ => rfl⟩

theorem Port.performed_didRead (P : Port) (rs : Level) :
    P.Performed (P.didRead rs) (readGroup (P.peekOrder 0) (P.peekOrder 1) rs (P.readLevel 0 (P.peekOrder 1))) 20 2 where
  toTook := ⟨P.didRead_owner rs, P.didRead_draws rs, P.didRead_drawn rs, P.didRead_orders rs, P.didRead_ordered rs⟩
  ph := P.didRead_ph rs
  err := P.didRead_err rs
  errPin := P.didRead_errPin rs
  trace := P.didRead_trace rs
  pins p := by rw [P.pin_didRead rs, recordAfter_readGroup _ _ (mem_peekOrder P 0)]

theorem Port.performed_wrote (P : Port) (rs : Level) (b : Byte) :
    P.Performed (P.wrote rs b) (writeGroup (P.peekOrder 0) (P.peekOrder 1) rs b) 20 2 where
  toTook := ⟨P.wrote_owner rs b, P.wrote_draws rs b, P.wrote_drawn rs b, P.wrote_orders rs b, P.wrote_ordered rs b⟩
  ph := P.wrote_ph rs b
  err := P.wrote_err rs b
  errPin := P.wrote_errPin rs b
  trace := P.wrote_trace rs b
  pins p := by rw [P.pin_wrote rs b, recordAfter_writeGroup _ _ (mem_peekOrder P 1)]

/-! ### Where an operation in progress is left -/

variable {i : Instr} {a b : PhStep} {e : Err}

/-- The operation ends OK (R184). -/
theorem Port.Performed.finish (h : P.Performed Q new n v) (hph : P.ph = .busy i a) :
    P.Ends (Q.finish .none) i .ok new n v := by
  rw [Port.finish_busy Q (h.ph.trans hph)]
  exact ⟨h.toTook.marked .., rfl, rfl, h.errPin, by rw [h.trace]⟩

/-- The operation ends by PROTOCOL_TIMEOUT (R182, R189). -/
theorem Port.Performed.timeout (h : P.Performed Q new n v) (hph : P.ph = .busy i a) :
    P.Ends (Q.raise .protocolTimeout) i .protocolTimeout new n v := by
  rw [Port.raise_busy Q (h.ph.trans hph)]
  exact ⟨h.toTook.marked .., rfl, rfl, h.errPin, by rw [h.trace]; rfl⟩

/-- The operation waits at a line of its own (R28). -/
theorem Port.Performed.stayAt (h : P.Performed Q new n v) (hph : P.ph = .busy i a) (b : PhStep) :
    P.Waits (Q.stayAt b) i b new n v := by
  rw [Port.stayAt_busy Q (h.ph.trans hph)]
  exact ⟨h.toTook.marked .., rfl, h.err, h.errPin, h.trace⟩

theorem Port.pin_raise (P : Port) (c : Cause) (p : Pin) : (P.raise c).pin p = P.pin p := by
  rw [Port.pin, Port.raise_pins, Port.pin]

theorem Port.pin_stayAt (P : Port) (b : PhStep) (p : Pin) : (P.stayAt b).pin p = P.pin p := by
  unfold Port.stayAt
  split <;> rfl

/-- An operation that waits at a line and, when it is taken up again, waits once more. -/
theorem Port.Waits.waits (h : P.Waits Q i a new n v) (k : Q.Waits R i b new' n' v') :
    P.Waits R i b (new ++ new') (n + n') (v + v') :=
  ⟨h.toTook.trans k.toTook, k.ph, k.err.trans h.err, k.errPin.trans h.errPin, by rw [k.trace, h.trace, List.append_assoc]⟩

/-- An operation that waits at a line and, when it is taken up again, ends. -/
theorem Port.Waits.ends (h : P.Waits Q i a new n v) (k : Q.Ends R i e new' n' v') :
    P.Ends R i e (new ++ new') (n + n') (v + v') :=
  ⟨h.toTook.trans k.toTook, k.ph, k.err, k.errPin.trans h.errPin, by rw [k.trace, h.trace, List.append_assoc P.trace]⟩

/-- An operation accepted that then waits, seen from before its acceptance (R28, R35). -/
theorem Port.Waits.of_beginOp (h : (P.beginOp i).Waits Q i a new n v) : P.Waits Q i a ([.beginOp i] ++ new) n v :=
  ⟨h.toTook.of_beginOp, h.ph, h.err, h.errPin, by simp [h.trace]⟩

/-- An operation accepted that then ends, likewise. -/
theorem Port.Ends.of_beginOp (h : (P.beginOp i).Ends Q i e new n v) : P.Ends Q i e ([.beginOp i] ++ new) n v :=
  ⟨h.toTook.of_beginOp, h.ph, h.err, h.errPin, by simp [h.trace]⟩

end Sys2Proof.Machine
end

section
/-! A turn of the poll loop, alone or inside PUTS (R131, R182): on a ready module, on a busy one below the bound and at it. -/

namespace Sys2Proof.Machine

/-! ### One additional poll -/

/-- PBE after an additional poll in which no pin call failed, POLLCNT one more (R131). -/
def Pbe.polled (e : Pbe) : Pbe := { e.delayed.afterRead .low with pollcnt := e.pollcnt + 1 }

/-- The events of an additional poll: its delay and a status read (R131). -/
def Port.pollEvents (P : Port) : List Event :=
  [.delay .tPOLL] ++ readGroup (P.peekOrder 0) (P.peekOrder 1) .low (P.readLevel 0 (P.peekOrder 1))

theorem Pbe.performed_polled (e : Pbe) : e.port.Performed e.polled.port e.port.pollEvents 20 2 :=
  (e.port.performed_delay .tPOLL).trans (Port.performed_didRead _ .low)

theorem Pbe.polled_rdr (e : Pbe) (k : Fin 8) :
    e.polled.rdr.getLsbD k.val = (e.port.readLevel 0 (e.port.peekOrder 1) k).toBool :=
  Port.didRead_sample e.delayed.port .low k

theorem Pbe.statusBF_polled {e : Pbe} (h : e.port.readLevel 0 (e.port.peekOrder 1) 7 = .high) :
    statusBF e.polled.rdr = true := by
  rw [statusBF]
  exact (e.polled_rdr 7).trans (by rw [h]; rfl)

theorem Pbe.pin_polled (e : Pbe) (p : Pin) : e.polled.port.pin p = pinsAfterRead .low (e.port.pin p) p :=
  Port.pin_didRead e.delayed.port .low p

/-! ### PBE's turn -/

theorem step_pbe {s : State} (ha : s.nextAgent = .pbe) : step s = .next (pbeTurn Pbe.goOn s.turnTaken) := by
  rw [step, ha]

theorem Pbe.goOn_waitrdy {e : Pbe} (h : e.port.ph = .busy .waitrdy .pollLoop) : e.goOn = Pbe.settle e.nextPoll := by
  rw [Pbe.goOn, Pbe.loopTurn, h]
  rfl

theorem Pbe.goOn_puts {e : Pbe} {t : List Nat} (h : e.port.ph = .busy (.puts t) .pollLoop) :
    e.goOn = Pbe.settle e.putsResume := by
  rw [Pbe.goOn, Pbe.loopTurn, h]
  rfl

/-- A busy poll ends the turn, in WAITRDY and in PUTS alike: at the bound by PROTOCOL_TIMEOUT, below it at the loop's head (R131,
R182). -/
theorem Pbe.goOn_busy {e : Pbe} {i : Instr} (hi : i = .waitrdy ∨ ∃ t, i = .puts t) (hph : e.port.ph = .busy i .pollLoop)
    (hn : e.port.noFail 20) (hb : e.port.readLevel 0 (e.port.peekOrder 1) 7 = .high) :
    e.goOn = if ({ e with pollcnt := e.pollcnt + 1 } : Pbe).limitReached then Pbe.settle (.timeout e.polled)
      else Pbe.settle (.polling e.polled) := by
  have hpoll := e.nextPoll_busy hn hb
  obtain rfl | ⟨t, rfl⟩ := hi
  · rw [Pbe.goOn_waitrdy hph, hpoll]
    split <;> rfl
  · rw [Pbe.goOn_puts hph, Pbe.putsResume, hpoll]
    split <;> rfl

/-- The bound after one more poll (R131, R182). -/
theorem Pbe.limitReached_next (e : Pbe) :
    ({ e with pollcnt := e.pollcnt + 1 } : Pbe).limitReached = true ↔
      ∃ n, e.cfg.pollLimit = some n ∧ n ≤ e.pollcnt + 1 := by
  cases h : e.cfg.pollLimit <;> simp [Pbe.limitReached, h]

theorem Pbe.goOn_timeout {e : Pbe} {i : Instr} {n : Nat} (hi : i = .waitrdy ∨ ∃ t, i = .puts t)
    (hph : e.port.ph = .busy i .pollLoop) (hn : e.port.noFail 20) (hb : e.port.readLevel 0 (e.port.peekOrder 1) 7 = .high)
    (hlimit : e.cfg.pollLimit = some n) (hle : n ≤ e.pollcnt + 1) : e.goOn = e.polled.takeTimeout :=
  (Pbe.goOn_busy hi hph hn hb).trans (if_pos (e.limitReached_next.2 ⟨n, hlimit, hle⟩))

theorem Pbe.goOn_polling {e : Pbe} {i : Instr} (hi : i = .waitrdy ∨ ∃ t, i = .puts t)
    (hph : e.port.ph = .busy i .pollLoop) (hn : e.port.noFail 20) (hb : e.port.readLevel 0 (e.port.peekOrder 1) 7 = .high)
    (hlt : ∀ n, e.cfg.pollLimit = some n → e.pollcnt + 1 < n) :
    e.goOn = { e.polled with port := e.polled.port.stayAt .pollLoop } := by
  refine (Pbe.goOn_busy hi hph hn hb).trans (if_neg fun h => ?_)
  obtain ⟨n, hn, hle⟩ := e.limitReached_next.1 h
  exact absurd (hlt n hn) (by omega)

theorem Pbe.goOn_ready {e : Pbe} (hph : e.port.ph = .busy .waitrdy .pollLoop) (hn : e.port.noFail 20)
    (hr : e.port.readLevel 0 (e.port.peekOrder 1) 7 = .low) :
    e.goOn = { e.polled with port := e.polled.port.finish .none } := by
  rw [Pbe.goOn_waitrdy hph, e.nextPoll_ready hn hr]
  rfl

/-- Settles O29: readiness is tested before the bound. -/
theorem pollEndsWhenReady : Obligations.PollEndsWhenReady := by
  intro s ha hph hn hready
  refine ⟨s.pbe.polled.port.finish .none, s.pbe.polled.rdr, ?_, s.pbe.polled_rdr, s.pbe.performed_polled.finish hph,
    fun p => ?_⟩
  · rw [step_pbe ha, pbeTurn, State.turnTaken_pbe, Pbe.goOn_ready hph hn (hready 0 Nat.zero_lt_one)]
    rfl
  · rw [Port.pin_finish, Pbe.pin_polled]

/-- Settles O30: the poll is counted and then tested against the bound; the exception touches STATUS and PH alone. -/
theorem pollLimitRaisesProtocolTimeout : Obligations.PollLimitRaisesProtocolTimeout := by
  intro s i n hi ha hph hn hbusy hlimit hle
  have hends := s.pbe.performed_polled.timeout hph
  refine ⟨s.pbe.polled.port.raise .protocolTimeout, s.pbe.polled.rdr, s.pbe.polled.takeTimeout.result, ?_,
    Pbe.statusBF_polled hbusy, ?_, hends, fun p => ?_⟩
  · rw [step_pbe ha, pbeTurn, State.turnTaken_pbe, Pbe.goOn_timeout hi hph hn hbusy hlimit hle]
    rfl
  · rw [hends.err]
    rfl
  · rw [Port.pin_raise, Pbe.pin_polled]

/-- Settles O31: the poll is counted, and the bound is not reached. -/
theorem pollGoesOnWhileBusy : Obligations.PollGoesOnWhileBusy := by
  intro s i hi ha hph hn hbusy hlt
  refine ⟨s.pbe.polled.port.stayAt .pollLoop, s.pbe.polled.rdr, ?_, Pbe.statusBF_polled hbusy,
    s.pbe.performed_polled.stayAt hph .pollLoop, fun p => ?_⟩
  · rw [step_pbe ha, pbeTurn, State.turnTaken_pbe, Pbe.goOn_polling hi hph hn hbusy hlt]
    rfl
  · rw [Port.pin_stayAt, Pbe.pin_polled]

end Sys2Proof.Machine
end

section
/-! PUTS (R143): the characters written while the module is ready at every first poll, and how the operation goes on from there, to
its end or to the poll loop of the first character that finds the module busy. -/

namespace Sys2Proof.Machine

/-! ### The characters written -/

/-- PBE after one character of PUTS on a ready module, no pin call having failed: a status read, then the data write (R143). -/
def Pbe.put (e : Pbe) (c : Byte) : Pbe :=
  { e.afterRead .low with wdr := c, port := (e.port.didRead .low).wrote .high c, txt := ⟨e.txt.chars, e.txt.pos + 1⟩ }

/-- PBE after the characters `cs`, each written so. -/
def Pbe.putAll (cs : List Byte) (e : Pbe) : Pbe := cs.foldl Pbe.put e

theorem Pbe.putAll_cons (c : Byte) (cs : List Byte) (e : Pbe) : Pbe.putAll (c :: cs) e = Pbe.putAll cs (e.put c) := rfl

theorem Pbe.putAll_concat (cs : List Byte) (c : Byte) (e : Pbe) : Pbe.putAll (cs ++ [c]) e = (Pbe.putAll cs e).put c :=
  List.foldl_concat ..

/-- Of the registers only WDR, RDR, STATUS.RESULT and the position of TXT change: WDR holds the last character, and the position
counts the characters (log 26). -/
theorem Pbe.putAll_eq (cs : List Byte) (e : Pbe) :
    Pbe.putAll cs e = { e with
      wdr := cs.getLast?.getD e.wdr, rdr := (Pbe.putAll cs e).rdr, result := (Pbe.putAll cs e).result,
      txt := ⟨e.txt.chars, e.txt.pos + cs.length⟩, port := (Pbe.putAll cs e).port } := by
  induction cs using List.reverseRecOn with
  | nil => rfl
  | append_singleton cs c ih =>
    rw [Pbe.putAll_concat]
    generalize Pbe.putAll cs e = x at ih
    rw [ih]
    simp [Pbe.put, Pbe.afterRead, Nat.add_assoc]

/-- STATUS.RESULT holds the status byte of the last character's poll, as RDR does (log 13). -/
theorem Pbe.putAll_result {cs : List Byte} (h : cs ≠ []) (e : Pbe) : (Pbe.putAll cs e).result = (Pbe.putAll cs e).rdr := by
  rw [← List.dropLast_concat_getLast h, Pbe.putAll_concat]
  rfl

/-- The events of one character: a status read and a data write (R143). -/
def Port.charEvents (P : Port) (c : Byte) : List Event :=
  readGroup (P.peekOrder 0) (P.peekOrder 1) .low (P.readLevel 0 (P.peekOrder 1)) ++
    writeGroup (P.peekOrder 2) (P.peekOrder 3) .high c

theorem Port.Took.putsEvents_cons {P Q : Port} (h : P.Took Q 40 4) (c : Byte) (cs : List Byte) :
    P.putsEvents (c :: cs) = P.charEvents c ++ Q.putsEvents cs :=
  Port.putsEvents_cons h.peek h.peekOrder c cs

theorem Pbe.performed_put (e : Pbe) (c : Byte) : e.port.Performed (e.put c).port (e.port.charEvents c) 40 4 := by
  have h := (e.port.performed_didRead .low).trans (Port.performed_wrote _ .high c)
  rwa [Port.peekOrder_didRead, Port.peekOrder_didRead] at h

theorem Pbe.performed_putAll (cs : List Byte) (e : Pbe) :
    e.port.Performed (Pbe.putAll cs e).port (e.port.putsEvents cs) (40 * cs.length) (4 * cs.length) := by
  induction cs generalizing e with
  | nil => exact e.port.performed_nothing
  | cons c cs ih =>
    have hput := e.performed_put c
    rw [hput.putsEvents_cons, List.length_cons, Nat.mul_succ, Nat.mul_succ, Nat.add_comm _ 40, Nat.add_comm _ 4]
    exact hput.trans (ih (e.put c))

/-- The pins after the characters are those the last one's data write leaves (R123, R143). -/
theorem Pbe.pin_putAll (cs : List Byte) (e : Pbe) (p : Pin) :
    (Pbe.putAll cs e).port.pin p =
      cs.getLast?.elim (e.port.pin p) (fun c => pinsAfterWrite .high c (e.port.pin p) p) := by
  induction cs using List.reverseRecOn with
  | nil => rfl
  | append_singleton cs c ih =>
    have hput : ((Pbe.putAll cs e).put c).port.pin p = pinsAfterWrite .high c ((Pbe.putAll cs e).port.pin p) p := by
      refine (Port.pin_wrote _ .high c p).trans ?_
      rw [Port.pin_didRead]
      cases p <;> rfl
    rw [Pbe.putAll_concat, hput, ih, List.getLast?_concat, Option.elim_some]
    cases cs.getLast? <;> cases p <;> rfl

/-! ### PUTS while the module is ready -/

/-- One character of PUTS on a ready module, then the rest (R143). -/
theorem Pbe.putsFrom_cons_ready {e : Pbe} (hn : e.port.noFail 40) (hr : e.port.readLevel 0 (e.port.peekOrder 1) 7 = .low)
    (c : Byte) (cs : List Byte) : Pbe.putsFrom (c :: cs) e = Pbe.putsFrom cs (e.put c) := by
  have hread := e.port.performed_didRead .low
  rw [Pbe.putsFrom, e.firstPoll_ready (fun k hk => hn k (by omega)) hr]
  show Pbe.putThen c _ _ = _
  rw [Pbe.putThen, Pbe.putChar_noFail (e.afterRead .low) c (hread.noFail hn (by omega))]
  rfl

/-- Characters that all find the module ready are written, and the rest follows (R143). -/
theorem Pbe.putsFrom_append {cs : List Byte} {e : Pbe} (hn : e.port.noFail (40 * cs.length))
    (hr : e.port.readyFor cs.length) (rest : List Byte) :
    Pbe.putsFrom (cs ++ rest) e = Pbe.putsFrom rest (Pbe.putAll cs e) := by
  induction cs generalizing e with
  | nil => rfl
  | cons c cs ih =>
    have hput := e.performed_put c
    rw [List.length_cons] at hn hr
    have hrest : (e.put c).port.readyFor cs.length := fun k hk => by
      have := hr (k + 1) (by omega)
      rw [Port.readLevel_shift hput.peek, hput.peekOrder]
      rwa [Nat.mul_succ, Nat.mul_succ, Nat.add_comm _ 40, Nat.add_right_comm] at this
    rw [List.cons_append, Pbe.putsFrom_cons_ready (fun k hk => hn k (by omega)) (hr 0 (by omega)), Pbe.putAll_cons]
    exact ih (hput.noFail hn (by omega)) hrest

/-- PUTS whose characters all find the module ready is through (R143). -/
theorem Pbe.putsFrom_ready {cs : List Byte} {e : Pbe} (hn : e.port.noFail (40 * cs.length))
    (hr : e.port.readyFor cs.length) : Pbe.putsFrom cs e = .ready (Pbe.putAll cs e) := by
  have h := Pbe.putsFrom_append hn hr []
  rwa [List.append_nil] at h

/-- PBE at the poll loop of a character of PUTS that found the module busy, after the characters `cs` (R131, R143). -/
def Pbe.putUntilBusy (cs : List Byte) (e : Pbe) : Pbe := { (Pbe.putAll cs e).afterRead .low with pollcnt := 0 }

/-- PUTS whose first `j` characters find the module ready and whose next finds it busy waits there (R131, R143). -/
theorem Pbe.putsFrom_busy {cs : List Byte} {j : Nat} {e : Pbe} (hj : j < cs.length) (hn : e.port.noFail (40 * j + 20))
    (hr : e.port.readyFor j) (hb : e.port.readLevel (40 * j) (e.port.peekOrder (4 * j + 1)) 7 = .high) :
    Pbe.putsFrom cs e = .polling (Pbe.putUntilBusy (cs.take j) e) := by
  have hlen : (cs.take j).length = j := List.length_take_of_le hj.le
  have hput := Pbe.performed_putAll (cs.take j) e
  rw [hlen] at hput
  have hsplit : Pbe.putsFrom cs e = Pbe.putsFrom (cs.drop j) (Pbe.putAll (cs.take j) e) := by
    rw [← Pbe.putsFrom_append (fun k hk => hn k (by omega)) (by rwa [hlen]), List.take_append_drop]
  rw [hsplit, List.drop_eq_getElem_cons hj, Pbe.putsFrom,
    Pbe.firstPoll_busy _ (hput.noFail hn (by omega)) ((hput.readLevel 7).trans hb)]
  rfl

/-- The port then: the characters' events, and the busy status read. -/
theorem Pbe.performed_putUntilBusy {cs : List Byte} {j : Nat} (hj : j < cs.length) (e : Pbe) :
    e.port.Performed (Pbe.putUntilBusy (cs.take j) e).port (e.port.putsEvents (cs.take j) ++
      readGroup (e.port.peekOrder (4 * j)) (e.port.peekOrder (4 * j + 1)) .low
        (e.port.readLevel (40 * j) (e.port.peekOrder (4 * j + 1)))) (40 * j + 20) (4 * j + 2) := by
  have hput := Pbe.performed_putAll (cs.take j) e
  rw [List.length_take_of_le hj.le] at hput
  have h := hput.trans (Port.performed_didRead _ .low)
  have hlevel : (Pbe.putAll (cs.take j) e).port.readLevel 0 ((Pbe.putAll (cs.take j) e).port.peekOrder 1) =
      e.port.readLevel (40 * j) (e.port.peekOrder (4 * j + 1)) := funext hput.readLevel
  rw [hlevel, hput.peekOrder 0, hput.peekOrder 1, Nat.zero_add, Nat.add_comm 1] at h
  exact h

theorem Pbe.statusBF_putUntilBusy {cs : List Byte} {j : Nat} (hj : j < cs.length) {e : Pbe}
    (hb : e.port.readLevel (40 * j) (e.port.peekOrder (4 * j + 1)) 7 = .high) :
    statusBF (Pbe.putUntilBusy (cs.take j) e).rdr = true := by
  have hput := Pbe.performed_putAll (cs.take j) e
  rw [List.length_take_of_le hj.le] at hput
  refine (Port.statusBF_didRead _ .low).trans ?_
  rw [hput.readLevel, hb]
  rfl

theorem Pbe.pin_putUntilBusy (cs : List Byte) (e : Pbe) (p : Pin) :
    (Pbe.putUntilBusy cs e).port.pin p = pinsAfterRead .low (e.port.pin p) p := by
  refine (Port.pin_didRead _ .low p).trans ?_
  rw [Pbe.pin_putAll]
  cases cs.getLast? <;> cases p <;> rfl

/-- The registers then (log 13, log 26). -/
theorem Pbe.putUntilBusy_eq {cs : List Byte} {j : Nat} (hj : j < cs.length) (e : Pbe) :
    Pbe.putUntilBusy (cs.take j) e = { e with
      wdr := (cs.take j).getLast?.getD e.wdr, rdr := (Pbe.putUntilBusy (cs.take j) e).rdr,
      result := (Pbe.putUntilBusy (cs.take j) e).rdr, pollcnt := 0, txt := ⟨e.txt.chars, e.txt.pos + j⟩,
      port := (Pbe.putUntilBusy (cs.take j) e).port } := by
  have h := Pbe.putAll_eq (cs.take j) e
  rw [List.length_take_of_le hj.le] at h
  unfold Pbe.putUntilBusy
  generalize Pbe.putAll (cs.take j) e = x at h
  rw [h]
  rfl

/-! ### The whole call (R143) -/

/-- PBE with PUTS accepted, its text in TXT (R25). -/
def Pbe.startPuts (t : List Nat) (cs : List Byte) (e : Pbe) : Pbe := { e.begun (.puts t) with txt := ⟨cs, 0⟩ }

theorem exec_puts_idle {t : List Nat} {cs : List Byte} {s : State} (ht : textBytes t = some cs)
    (hidle : s.pbe.port.ph = .idle) :
    exec (.puts t) s = .next { s with pbe := Pbe.settle (Pbe.putsFrom cs (s.pbe.startPuts t cs)) } := by
  rw [exec_puts ht, pbeRequest_idle hidle]
  rfl

/-- Settles O32: every character finds the module ready and is written. -/
theorem putsWritesEveryCharacter : Obligations.PutsWritesEveryCharacter := by
  intro t cs s ht hidle hn hr
  have hput := Pbe.performed_putAll cs (s.pbe.startPuts t cs)
  refine ⟨(Pbe.putAll cs (s.pbe.startPuts t cs)).port.finish .none, (Pbe.putAll cs (s.pbe.startPuts t cs)).rdr,
    (Pbe.putAll cs (s.pbe.startPuts t cs)).result, ?_, ?_, fun p => ?_⟩
  · have hregs := Pbe.putAll_eq cs (s.pbe.startPuts t cs)
    rw [show (s.pbe.startPuts t cs).txt.pos + cs.length = cs.length from Nat.zero_add _] at hregs
    rw [exec_puts_idle ht hidle, Pbe.putsFrom_ready (e := s.pbe.startPuts t cs) hn hr]
    exact congrArg (fun x => Host.Outcome.next { s with pbe := Pbe.settle (.ready x) }) hregs
  · have htook := Port.Took.of_beginOp (P := s.pbe.port) hput.toTook
    exact Port.completed_finish htook hput.ph hput.errPin hput.trace _
  · rw [Port.pin_finish, Pbe.pin_putAll]
    rfl

/-- Settles O33: the characters before the busy poll are written, and PH is sent to the loop's head. -/
theorem putsWaitsIfBusy : Obligations.PutsWaitsIfBusy := by
  intro t cs j s ht hj hidle hn hr hbusy
  have hput := Pbe.performed_putUntilBusy hj (s.pbe.startPuts t cs)
  refine ⟨(Pbe.putUntilBusy (cs.take j) (s.pbe.startPuts t cs)).port.stayAt .pollLoop,
    (Pbe.putUntilBusy (cs.take j) (s.pbe.startPuts t cs)).rdr, ?_, Pbe.statusBF_putUntilBusy hj hbusy, ?_, fun p => ?_⟩
  · have hregs := Pbe.putUntilBusy_eq hj (s.pbe.startPuts t cs)
    rw [show (s.pbe.startPuts t cs).txt.pos + j = j from Nat.zero_add j] at hregs
    rw [exec_puts_idle ht hidle, Pbe.putsFrom_busy (e := s.pbe.startPuts t cs) hj hn hr hbusy]
    exact congrArg (fun x => Host.Outcome.next { s with pbe := Pbe.settle (.polling x) }) hregs
  · have hwaits := (hput.stayAt rfl .pollLoop).of_beginOp (P := s.pbe.port)
    rwa [← List.append_assoc] at hwaits
  · rw [Port.pin_stayAt, Pbe.pin_putUntilBusy]
    rfl

/-! ### PUTS taken up again (R131, R143) -/

/-- PBE as it takes PUTS up at a poll loop, before the poll's status read; the poll is counted. -/
def Pbe.resumed (e : Pbe) : Pbe := { e.delayed with pollcnt := e.pollcnt + 1 }

/-- Where the poll finds the module ready, PUTS goes on as if it were a first poll. -/
theorem Pbe.putsResume_ready {e : Pbe} {c : Byte} {cs : List Byte} (hcs : e.txt.chars.drop e.txt.pos = c :: cs)
    (hn : e.port.noFail 20) (hr : e.port.readLevel 0 (e.port.peekOrder 1) 7 = .low) :
    e.putsResume = Pbe.putsFrom (c :: cs) e.resumed := by
  have hready : ∀ x : Pbe, x.txt = e.txt → x.putsReady = Pbe.putThen c (Pbe.putsFrom cs) x := fun x hx => by
    rw [Pbe.putsReady, hx, hcs]
  rw [Pbe.putsResume, e.nextPoll_ready hn hr, Pbe.putsFrom, e.resumed.firstPoll_ready hn hr]
  exact hready _ rfl

/-- PBE's turn then. -/
theorem step_puts_ready {s : State} {t : List Nat} {cs : List Byte} (ha : s.nextAgent = .pbe)
    (hph : s.pbe.port.ph = .busy (.puts t) .pollLoop) (hcs : s.pbe.txt.chars.drop s.pbe.txt.pos = cs) (hne : cs ≠ [])
    (hn : s.pbe.port.noFail 20) (hr : s.pbe.port.readLevel 0 (s.pbe.port.peekOrder 1) 7 = .low) :
    step s = .next { s.turnTaken with pbe := Pbe.settle (Pbe.putsFrom cs s.pbe.resumed) } := by
  obtain ⟨c, cs, rfl⟩ := List.exists_cons_of_ne_nil hne
  rw [step_puts ha hph, Pbe.putsResume_ready hcs hn hr]

/-- Settles O34: the poll is ready, and so is the first poll of every later character. -/
theorem putsGoesOnWhenReady : Obligations.PutsGoesOnWhenReady := by
  intro t cs s ha hph hcs hne hn hr
  have hpos : 0 < cs.length := List.length_pos_of_ne_nil hne
  have hput := Pbe.performed_putAll cs s.pbe.resumed
  refine ⟨(Pbe.putAll cs s.pbe.resumed).port.finish .none, (Pbe.putAll cs s.pbe.resumed).rdr, ?_, ?_, fun p => ?_⟩
  · have hregs := Pbe.putAll_eq cs s.pbe.resumed
    rw [Pbe.putAll_result hne] at hregs
    rw [step_puts_ready ha hph hcs hne (fun k hk => hn k (by omega)) (hr 0 hpos),
      Pbe.putsFrom_ready (e := s.pbe.resumed) hn hr]
    exact congrArg (fun x => Host.Outcome.next { s.turnTaken with pbe := Pbe.settle (.ready x) }) hregs
  · have h := ((s.pbe.port.performed_delay .tPOLL).trans hput).finish hph
    rwa [Nat.zero_add, Nat.zero_add] at h
  · rw [Port.pin_finish, Pbe.pin_putAll]
    rfl

/-- Settles O60: the poll is ready, and the characters before the next busy poll are written. -/
theorem putsGoesOnUntilBusy : Obligations.PutsGoesOnUntilBusy := by
  intro t cs j s ha hph hcs hpos hj hn hr hbusy
  have hne : cs ≠ [] := List.ne_nil_of_length_pos (by omega)
  have hput := Pbe.performed_putUntilBusy hj s.pbe.resumed
  refine ⟨(Pbe.putUntilBusy (cs.take j) s.pbe.resumed).port.stayAt .pollLoop,
    (Pbe.putUntilBusy (cs.take j) s.pbe.resumed).rdr, ?_, Pbe.statusBF_putUntilBusy hj hbusy, ?_, fun p => ?_⟩
  · have hregs := Pbe.putUntilBusy_eq hj s.pbe.resumed
    rw [step_puts_ready ha hph hcs hne (fun k hk => hn k (by omega)) (hr 0 hpos),
      Pbe.putsFrom_busy (e := s.pbe.resumed) hj hn hr hbusy]
    exact congrArg (fun x => Host.Outcome.next { s.turnTaken with pbe := Pbe.settle (.polling x) }) hregs
  · have h := ((s.pbe.port.performed_delay .tPOLL).trans hput).stayAt hph .pollLoop
    rwa [Nat.zero_add, Nat.zero_add, ← List.append_assoc] at h
  · rw [Port.pin_stayAt, Pbe.pin_putUntilBusy]
    rfl

end Sys2Proof.Machine
end

section
/-! WAITRDY from its call to its end (R131, R182, R230): the polls counted, the first of them in the call, each additional one in a
turn of the poll loop. -/

namespace Sys2Proof.Machine

/-! ### The polls of a trace -/

/-- A trace holds `polls` status reads and `delays` poll delays, by their rises of Enable, their pin calls and the time requested
(R131, R230). -/
structure Polls (tr : List Event) (polls delays : Nat) : Prop where
  rises  : tr.count (outEv .e .high) = polls
  pauses : tr.count (.delay .tPOLL) = delays
  calls  : pinCalls tr = 20 * polls
  ns     : requestedNs tr = delays * 40000 + polls * 1000

theorem Polls.append {a b : List Event} {p d p' d' : Nat} (h : Polls a p d) (k : Polls b p' d') :
    Polls (a ++ b) (p + p') (d + d') where
  rises := by rw [List.count_append, h.rises, k.rises]
  pauses := by rw [List.count_append, h.pauses, k.pauses]
  calls := by rw [pinCalls_append, h.calls, k.calls, Nat.mul_add]
  ns := by rw [requestedNs_append, h.ns, k.ns]; omega

/-- A vector step holds no event but those of its pins. -/
theorem count_map_eq_zero {α : Type} (f : α → Event) (ev : Event) (hf : ∀ i, f i ≠ ev) (l : List α) :
    (l.map f).count ev = 0 :=
  List.count_eq_zero.2 fun h => by
    obtain ⟨i, -, hi⟩ := List.mem_map.1 h
    exact hf i hi

theorem polls_readGroup (P : Port) (v : Fin 8 → Level) :
    Polls (readGroup (P.peekOrder 0) (P.peekOrder 1) .low v) 1 0 where
  rises := by
    simp only [readGroup, List.count_append]
    rw [count_map_eq_zero _ _ (by simp [outEv]), count_map_eq_zero _ _ (by simp [outEv])]
    rfl
  pauses := by
    simp only [readGroup, List.count_append]
    rw [count_map_eq_zero _ _ (by simp), count_map_eq_zero _ _ (by simp)]
    rfl
  calls := by rw [pinCalls_readGroup, length_peekOrder, length_peekOrder]
  ns := requestedNs_readGroup ..

theorem polls_pollEvents (P : Port) : Polls P.pollEvents 1 1 := by
  have hdelay : Polls [.delay .tPOLL] 0 1 := ⟨rfl, rfl, rfl, rfl⟩
  exact hdelay.append (polls_readGroup P _)

/-! ### WAITRDY -/

theorem Pbe.turnsOn_succ (n : Nat) (e : Pbe) : Pbe.turnsOn (n + 1) e = (Pbe.turnsOn n e).goOn := by
  induction n generalizing e with
  | zero => rfl
  | succ n ih => exact ih e.goOn

/-- WAITRDY accepted at port `P` waits at its poll loop, `k` additional polls after its first, all of them busy (R131). -/
structure Pbe.Waiting (P : Port) (cfg : PbeCfg) (k : Nat) (e : Pbe) : Prop where
  cfg     : e.cfg = cfg
  pollcnt : e.pollcnt = k
  port    : ∃ new, P.Waits e.port .waitrdy .pollLoop new (20 * (k + 1)) (2 * (k + 1)) ∧ Polls new (k + 1) k

variable {P : Port} {cfg : PbeCfg} {k : Nat} {e : Pbe}

/-- No pin call of the next poll fails, and the poll reads BF as `l` says. -/
def Port.NextPoll (P : Port) (l : Level) : Prop := P.noFail 20 ∧ P.readLevel 0 (P.peekOrder 1) 7 = l

/-- What the next additional poll finds is what the environment holds for it. -/
theorem Pbe.Waiting.nextPoll (h : Pbe.Waiting P cfg k e) {n : Nat} {l : Level} (hn : P.noFail (20 * n)) (hk : k + 1 < n)
    (hl : P.readLevel (20 * (k + 1)) (P.peekOrder (2 * (k + 1) + 1)) 7 = l) : e.port.NextPoll l := by
  obtain ⟨new, hwaits, -⟩ := h.port
  exact ⟨hwaits.noFail hn (by omega), (hwaits.readLevel 7).trans hl⟩

theorem Pbe.Waiting.ph (h : Pbe.Waiting P cfg k e) : e.port.ph = .busy .waitrdy .pollLoop := by
  obtain ⟨new, hwaits, -⟩ := h.port
  exact hwaits.ph

/-- A busy poll below the bound: one poll more (R131). -/
theorem Pbe.Waiting.goOn (h : Pbe.Waiting P cfg k e) (hnext : e.port.NextPoll .high)
    (hlt : ∀ n, cfg.pollLimit = some n → k + 1 < n) : Pbe.Waiting P cfg (k + 1) e.goOn := by
  obtain ⟨new, hwaits, hpolls⟩ := h.port
  rw [← h.cfg, ← h.pollcnt] at hlt
  rw [Pbe.goOn_polling (.inl rfl) h.ph hnext.1 hnext.2 hlt]
  exact
    { cfg := h.cfg
      pollcnt := congrArg (· + 1) h.pollcnt
      port := ⟨_, hwaits.waits (e.performed_polled.stayAt h.ph .pollLoop), hpolls.append (polls_pollEvents _)⟩ }

/-- A ready poll: WAITRDY ends OK (R131). -/
theorem Pbe.Waiting.ends_ready (h : Pbe.Waiting P cfg k e) (hnext : e.port.NextPoll .low) :
    ∃ new, P.Ends e.goOn.port .waitrdy .ok new (20 * (k + 2)) (2 * (k + 2)) ∧ Polls new (k + 2) (k + 1) := by
  obtain ⟨new, hwaits, hpolls⟩ := h.port
  rw [Pbe.goOn_ready h.ph hnext.1 hnext.2]
  exact ⟨_, hwaits.ends (e.performed_polled.finish h.ph), hpolls.append (polls_pollEvents _)⟩

/-- A busy poll at the bound: WAITRDY ends by PROTOCOL_TIMEOUT (R131, R182). -/
theorem Pbe.Waiting.ends_timeout (h : Pbe.Waiting P cfg k e) (hnext : e.port.NextPoll .high)
    (hlimit : cfg.pollLimit = some (k + 1)) : e.goOn.pollcnt = k + 1 ∧
      ∃ new, P.Ends e.goOn.port .waitrdy .protocolTimeout new (20 * (k + 2)) (2 * (k + 2)) ∧ Polls new (k + 2) (k + 1) := by
  obtain ⟨new, hwaits, hpolls⟩ := h.port
  rw [← h.cfg] at hlimit
  rw [Pbe.goOn_timeout (.inl rfl) h.ph hnext.1 hnext.2 hlimit (by rw [h.pollcnt])]
  exact ⟨congrArg (· + 1) h.pollcnt, _, hwaits.ends (e.performed_polled.timeout h.ph), hpolls.append (polls_pollEvents _)⟩

/-! ### The call and its turns -/

/-- PBE after the call of WAITRDY (R131; log 3). -/
def Pbe.calledWaitrdy (e : Pbe) : Pbe := Pbe.settle (e.begun .waitrdy).firstPoll

theorem exec_waitrdy_idle {s : State} (h : s.pbe.port.ph = .idle) :
    exec .waitrdy s = .next { s with pbe := s.pbe.calledWaitrdy } := by
  rw [exec_waitrdy, pbeRequest_idle h]
  rfl

/-- A busy first poll leaves WAITRDY at its poll loop (R131). -/
theorem Pbe.waiting_calledWaitrdy (h : e.port.NextPoll .high) :
    Pbe.Waiting (e.port.beginOp .waitrdy) e.cfg 0 e.calledWaitrdy := by
  rw [Pbe.calledWaitrdy, Pbe.firstPoll_busy (e.begun .waitrdy) h.1 h.2]
  exact
    { cfg := rfl
      pollcnt := rfl
      port := ⟨_, (Port.performed_didRead _ .low).stayAt rfl .pollLoop, polls_readGroup (e.port.beginOp .waitrdy) _⟩ }

/-- A ready first poll ends it (R131). -/
theorem Pbe.calledWaitrdy_ends (h : e.port.NextPoll .low) :
    ∃ new, (e.port.beginOp .waitrdy).Ends e.calledWaitrdy.port .waitrdy .ok new 20 2 ∧ Polls new 1 0 := by
  rw [Pbe.calledWaitrdy, Pbe.firstPoll_ready (e.begun .waitrdy) h.1 h.2]
  exact ⟨_, (Port.performed_didRead _ .low).finish rfl, polls_readGroup (e.port.beginOp .waitrdy) _⟩

/-- The levels in BF that the environment holds for WAITRDY's polls from `P` on: busy `m` times (R131). -/
def Port.BusyFor (P : Port) (m : Nat) : Prop := ∀ k, k < m → P.readLevel (20 * k) (P.peekOrder (2 * k + 1)) 7 = .high

/-- While the polls read busy and the bound is not reached, WAITRDY waits, one poll more after every turn (R131). -/
theorem Pbe.waiting_turnsOn {m : Nat} (hlimit : ∀ n, e.cfg.pollLimit = some n → m ≤ n) (hn : e.port.noFail (20 * m))
    (hbusy : e.port.BusyFor m) (hk : k < m) :
    Pbe.Waiting (e.port.beginOp .waitrdy) e.cfg k (e.calledWaitrdy.turnsOn k) := by
  induction k with
  | zero => exact Pbe.waiting_calledWaitrdy ⟨fun j hj => hn j (by omega), hbusy 0 hk⟩
  | succ k ih =>
    rw [Pbe.turnsOn_succ]
    have hwait := ih (by omega)
    exact hwait.goOn (hwait.nextPoll hn hk (hbusy (k + 1) hk)) fun n h => Nat.lt_of_lt_of_le hk (hlimit n h)

/-- Settles O58: `m` busy polls keep WAITRDY at its loop, and the next poll is ready. -/
theorem waitrdyReturnsAtTheFirstReadyPoll : Obligations.WaitrdyReturnsAtTheFirstReadyPoll := by
  intro s m hidle hlimit hn hbusy hready
  have hwaiting : ∀ k, k < m → Pbe.Waiting (s.pbe.port.beginOp .waitrdy) s.pbe.cfg k (s.pbe.calledWaitrdy.turnsOn k) :=
    fun k hk => Pbe.waiting_turnsOn hlimit (fun j hj => hn j (by omega)) hbusy hk
  have hends : ∃ new, (s.pbe.port.beginOp .waitrdy).Ends (s.pbe.calledWaitrdy.turnsOn m).port .waitrdy .ok new (20 * (m + 1))
      (2 * (m + 1)) ∧ Polls new (m + 1) m := by
    cases m with
    | zero => exact Pbe.calledWaitrdy_ends ⟨hn, hready⟩
    | succ k =>
      rw [Pbe.turnsOn_succ]
      have hwait := hwaiting k (Nat.lt_succ_self k)
      exact hwait.ends_ready (hwait.nextPoll hn (Nat.lt_succ_self _) hready)
  obtain ⟨new, hport, hpolls⟩ := hends
  exact ⟨_, new, exec_waitrdy_idle hidle, fun k hk => (hwaiting k hk).ph, hport.of_beginOp, hpolls.rises, hpolls.pauses,
    hpolls.calls, hpolls.ns⟩

/-- Settles O59: the last of `n` busy additional polls brings POLLCNT to the bound. -/
theorem waitrdyTimesOut : Obligations.WaitrdyTimesOut := by
  intro s n hidle hlimit hpos hn hbusy
  obtain ⟨k, rfl⟩ := Nat.exists_eq_add_of_le' hpos
  have hwaiting : ∀ j, j < k + 1 → Pbe.Waiting (s.pbe.port.beginOp .waitrdy) s.pbe.cfg j (s.pbe.calledWaitrdy.turnsOn j) :=
    fun j hj => Pbe.waiting_turnsOn (fun n h => by rw [hlimit] at h; cases h; exact Nat.le_refl _)
      (fun i hi => hn i (by omega)) (fun i hi => hbusy i hi.le) hj
  have hwait := hwaiting k (Nat.lt_succ_self k)
  obtain ⟨hcount, new, hport, hpolls⟩ :=
    hwait.ends_timeout (hwait.nextPoll hn (Nat.lt_succ_self _) (hbusy (k + 1) (Nat.le_refl _))) hlimit
  rw [← Pbe.turnsOn_succ] at hcount hport
  exact ⟨_, new, exec_waitrdy_idle hidle, fun j hj => (hwaiting j hj).ph, hport.of_beginOp, hcount, hpolls.rises,
    hpolls.pauses, hpolls.calls, hpolls.ns⟩

end Sys2Proof.Machine
end

section
/-! A turn of the poll loop or of the tick loop is at least one line (R131, R143, R164): it is lines one after another, and it emits a
delay, so it is not no line at all. -/

namespace Sys2Proof.Machine

/-- However an operation in progress is left, its trace only grows (R35). -/
theorem Port.Left.trace_length_le {ok : Call → Prop} {P Q : Port} {i : Instr} {a : PhStep} (hp : P.ph = .busy i a)
    (h : Port.Left ok P Q) : P.trace.length ≤ Q.trace.length := by
  obtain ⟨body, tail, htrace, -⟩ := h.trace hp
  simp [htrace]

/-! ### The poll loop -/

/-- A turn of the poll loop emits its delay first, and goes on from there (R131). -/
theorem Pbe.nextPoll_follows_delayed (e : Pbe) : e.nextPoll.Follows e.delayed.port := by
  have h := e.delayed.readSteps_follows .low
  rw [Pbe.nextPoll, show e.pollSteps = e.delayed.readSteps .low from rfl]
  cases hr : e.delayed.readSteps .low with
  | failed x p => rw [hr] at h; exact h
  | done x =>
    rw [hr] at h
    dsimp only
    split
    · exact h
    · split <;> exact h

theorem Pbe.putsReady_follows (e : Pbe) : e.putsReady.Follows e.port := by
  rw [Pbe.putsReady]
  split
  · exact .refl
  · exact Pbe.putThen_follows _ _ (Pbe.putsFrom_follows _) e

/-- The poll loop is one of WAITRDY, alone or inside PUTS (R131, R143). -/
theorem eq_waitrdy_or_puts {i : Instr} (h : hasStep i .pollLoop = true) : i = .waitrdy ∨ ∃ t, i = .puts t := by
  cases i with
  | waitrdy => exact .inl rfl
  | puts t => exact .inr ⟨t, rfl⟩
  | _ => cases h

theorem Pbe.goOn_left_delayed {e : Pbe} {i : Instr} (hi : i = .waitrdy ∨ ∃ t, i = .puts t)
    (hph : e.port.ph = .busy i .pollLoop) : Port.Left Call.okPbe e.delayed.port e.goOn.port := by
  obtain rfl | ⟨t, rfl⟩ := hi
  · rw [Pbe.goOn_waitrdy hph]
    exact Pbe.settle_left e.nextPoll_follows_delayed
  · rw [Pbe.goOn_puts hph]
    exact Pbe.settle_left (e.nextPoll_follows_delayed.andThen Pbe.putsReady_follows)

theorem Pbe.goOn_ne {e : Pbe} {i : Instr} (hi : i = .waitrdy ∨ ∃ t, i = .puts t) (hph : e.port.ph = .busy i .pollLoop) :
    e.goOn ≠ e := fun h => by
  have hle := Port.Left.trace_length_le (P := e.delayed.port) hph (Pbe.goOn_left_delayed hi hph)
  simp [h] at hle

/-! ### The tick loop -/

/-- A completed turn of DEMO's loop has emitted its tick (R164). -/
theorem Srl.tickSteps_trace_lt {e x : Srl} (h : e.tickSteps = .done x) : e.port.trace.length < x.port.trace.length := by
  have hfollows := Srl.displaySteps_follows e.cfg e (demoWindow e.win)
  rw [Srl.tickSteps] at h
  cases hd : e.displaySteps (demoWindow e.win) with
  | failed y p => rw [hd] at h; cases h
  | done y =>
    rw [hd] at h hfollows
    have hx : Ran.done { y with port := y.port.emit (.delay .tTICK) } = .done x := h
    obtain ⟨new, htrace, -⟩ := Port.Reach.trace hfollows
    cases hx
    simp [htrace]

theorem Port.stayAt_trace (P : Port) (a : PhStep) : (P.stayAt a).trace = P.trace := by
  unfold Port.stayAt
  split <;> rfl

/-- A turn of DEMO's loop ends DEMO, or goes round with its tick in the trace (R164). -/
theorem Srl.settle_tick_ne {e : Srl} (hph : e.port.ph ≠ .idle) : Srl.settle e.tick ≠ e := fun h => by
  rw [Srl.tick] at h
  cases hsteps : e.tickSteps with
  | failed x p =>
    rw [hsteps] at h
    exact hph (by rw [← h]; exact Port.raise_ph ..)
  | done x =>
    rw [hsteps] at h
    dsimp only at h
    split at h
    · exact hph (by rw [← h]; exact Port.finish_ph ..)
    · have hlt := Srl.tickSteps_trace_lt hsteps
      have htrace := congrArg (fun y => y.port.trace) h
      simp only [Srl.settle, Port.stayAt_trace] at htrace
      exact absurd (congrArg List.length htrace) (Nat.ne_of_gt hlt)

/-- The tick loop is DEMO's (R164). -/
theorem eq_demo {i : Instr} (h : hasStep i .tickLoop = true) : ∃ c, i = .demo c := by
  cases i with
  | demo c => exact ⟨c, rfl⟩
  | _ => cases h

theorem Srl.goOn_ne {e : Srl} {c : Bool} (hph : e.port.ph = .busy (.demo c) .tickLoop) : e.goOn ≠ e := by
  have hgo : e.goOn = Srl.settle e.tick := by rw [Srl.goOn, Srl.loopTurn, hph]; rfl
  rw [hgo]
  exact Srl.settle_tick_ne (by simp [hph])

/-! ### Turns as lines -/

theorem Pbe.linesOn_of_leads_ne {e x : Pbe} (h : e.Leads x) (hne : x ≠ e) : ∃ n, 0 < n ∧ x = e.linesOn n := by
  obtain ⟨n, rfl⟩ := Pbe.linesOn_of_leads h
  exact ⟨n, Nat.pos_of_ne_zero fun h0 => hne (by rw [h0]; rfl), rfl⟩

theorem Srl.linesOn_of_leads_ne {e x : Srl} (h : e.Leads x) (hne : x ≠ e) : ∃ n, 0 < n ∧ x = e.linesOn n := by
  obtain ⟨n, rfl⟩ := Srl.linesOn_of_leads h
  exact ⟨n, Nat.pos_of_ne_zero fun h0 => hne (by rw [h0]; rfl), rfl⟩

/-- A busy engine stands at a line that its operation has (R28). -/
theorem Pbe.phaseOk.hasStep {e : Pbe} (h : e.phaseOk) {i : Instr} {a : PhStep} (hph : e.port.ph = .busy i a) :
    hasStep i a = true := by
  obtain hidle | ⟨j, b, hbusy, -, hstep, -⟩ := h
  · rw [hph] at hidle; cases hidle
  · rw [hph] at hbusy; cases hbusy
    exact hstep

theorem Srl.phaseOk.hasStep {e : Srl} (h : e.phaseOk) {i : Instr} {a : PhStep} (hph : e.port.ph = .busy i a) :
    hasStep i a = true := by
  obtain hidle | ⟨j, b, hbusy, -, hstep, -⟩ := h
  · rw [hph] at hidle; cases hidle
  · rw [hph] at hbusy; cases hbusy
    exact hstep

/-- Settles O56: a turn is lines, and it changes its engine. -/
theorem linesMakeUpTheLoopTurn : Obligations.LinesMakeUpTheLoopTurn := by
  refine ⟨fun e hinv ⟨i, hph⟩ => ?_, fun e hinv ⟨i, hph⟩ => ?_⟩
  · have hi := eq_waitrdy_or_puts (hinv.phase.hasStep hph)
    exact Pbe.linesOn_of_leads_ne (Pbe.leads_goOn hinv.phase) (Pbe.goOn_ne hi hph)
  · obtain ⟨c, rfl⟩ := eq_demo (hinv.phase.hasStep hph)
    exact Srl.linesOn_of_leads_ne e.leads_goOn (Srl.goOn_ne hph)

end Sys2Proof.Machine
end

section
/-! What a completed serial load counts (R165), and the operations that are made of serial loads: DISPLAY (R162) and DEMO, whose
loop displays a window, lets a tick pass and checks CANCEL (R164, R186). -/

namespace Sys2Proof.Machine

/-! ### Counts of a RAWDISP (R165) -/

/-- A count of events that is the same for every bit sent is, over a serial load, 32 times that and the latch pulse's share. -/
theorem count_serialGroup {f : List Event → Nat} (hf : ∀ a b, f (a ++ b) = f a + f b) {m : Nat}
    (hbit : ∀ b, f (bitGroup b) = m) (w : Word) :
    f (serialGroup w) = 32 * m + f [outEv .latch .high, .delay .tSR, outEv .latch .low, .delay .tSR] := by
  have hnil : f [] = 0 := by have h := hf [] []; rw [List.append_nil] at h; omega
  have hbits : ∀ l : List Nat, f (l.flatMap (fun k => bitGroup (w.getLsbD k))) = l.length * m := by
    intro l
    induction l with
    | nil => rw [List.flatMap_nil, hnil, List.length_nil, Nat.zero_mul]
    | cons k l ih => rw [List.flatMap_cons, hf, ih, hbit, List.length_cons, Nat.succ_mul, Nat.add_comm]
  rw [serialGroup, hf, hbits, List.length_range]

/-- The markers of a completed operation count nothing, so what is counted is the serial load's. -/
theorem count_completed_rawdisp {f : List Event → Nat} (hf : ∀ a b, f (a ++ b) = f a + f b) {m : Nat}
    (hbit : ∀ b, f (bitGroup b) = m) (w : Word) (hbegin : f [.beginOp (.rawdisp w)] = 0)
    (hend : f [.endOp (.rawdisp w) .ok .none] = 0) :
    f ([.beginOp (.rawdisp w)] ++ serialGroup w ++ [.endOp (.rawdisp w) .ok .none]) =
      32 * m + f [outEv .latch .high, .delay .tSR, outEv .latch .low, .delay .tSR] := by
  rw [hf, hf, hbegin, hend, count_serialGroup hf hbit, Nat.zero_add, Nat.add_zero]

/-- How often a trace sets DIN, high or low. -/
def dinSettings (tr : List Event) : Nat := tr.count (outEv .din .high) + tr.count (outEv .din .low)

theorem dinSettings_append (a b : List Event) : dinSettings (a ++ b) = dinSettings a + dinSettings b := by
  simp only [dinSettings, List.count_append]
  omega

/-- Settles O40: each bit has one pulse of CLK, one setting of DIN and two delays, the latch pulse the rest. -/
theorem rawdispCounts : Obligations.RawdispCounts := by
  intro w s hidle hnofail
  obtain ⟨t, hexec, htrace⟩ := exec_rawdisp_trace hidle hnofail
  have hcount : ∀ (ev : Event) (a b : List Event), (a ++ b).count ev = a.count ev + b.count ev :=
    fun _ _ _ => List.count_append
  refine ⟨t, _, hexec, htrace, ?_, ?_, ?_, ?_, ?_, ?_, ?_⟩
  · exact count_completed_rawdisp (hcount (outEv .clk .high)) (m := 1) (by decide) w rfl rfl
  · exact count_completed_rawdisp (hcount (outEv .clk .low)) (m := 1) (by decide) w rfl rfl
  · exact count_completed_rawdisp (hcount (outEv .latch .high)) (m := 0) (by decide) w rfl rfl
  · exact count_completed_rawdisp (hcount (outEv .latch .low)) (m := 0) (by decide) w rfl rfl
  · exact count_completed_rawdisp dinSettings_append (m := 1) (by decide) w rfl rfl
  · exact count_completed_rawdisp (hcount (.delay .tSR)) (m := 2) (by decide) w rfl rfl
  · exact count_completed_rawdisp pinCalls_append (m := 3) (by decide) w rfl rfl

/-! ### A word displayed (R162) -/

/-- An operation accepted that then ends OK without a result is a completed one (R35, R184). -/
theorem Port.Ends.completed {P Q : Port} {i : Instr} {body : List Event} {n v : Nat}
    (h : (P.beginOp i).Ends Q i .ok body n v) : P.Completed Q i body n v .none :=
  ⟨h.toTook.of_beginOp, h.ph, h.err, h.errPin, h.trace⟩

/-- The serial load of a word as a part of an operation (R160). -/
theorem Port.performed_serial (P : Port) (w : Word) : P.Performed (P.ran (serialCalls w)) (serialGroup w) 98 0 where
  owner := P.ran_owner _
  draws := by rw [Port.ran_draws, callCount_serialCalls]
  drawn := by rw [Port.ran_drawn, callCount_serialCalls]
  orders := P.ran_orders _
  ordered := P.ran_ordered _
  ph := P.ran_ph _
  err := P.ran_err _
  errPin := P.ran_errPin _
  trace := P.serial_trace w
  pins p := by rw [Port.pin_serial, recordAfter_serialGroup]

/-- SRL once the text of the word `w` has been encoded and `w` sent: ACC, STATUS.RESULT and SR hold it, and the port is `Q`; of
DPF, TXT and the ROM's output nothing is said (R161, R162). -/
def Srl.displayed (e : Srl) (w : Word) (d : Bool) (x : Txt) (o : Byte) (Q : Port) : Srl :=
  { e with acc := w, result := w, dpf := d, txt := x, romOut := o, sr := w, bitcnt := Config.nShift, port := Q }

/-- DISPLAY's steps when no pin call fails, with the word of the closed form of R161. -/
theorem Srl.displaySteps_displayed (e : Srl) (cs : List Byte) (hn : e.port.noFail 98) :
    ∃ d x o, e.displaySteps cs =
      .done (e.displayed (displayWord e.cfg cs) d x o (e.port.ran (serialCalls (displayWord e.cfg cs)))) := by
  obtain ⟨d, x, o, hencode⟩ := Srl.encodeSteps_eq cs e
  refine ⟨d, x, o, ?_⟩
  rw [Srl.displaySteps_noFail e cs hn, Srl.encodeSteps_acc, hencode]
  rfl

/-- Settles O42: the closed form's word, sent between DISPLAY's markers. -/
theorem displaySendsTheEncodedWord : Obligations.DisplaySendsTheEncodedWord := by
  intro t cs s ht hidle hnofail
  have hsent := (s.srl.port.beginOp (.display t)).performed_serial (displayWord s.srl.cfg cs)
  obtain ⟨d, x, o, hsteps⟩ := Srl.displaySteps_displayed (s.srl.begun (.display t)) cs hnofail
  refine ⟨((s.srl.port.beginOp (.display t)).ran (serialCalls (displayWord s.srl.cfg cs))).finish .none, d, x, o, ?_,
    (hsent.finish (Port.beginOp_ph ..)).completed, ?_, fun p => ?_⟩
  · rw [exec_display ht, srlRequest_idle hidle, hsteps]
    rfl
  · rw [Port.finish_sample, Port.sample_serial, Port.beginOp_sample]
  · rw [Port.pin_finish, Port.pin_serial]
    rfl

/-! ### A turn of DEMO's loop (R164) -/

/-- A port once a word has been sent and the tick has passed (R164). -/
def Port.ticked (P : Port) (w : Word) : Port := (P.ran (serialCalls w)).emit (.delay .tTICK)

theorem Port.performed_ticked (P : Port) (w : Word) :
    P.Performed (P.ticked w) (serialGroup w ++ [.delay .tTICK]) 98 0 :=
  (P.performed_serial w).trans (Port.performed_delay _ .tTICK)

/-- The tick touches no pin (R104). -/
theorem Port.pin_ticked (P : Port) (w : Word) (p : Pin) : (P.ticked w).pin p = pinsAfterSerial w (P.pin p) p :=
  P.pin_serial w p

/-- A turn of DEMO's loop up to the check, when no pin call fails (R164). -/
theorem Srl.tickSteps_noFail {e : Srl} {w : Word} (hn : e.port.noFail 98) (hw : w = displayWord e.cfg (demoWindow e.win)) :
    ∃ d x o, e.tickSteps = .done (e.displayed w d x o (e.port.ticked w)) := by
  obtain ⟨d, x, o, hdisplay⟩ := e.displaySteps_displayed (demoWindow e.win) hn
  refine ⟨d, x, o, ?_⟩
  rw [Srl.tickSteps, hdisplay, ← hw]
  rfl

/-- SRL after a turn of DEMO's loop that has displayed `w` and found CANCEL to be `c`, WIN at `k` and the port at `Q` (R164,
R186). -/
def Srl.checked (e : Srl) (w : Word) (d : Bool) (x : Txt) (o : Byte) (c : Bool) (k : Fin 16) (Q : Port) : Srl :=
  { e.displayed w d x o Q with win := k, cancel := c, cancels := e.cancels.tail, cancelled := e.cancelled + 1 }

/-- A turn in which no pin call fails ends DEMO, WIN as it was, if the check finds CANCEL raised (R186), and goes on to the next
window, at the loop's head, if it does not (R164). -/
theorem Srl.settle_tick {e : Srl} {w : Word} {c : Bool} (hn : e.port.noFail 98)
    (hw : w = displayWord e.cfg (demoWindow e.win)) (hc : (e.cancel || e.nextCancel) = c) :
    ∃ d x o, Srl.settle e.tick =
      if c then e.checked w d x o c e.win ((e.port.ticked w).finish .none)
      else e.checked w d x o c (e.win + 1) ((e.port.ticked w).stayAt .tickLoop) := by
  obtain ⟨d, x, o, hsteps⟩ := Srl.tickSteps_noFail hn hw
  refine ⟨d, x, o, ?_⟩
  rw [Srl.tick, hsteps, ← hc]
  exact apply_ite Srl.settle ..

/-! ### DEMO (R164, R186) -/

/-- SRL with DEMO accepted, at window 0 and with CANCEL as given at entry (R164, R186). -/
def Srl.demoBegun (c : Bool) (e : Srl) : Srl := { e.begun (.demo c) with win := 0, cancel := c }

theorem exec_demo_idle {s : State} (hd : s.srl.cfg.hasDemo = true) (hidle : s.srl.port.ph = .idle) (c : Bool) :
    exec (.demo c) s = .next { s with srl := Srl.settle (s.srl.demoBegun c).tick } := by
  rw [exec_demo hd, srlRequest_idle hidle]
  rfl

/-- Settles O46: DEMO's first turn ends it. -/
theorem demoEndsAtTheFirstCheckThatFindsCancel : Obligations.DemoEndsAtTheFirstCheckThatFindsCancel := by
  intro c s hd hidle hnofail hcancel
  have hc : (c || s.srl.nextCancel) = true := Bool.or_eq_true_iff.2 hcancel
  obtain ⟨d, x, o, hturn⟩ := Srl.settle_tick (e := s.srl.demoBegun c) hnofail rfl hc
  have hticked := (s.srl.port.beginOp (.demo c)).performed_ticked (displayWord s.srl.cfg (demoWindow 0))
  refine ⟨_, d, x, o, ?_, (hticked.finish (Port.beginOp_ph ..)).completed, fun p => ?_⟩
  · rw [exec_demo_idle hd hidle, hturn]
    rfl
  · rw [Port.pin_finish, Port.pin_ticked]
    rfl

/-- Settles O47: DEMO's first turn goes on to window 1. -/
theorem demoStartsAtWindowZero : Obligations.DemoStartsAtWindowZero := by
  intro s hd hidle hnofail hcancel
  obtain ⟨d, x, o, hturn⟩ := Srl.settle_tick (e := s.srl.demoBegun false) hnofail rfl hcancel
  have hticked := (s.srl.port.beginOp (.demo false)).performed_ticked (displayWord s.srl.cfg (demoWindow 0))
  refine ⟨_, d, x, o, ?_, (hticked.stayAt (Port.beginOp_ph ..) .tickLoop).of_beginOp, fun p => ?_⟩
  · rw [exec_demo_idle hd hidle, hturn]
    rfl
  · rw [Port.pin_stayAt, Port.pin_ticked]
    rfl

/-- Settles O48: a turn from the loop's head, ended or gone round as the check decides. -/
theorem demoLoopTurn : Obligations.DemoLoopTurn := by
  intro s c w ha hph hnofail hw
  have hticked := s.srl.port.performed_ticked w
  cases hc : s.srl.cancel || s.srl.nextCancel with
  | true =>
    obtain ⟨d, x, o, hturn⟩ := Srl.settle_tick hnofail hw hc
    refine ⟨(s.srl.port.ticked w).finish .none, d, x, o, s.srl.win, ?_, fun p => ?_, rfl, hticked.finish hph⟩
    · rw [step_demo ha hph, hturn]
      rfl
    · rw [Port.pin_finish, Port.pin_ticked]
  | false =>
    obtain ⟨d, x, o, hturn⟩ := Srl.settle_tick hnofail hw hc
    refine ⟨(s.srl.port.ticked w).stayAt .tickLoop, d, x, o, s.srl.win + 1, ?_, fun p => ?_, Fin.val_add ..,
      hticked.stayAt hph .tickLoop⟩
    · rw [step_demo ha hph, hturn]
      rfl
    · rw [Port.pin_stayAt, Port.pin_ticked]

end Sys2Proof.Machine
end

section
/-! The end of an operation writes STATUS.ERR and shows it in `End` (R184, R190), and DEMO is refused by an engine built without it
(R200). -/

namespace Sys2Proof.Machine

/-! ### STATUS.ERR and `End` (R184) -/

/-- The port's last event is the `End` of `i`, with the status that STATUS.ERR holds (R184). -/
def Port.ShowsEnd (P : Port) (i : Instr) : Prop := ∃ pre e r, P.trace = pre ++ [.endOp i e r] ∧ P.err = e

/-- An operation in progress that is left with its engine IDLE has ended in one of three ways, each of which shows the status it
has written; an operation that waits is still in progress. -/
theorem Port.Left.showsEnd {ok : Call → Prop} {P Q : Port} {i : Instr} {a : PhStep} (hph : P.ph = .busy i a)
    (h : Port.Left ok P Q) (hidle : Q.ph = .idle) : Q.ShowsEnd i := by
  obtain ⟨body, tail, htr, -, -, htail⟩ := h.trace hph
  obtain ⟨r, rfl, herr, -⟩ | ⟨b, -, -, -, hbusy⟩ | ⟨c, p, -, -, rfl, herr, -⟩ | ⟨rfl, herr, -⟩ := htail
  · exact ⟨P.trace ++ body, .ok, r, htr, herr⟩
  · cases hidle.symm.trans hbusy
  · exact ⟨P.trace ++ body ++ [.fail p], .pinFault, .none, by simp [htr], herr⟩
  · exact ⟨P.trace ++ body, .protocolTimeout, .none, htr, herr⟩

/-- A move that takes a busy port to IDLE is the end of the operation the port was in. -/
theorem Port.Moved.showsEnd {ok : Call → Prop} {P Q : Port} {i : Instr} {a : PhStep} (hph : P.ph = .busy i a)
    (h : Port.Moved ok P Q) (hidle : Q.ph = .idle) : Q.ShowsEnd i := by
  obtain rfl | ⟨j, hbegan, -⟩ | ⟨-, hleft⟩ := h
  · cases hidle.symm.trans hph
  · cases hbegan.symm.trans hph
  · exact hleft.showsEnd hph hidle

/-- An operation that ends in the step of its call began in it. -/
theorem exec_showsEnd {i : Instr} {s t : State} (hr : i.requestable = true) (h : exec i s = .next t)
    (hidle : (t.portOf i.engine).ph = .idle) : (t.portOf i.engine).ShowsEnd i := by
  cases he : i.engine with
  | pbe =>
    rw [he] at hidle
    obtain ⟨-, -, -, hleft⟩ := exec_pbe hr he h
    exact hleft.showsEnd (Port.beginOp_ph ..) hidle
  | srl =>
    rw [he] at hidle
    obtain ⟨-, -, -, hleft⟩ := exec_srl hr he h
    exact hleft.showsEnd (Port.beginOp_ph ..) hidle

/-- An operation that ends in a later step ends in a move of its engine's port. -/
theorem step_showsEnd {E : Engine} {i : Instr} {a : PhStep} {s t : State} (hph : (s.portOf E).ph = .busy i a)
    (h : step s = .next t) (hidle : (t.portOf E).ph = .idle) : (t.portOf E).ShowsEnd i := by
  obtain ⟨-, hpbe, -, hsrl⟩ := step_moved h
  cases E with
  | pbe => exact hpbe.showsEnd hph hidle
  | srl => exact hsrl.showsEnd hph hidle

/-- Settles O16: an operation that is left with its engine IDLE shows its status, in its call's step and in a later one. -/
theorem everyEndWritesTheStatus : Obligations.EveryEndWritesTheStatus :=
  ⟨fun _ _ _ => exec_showsEnd, fun _ _ _ _ _ => step_showsEnd⟩

/-! ### DEMO without HAS_DEMO (R200) -/

/-- Settles O49: DEMO is then an operation that the engine lacks. -/
theorem demoAbsentIsRefused : Obligations.DemoAbsentIsRefused := by
  intro c s hdemo
  have hlacks : s.lacks (.demo c) = true := by rw [State.lacks, hdemo]; rfl
  exact exec_lacks hlacks

end Sys2Proof.Machine
end

section
/-! Whose turn it is: the host's hands over the request its bytes decode to, or looks for more when it has none (R231), and an idle
engine's changes nothing. -/

namespace Sys2Proof.Machine

/-! ### The host's turn (R231) -/

theorem step_host {s : State} (ha : s.nextAgent = .host) : step s = hostTurn exec s.turnTaken := by
  rw [step, ha]

theorem step_issue {s : State} (ha : s.nextAgent = .issue) : step s = hostTurn issue s.turnTaken := by
  rw [step, ha]

/-- The bytes of a request are not empty. -/
theorem exists_cons_of_decode_ok {bytes rest : List Byte} {i : Instr} (h : decode bytes = .ok i rest) :
    ∃ b tail, bytes = b :: tail := by
  cases bytes with
  | nil => cases h
  | cons b tail => exact ⟨b, tail, rfl⟩

/-- A request that the decoder accepts is handed over with its bytes gone, at a call and at an acceptance alike (R231). -/
theorem hostTurn_of_decode {take : Instr → State → Host.Outcome State Fault Refusal} {s : State} {i : Instr} {rest : List Byte}
    (h : decode s.requests = .ok i rest) : hostTurn take s = take i { s with requests := rest } := by
  obtain ⟨b, tail, hreq⟩ := exists_cons_of_decode_ok h
  have hdec : decode (b :: tail) = .ok i rest := hreq ▸ h
  rw [hostTurn, State.supplied_of_request hreq, hreq]
  simp only [hdec]

/-- Settles O6: the turn taken leaves the requests as they were, and their leading one is handed over. -/
theorem stepRunsDecodedRequest : Obligations.StepRunsDecodedRequest := by
  intro s i rest hdec
  have hturn : ∀ take, hostTurn take s.turnTaken = take i { s.turnTaken with requests := rest } :=
    fun take => hostTurn_of_decode hdec
  constructor
  · intro ha
    rw [step_host ha, hturn]
    rfl
  · intro ha
    rw [step_issue ha, hturn]
    rfl

/-! ### The host's look for more requests (R231; log 11) -/

/-- The host has looked beyond the requests in its list, and found these. -/
def State.looked (s : State) : State := { s with requests := Config.freeRequest s.requested, requested := s.requested + 1 }

theorem State.supplied_of_no_request {s : State} (h : s.requests = []) : s.supplied = s.looked := by
  rw [State.supplied, h]
  rfl

/-- A look that finds nothing is the whole turn. -/
theorem hostTurn_of_look_empty {take : Instr → State → Host.Outcome State Fault Refusal} {s : State} (h : s.requests = [])
    (hfree : Config.freeRequest s.requested = []) : hostTurn take s = .next { s with requested := s.requested + 1 } := by
  have hlooked : s.looked = { s with requested := s.requested + 1 } := by rw [State.looked, hfree, ← h]
  rw [hostTurn, State.supplied_of_no_request h, hlooked, h]

/-- A look that finds requests leaves the turn that of a host with these in its list: it looks no further. -/
theorem hostTurn_of_look_found {take : Instr → State → Host.Outcome State Fault Refusal} {s : State} (h : s.requests = [])
    (hfree : Config.freeRequest s.requested ≠ []) : hostTurn take s = hostTurn take s.looked := by
  obtain ⟨b, tail, hfound⟩ := List.exists_cons_of_ne_nil hfree
  have hsupplied : s.looked.supplied = s.looked := State.supplied_of_request hfound
  rw [hostTurn, hostTurn, State.supplied_of_no_request h, hsupplied]

/-- Whether the host calls or has a request accepted, its turn in a state and in that state after the look is one function's. -/
theorem step_of_host_agent {s : State} (ha : s.nextAgent = .host ∨ s.nextAgent = .issue) :
    ∃ take, step s = hostTurn take s.turnTaken ∧ step s.looked = hostTurn take s.turnTaken.looked := by
  obtain ha | ha := ha
  · exact ⟨exec, step_host ha, step_host (s := s.looked) ha⟩
  · exact ⟨issue, step_issue ha, step_issue (s := s.looked) ha⟩

theorem step_of_no_request {s : State} (ha : s.nextAgent = .host ∨ s.nextAgent = .issue) (h : s.requests = []) :
    step s = if Config.freeRequest s.requested = [] then .next { s.turnTaken with requested := s.requested + 1 }
      else step s.looked := by
  obtain ⟨take, hstep, hlooked⟩ := step_of_host_agent ha
  split
  next hfree => exact hstep.trans (hostTurn_of_look_empty (s := s.turnTaken) h hfree)
  next hfree => rw [hstep, hlooked, hostTurn_of_look_found (s := s.turnTaken) h hfree]

/-! ### An idle engine's turn -/

theorem Pbe.lineOn_idle {e : Pbe} (h : e.port.ph = .idle) : e.lineOn = e := by rw [Pbe.lineOn, h]

theorem Srl.lineOn_idle {e : Srl} (h : e.port.ph = .idle) : e.lineOn = e := by rw [Srl.lineOn, h]

/-- An idle engine stands at no loop's head. -/
theorem Pbe.goOn_idle {e : Pbe} (h : e.port.ph = .idle) : e.goOn = e := by
  have hloop : e.loopTurn = none := by rw [Pbe.loopTurn, h]
  rw [Pbe.goOn, hloop]
  exact Pbe.lineOn_idle h

theorem Srl.goOn_idle {e : Srl} (h : e.port.ph = .idle) : e.goOn = e := by
  have hloop : e.loopTurn = none := by rw [Srl.loopTurn, h]
  rw [Srl.goOn, hloop]
  exact Srl.lineOn_idle h

theorem pbeTurn_of_fixed {move : Pbe → Pbe} {s : State} (h : move s.pbe = s.pbe) : pbeTurn move s = s := by
  rw [pbeTurn, h]

theorem srlTurn_of_fixed {move : Srl → Srl} {s : State} (h : move s.srl = s.srl) : srlTurn move s = s := by
  rw [srlTurn, h]

theorem step_of_pbe_idle {s : State} (ha : s.nextAgent = .pbe ∨ s.nextAgent = .pbeLine) (h : s.pbe.port.ph = .idle) :
    step s = .next s.turnTaken := by
  obtain ha | ha := ha
  · rw [step_pbe ha, pbeTurn_of_fixed (s := s.turnTaken) (Pbe.goOn_idle h)]
  · rw [step, ha]
    exact congrArg _ (pbeTurn_of_fixed (s := s.turnTaken) (Pbe.lineOn_idle h))

theorem step_of_srl_idle {s : State} (ha : s.nextAgent = .srl ∨ s.nextAgent = .srlLine) (h : s.srl.port.ph = .idle) :
    step s = .next s.turnTaken := by
  rw [step]
  obtain ha | ha := ha
  · rw [ha]
    exact congrArg _ (srlTurn_of_fixed (s := s.turnTaken) (Srl.goOn_idle h))
  · rw [ha]
    exact congrArg _ (srlTurn_of_fixed (s := s.turnTaken) (Srl.lineOn_idle h))

/-- Settles O7: an idle engine's turn is the turn taken, and a host without a request looks for more. -/
theorem idleTurnsChangeNothing : Obligations.IdleTurnsChangeNothing := by
  refine fun s => ⟨?_, step_of_no_request⟩
  rintro (⟨ha, hidle⟩ | ⟨ha, hidle⟩)
  · exact step_of_pbe_idle ha hidle
  · exact step_of_srl_idle ha hidle

end Sys2Proof.Machine
end
